-- ==== Sys2Proof/Word.lean ====
section
/-! DEFINITION. Word.lean: the word types of the block (00_scope.md R5, R6; 10_state.md R20 to R30).
Every quantity is unsigned and arithmetic wraps at its width (R7); nothing is sign-extended. -/

namespace Sys2Proof

/-- One bit as data: the polarity of an event, the level of a pin (R90, R145). -/
abbrev Bit := BitVec 1

/-- A channel identifier 0 to 3 (`CH_BITS` = 2, R5). -/
abbrev Channel := BitVec 2

/-- One byte of the packet buffer or of the wire (R60 (b), R94). -/
abbrev Byte := BitVec 8

/-- One hardware counter (`CNT_BITS` = 16, R20, R21). -/
abbrev Half := BitVec 16

/-- The timestamp field of an event word (`TS_BITS` = 29, R90). -/
abbrev Stamp := BitVec 29

/-- An event word, a cursor, an extended clock value, a millisecond count (`WORD_BITS` = 32, R5). -/
abbrev Word := BitVec 32

/-- The 5-bit counts `M.n` and `M.k` (R30). -/
abbrev Count := BitVec 5

/-- A pin identity.
DESIGN CHOICE (log 3): the spec leaves the type of pin identities open (R5, D8); the model numbers them. -/
abbrev Pin := Nat

end Sys2Proof
end

