-- ==== Sys2Proof/Syntax.lean ====
section
/-! DEFINITION. Syntax.lean: the operations and formats of the block, one constructor of `Instr` for each row
of spec/opcode_table.json; the two sequencers' phases, which select operations where another machine
would have an opcode (30_encoding.md R95); and the lines of the spec's trace notation (R98). -/

namespace Sys2Proof

/-- The two execution contexts (R254): the main loop `M` and the interrupt context `I`. -/
inductive Ctx where
  | M
  | I
  deriving DecidableEq, Repr, Inhabited

/-- The phases of the main loop, `MPC`, in the order of the table of R33. -/
inductive Mpc where
  | mSnapEnter
  | mSnapW
  | mSnapR
  | mSnapExit
  | mDecide
  | mDrain
  | mSubmit
  | mGR1
  | mGR2
  | mGR3
  | mGR4
  | mGTest
  | mHaltCnt
  | mHaltIrq
  | mHaltQ
  | mIdle
  deriving DecidableEq, Repr, Inhabited

/-- The phases of the interrupt context, `IPC` (R34). -/
inductive Ipc where
  | iIdle
  | iR1
  | iR2
  | iR3
  | iR4
  | iFinish
  deriving DecidableEq, Repr, Inhabited

/-- The four steps of `CLK.READ` (R123), the same in both contexts. -/
inductive ClkPhase where
  | r1
  | r2
  | r3
  | r4
  deriving DecidableEq, Repr, Inhabited

/-- The transport's answer to one `send` (R196, R262 (c)). -/
inductive Answer where
  | accepted
  | busy
  deriving DecidableEq, Repr, Inhabited

/-- An event as `EV.UNPACK` gives it (R92, R142): the timestamp is the 29-bit field, zero-extended. -/
structure Event where
  edge : Bit
  channel : Channel
  timestamp : Word
  deriving DecidableEq, Repr, Inhabited

/-- Which agent moves next: the environment's choice (R35), written as the lines of the trace notation that
take a step (R98), the external reset (R280), and three moves of parties outside the block.
`irq`, `istep`, `mstep` and `tick` are R98's own.
`transition` and `serve` are the reference interrupt source of R249.
`host` is the receiver of `WIRE` taking its next packet or decoding its next word (R92, R94, R266). -/
inductive Move where
  | tick
  | irq (p : Pin)
  | istep
  | mstep
  | reset
  | host
  | transition (p : Pin)
  | serve
  deriving DecidableEq, Repr, Inhabited

/-- The formats and operations of the block: spec/opcode_table.json, one constructor a row, in its order.
Operands are those the operation's rule names; what a rule draws from the environment (the pin's level,
the wall clock, the transport's answer) is no operand and comes from `State.env`. -/
inductive Instr where
  /-- `EVW.FALL0` (R99): falling edge, channel 0. -/
  | evwFall0 (t : Stamp)
  /-- `EVW.FALL1` (R99): falling edge, channel 1. -/
  | evwFall1 (t : Stamp)
  /-- `EVW.FALL2` (R99): falling edge, channel 2. -/
  | evwFall2 (t : Stamp)
  /-- `EVW.FALL3` (R99): falling edge, channel 3. -/
  | evwFall3 (t : Stamp)
  /-- `EVW.RISE0` (R99): rising edge, channel 0. -/
  | evwRise0 (t : Stamp)
  /-- `EVW.RISE1` (R99): rising edge, channel 1. -/
  | evwRise1 (t : Stamp)
  /-- `EVW.RISE2` (R99): rising edge, channel 2. -/
  | evwRise2 (t : Stamp)
  /-- `EVW.RISE3` (R99): rising edge, channel 3. -/
  | evwRise3 (t : Stamp)
  /-- `PKT` (R94): a wire packet of the words, oldest first. -/
  | pkt (ws : List Word)
  /-- `CNT.TICK` (R120). -/
  | cntTick
  /-- `CLK.READ` (R123) in one of the two contexts. -/
  | clkRead (x : Ctx)
  /-- `EV.PACK` (R141). -/
  | evPack (edge : Bit) (channel : Channel) (t : Word)
  /-- `EV.UNPACK` (R142). -/
  | evUnpack (w : Word)
  /-- `EDGE.IRQ` (R140) for the pin identity `p`. -/
  | edgeIrq (p : Pin)
  /-- `Q.PUSH` (R160). -/
  | qPush (w : Word)
  /-- `CRIT.ENTER` (R162). -/
  | critEnter
  /-- `CRIT.EXIT` (R163). -/
  | critExit
  /-- `Q.SNAPSHOT` (R164). -/
  | qSnapshot
  /-- `Q.DRAIN` (R167). -/
  | qDrain
  /-- `Q.RESET` (R170). -/
  | qReset
  /-- `TX.DECIDE` (R191). -/
  | txDecide
  /-- `TX.SERIALIZE` (R194) of the word `w` at the position `M.k`. -/
  | txSerialize (w : Word)
  /-- `TX.SUBMIT` (R196). -/
  | txSubmit
  /-- `TX.STEP` (R190). -/
  | txStep
  /-- `GUARD.STEP` (R220). -/
  | guardStep
  /-- `GUARD.HALT` (R222). -/
  | guardHalt
  /-- `MAIN.ITER` (R226). -/
  | mainIter
  /-- `SYS.RESET` (R280). -/
  | sysReset
  deriving DecidableEq, Repr, Inhabited

end Sys2Proof
end

