-- ==== Sys2Proof/Config.lean ====
section
/-! DEFINITION. Config.lean: the implementation parameters of 00_scope.md R5, each a field with LA-SPEC's
value (92_eei_decisions.md D26, log 22), and the values the spec leaves to the environment, as constants with
no body. The bit widths of R5 are the widths of the types of Word.lean. -/

namespace Sys2Proof

/-- `C` (R5): queue capacity in event words, a power of two. -/
abbrev Config.queueCapacity : Nat := 1024

/-- `CHUNK_SIZE` (R5): most events in one packet. -/
abbrev Config.chunkSize : Nat := 16

/-- `SEND_INTERVAL_MS` (R5): time trigger of the flush, in milliseconds. -/
abbrev Config.sendIntervalMs : Nat := 2

/-- `RANGE_LIMIT` (R5): the Range Guard halts when the clock is at or above it. -/
abbrev Config.rangeLimit : Nat := 536870912

/-- `PKT_MAX_BYTES` (R5): size of the packet buffer. -/
abbrev Config.pktMaxBytes : Nat := 64

/-- `N_CHANNELS` (R5). -/
abbrev Config.nChannels : Nat := 4

/-- `TS_BITS` (R5). -/
abbrev Config.tsBits : Nat := 29

/-- `CH_BITS` (R5). -/
abbrev Config.chBits : Nat := 2

/-- `CNT_BITS` (R5). -/
abbrev Config.cntBits : Nat := 16

/-- `WORD_BITS` (R5). -/
abbrev Config.wordBits : Nat := 32

/-- `WALL_BITS` (R5, decision D16, log 13). -/
abbrev Config.wallBits : Nat := 32

/-- `TICK_HZ` (R5): OPEN; no rule depends on it (log 22). -/
opaque Config.tickHz : Nat

/-- `CHAN_OF_PIN` (R5, R143): OPEN, a partial map from pin identities to channels, as a finite list of
pairs of which the first for a pin counts. FREE VALUE (log 3): the map a machine has at reset. -/
opaque Config.chanOfPin : List (Pin × Channel)

/-- Which enabled step is taken next (R35, U10). FREE VALUE (log 2): used where `State.env` lists no move. -/
opaque Config.freeMove : Nat → Move

/-- The level of a pin at a draw (R145, U4). FREE VALUE (log 2). -/
opaque Config.freeLevel : Nat → Pin → Bit

/-- The wall clock at a draw (R191, U13). FREE VALUE (log 2). -/
opaque Config.freeWall : Nat → Word

/-- The transport's answer to a `send` (R196, U12). FREE VALUE (log 2). -/
opaque Config.freeAnswer : Nat → Answer

end Sys2Proof
end

