-- ==== Sys2Proof/WellFormed.lean ====
section
/-! DEFINITION. WellFormed.lean: which terms of `Instr` the spec admits. Every operand but a packet's list of
words is admitted at every value of its type: all event words are legal and a channel has two bits (R97). -/

namespace Sys2Proof

/-- The two checks on a packet: at least one word (R192, "never send an empty packet") and at most
`CHUNK_SIZE` words (R94, R96, R97 (b)). -/
def packetWf (ws : List Word) : Bool :=
  decide (1 ≤ ws.length) && decide (ws.length ≤ Config.chunkSize)

/-- Well-formedness of a term of `Instr`. -/
def Instr.wf : Instr → Bool
  | .pkt ws => packetWf ws
  | .evwFall0 _ => true
  | .evwFall1 _ => true
  | .evwFall2 _ => true
  | .evwFall3 _ => true
  | .evwRise0 _ => true
  | .evwRise1 _ => true
  | .evwRise2 _ => true
  | .evwRise3 _ => true
  | .cntTick => true
  | .clkRead _ => true
  | .evPack _ _ _ => true
  | .evUnpack _ => true
  | .edgeIrq _ => true
  | .qPush _ => true
  | .critEnter => true
  | .critExit => true
  | .qSnapshot => true
  | .qDrain => true
  | .qReset => true
  | .txDecide => true
  | .txSerialize _ => true
  | .txSubmit => true
  | .txStep => true
  | .guardStep => true
  | .guardHalt => true
  | .mainIter => true
  | .sysReset => true

end Sys2Proof
end

