-- ==== Sys2Proof/Decode.lean ====
section
/-! DEFINITION. Decode.lean: the bit layouts of 30_encoding.md. The event word (R90 to R92, R99), its four
bytes on the wire (R62), the packet (R94), the decoder on bytes, the operation each sequencer phase
selects (R95), and the encoder. -/

namespace Sys2Proof

/-! ### The event word -/

/-- The selector of the tag bits (R99). -/
def tagMask : Word := 0xE0000000#32

/-- Assembly of the fields of an event word (R91): the timestamp operand is masked to its 29 low bits. -/
def packEvent (edge : Bit) (channel : Channel) (t : Word) : Word :=
  (edge.setWidth 32 <<< 31) ||| (channel.setWidth 32 <<< 29) ||| (t &&& 0x1FFFFFFF#32)

/-- Disassembly of an event word (R92). -/
def unpackEvent (w : Word) : Event :=
  { edge := w.extractLsb' 31 1
    channel := w.extractLsb' 29 2
    timestamp := (w.extractLsb' 0 29).setWidth 32 }

/-- The row of the event-word table that a word belongs to (R99): its tag bits are compared with each row's
`match` in turn. -/
def decodeWord (w : Word) : Option Instr :=
  let tag := w &&& tagMask
  let t : Stamp := w.extractLsb' 0 29
  if tag = 0x00000000#32 then some (.evwFall0 t)
  else if tag = 0x20000000#32 then some (.evwFall1 t)
  else if tag = 0x40000000#32 then some (.evwFall2 t)
  else if tag = 0x60000000#32 then some (.evwFall3 t)
  else if tag = 0x80000000#32 then some (.evwRise0 t)
  else if tag = 0xA0000000#32 then some (.evwRise1 t)
  else if tag = 0xC0000000#32 then some (.evwRise2 t)
  else if tag = 0xE0000000#32 then some (.evwRise3 t)
  else none

/-! ### Bytes -/

/-- The four bytes of a word in the order they stand in a packet (R62, R94). -/
def leBytes (w : Word) : List Byte :=
  [w.extractLsb' 0 8, w.extractLsb' 8 8, w.extractLsb' 16 8, w.extractLsb' 24 8]

/-- The word that four bytes of a packet stand for, the inverse of `leBytes` (R94). -/
def ofLeBytes (b0 b1 b2 b3 : Byte) : Word :=
  (b3.setWidth 32 <<< 24) ||| (b2.setWidth 32 <<< 16) ||| (b1.setWidth 32 <<< 8) ||| b0.setWidth 32

/-- The bytes of a packet of words, oldest first (R94). -/
def packetBytes (ws : List Word) : List Byte :=
  ws.flatMap leBytes

/-- A byte string cut into little-endian words, or none where its length is no multiple of 4 (R94, R97 (b)). -/
def cutWords : List Byte → Option (List Word)
  | [] => some []
  | b0 :: b1 :: b2 :: b3 :: rest => (cutWords rest).map (ofLeBytes b0 b1 b2 b3 :: ·)
  | [_] => none
  | [_, _] => none
  | [_, _, _] => none

/-- The `n` bytes of the number `w`, its least significant byte first. -/
def natBytes : Nat → Nat → List Byte
  | 0, _ => []
  | n + 1, w => BitVec.ofNat 8 w :: natBytes n (w / 256)

/-! ### The decoder -/

/-- Why bytes are no event word or no packet. -/
inductive DecodeError where
  /-- Fewer than the four bytes of an event word. -/
  | truncated
  /-- No row of R99 has these tag bits; never answered, since the eight rows cover all words (R97 (a)). -/
  | noRow
  /-- A packet of no bytes (R97 (b)). -/
  | emptyPacket
  /-- A packet of more than `PKT_MAX_BYTES` bytes (R97 (b)). -/
  | packetTooLong
  /-- A packet whose length is no multiple of 4 (R97 (b)). -/
  | notWholeWords
  deriving DecidableEq, Repr

/-- The event word at the front of a byte stream and the bytes after it. -/
def decodeEvent : List Byte → Except DecodeError (Instr × List Byte)
  | b0 :: b1 :: b2 :: b3 :: rest =>
    match decodeWord (ofLeBytes b0 b1 b2 b3) with
    | some i => .ok (i, rest)
    | none => .error .noRow
  | [] => .error .truncated
  | [_] => .error .truncated
  | [_, _] => .error .truncated
  | [_, _, _] => .error .truncated

/-- A whole packet, whose end the transport's packet boundary gives (R96). -/
def decodePacket (bs : List Byte) : Except DecodeError Instr :=
  if bs.length = 0 then .error .emptyPacket
  else if Config.pktMaxBytes < bs.length then .error .packetTooLong
  else
    match cutWords bs with
    | some ws => .ok (.pkt ws)
    | none => .error .notWholeWords

/-- What the decoder reads from an instruction of `nbits` bits numbered as spec/opcode_table.json numbers
them. Up to 32 bits are an event word, its first byte the least significant (R62); more are a packet, whose
length is `nbits` (R96). An operation has no bit pattern (R95), so no bits decode to none. -/
def decodeTableWord (nbits w : Nat) : Option Instr :=
  if nbits = 0 then none
  else if nbits ≤ 32 then
    match decodeEvent (natBytes 4 (w % 2 ^ nbits)) with
    | .ok (i, _) => some i
    | .error _ => none
  else if nbits % 8 = 0 then
    match decodePacket (natBytes (nbits / 8) (w % 2 ^ nbits)) with
    | .ok i => some i
    | .error _ => none
  else none

/-! ### The sequencers: the operation a phase selects -/

/-- The step of `CLK.READ` that a main-loop phase takes (R33). -/
def Mpc.clkPhase : Mpc → Option ClkPhase
  | .mGR1 => some .r1
  | .mGR2 => some .r2
  | .mGR3 => some .r3
  | .mGR4 => some .r4
  | .mSnapEnter | .mSnapW | .mSnapR | .mSnapExit | .mDecide | .mDrain | .mSubmit
  | .mGTest | .mHaltCnt | .mHaltIrq | .mHaltQ | .mIdle => none

/-- The step of `CLK.READ` that a phase of the interrupt context takes (R34). -/
def Ipc.clkPhase : Ipc → Option ClkPhase
  | .iR1 => some .r1
  | .iR2 => some .r2
  | .iR3 => some .r3
  | .iR4 => some .r4
  | .iIdle | .iFinish => none

/-- The main-loop phase of a step of `CLK.READ`; where the read is done, the phase after it (R33). -/
def Mpc.ofClk : Option ClkPhase → Mpc
  | some .r1 => .mGR1
  | some .r2 => .mGR2
  | some .r3 => .mGR3
  | some .r4 => .mGR4
  | none => .mGTest

/-- The interrupt context's phase of a step of `CLK.READ`; where the read is done, the phase after it (R34). -/
def Ipc.ofClk : Option ClkPhase → Ipc
  | some .r1 => .iR1
  | some .r2 => .iR2
  | some .r3 => .iR3
  | some .r4 => .iR4
  | none => .iFinish

/-- Phases of `Q.SNAPSHOT` (R95). -/
def Mpc.inSnapshot : Mpc → Bool
  | .mSnapEnter | .mSnapW | .mSnapR | .mSnapExit => true
  | .mDecide | .mDrain | .mSubmit | .mGR1 | .mGR2 | .mGR3 | .mGR4 | .mGTest
  | .mHaltCnt | .mHaltIrq | .mHaltQ | .mIdle => false

/-- Phases inside the critical section, in which `IRQ_MASK = 1` (R71). -/
def Mpc.inCritical : Mpc → Bool
  | .mSnapW | .mSnapR | .mSnapExit => true
  | .mSnapEnter | .mDecide | .mDrain | .mSubmit | .mGR1 | .mGR2 | .mGR3 | .mGR4 | .mGTest
  | .mHaltCnt | .mHaltIrq | .mHaltQ | .mIdle => false

/-- Phases of `TX.STEP` (R95). -/
def Mpc.inTx : Mpc → Bool
  | .mSnapEnter | .mSnapW | .mSnapR | .mSnapExit | .mDecide | .mDrain | .mSubmit => true
  | .mGR1 | .mGR2 | .mGR3 | .mGR4 | .mGTest | .mHaltCnt | .mHaltIrq | .mHaltQ | .mIdle => false

/-- Phases of `GUARD.STEP` (R95). -/
def Mpc.inGuard : Mpc → Bool
  | .mGR1 | .mGR2 | .mGR3 | .mGR4 | .mGTest | .mHaltCnt | .mHaltIrq | .mHaltQ => true
  | .mSnapEnter | .mSnapW | .mSnapR | .mSnapExit | .mDecide | .mDrain | .mSubmit | .mIdle => false

/-- Phases of `GUARD.HALT` (R95). -/
def Mpc.inHalt : Mpc → Bool
  | .mHaltCnt | .mHaltIrq | .mHaltQ => true
  | .mSnapEnter | .mSnapW | .mSnapR | .mSnapExit | .mDecide | .mDrain | .mSubmit
  | .mGR1 | .mGR2 | .mGR3 | .mGR4 | .mGTest | .mIdle => false

/-- The operation that a main-loop phase selects (R95), the innermost where operations nest. -/
def Mpc.operation : Mpc → Instr
  | .mSnapEnter => .critEnter
  | .mSnapW => .qSnapshot
  | .mSnapR => .qSnapshot
  | .mSnapExit => .critExit
  | .mDecide => .txDecide
  | .mDrain => .qDrain
  | .mSubmit => .txSubmit
  | .mGR1 => .clkRead .M
  | .mGR2 => .clkRead .M
  | .mGR3 => .clkRead .M
  | .mGR4 => .clkRead .M
  | .mGTest => .guardStep
  | .mHaltCnt => .guardHalt
  | .mHaltIrq => .guardHalt
  | .mHaltQ => .qReset
  | .mIdle => .mainIter

/-- The operation that a phase of the interrupt context selects, for the run's pin (R95). -/
def Ipc.operation (pin : Pin) : Ipc → Instr
  | .iIdle => .edgeIrq pin
  | .iR1 => .clkRead .I
  | .iR2 => .clkRead .I
  | .iR3 => .clkRead .I
  | .iR4 => .clkRead .I
  | .iFinish => .edgeIrq pin

/-! ### The encoder -/

/-- The word of an event-word row: its tag (`match`, R99) above its timestamp field. -/
def evwWord (tag : Word) (t : Stamp) : Word :=
  tag ||| t.setWidth 32

/-- The bytes of an instruction as they stand on the wire; none for an operation, which no bit pattern
selects (R95). -/
def encode : Instr → Option (List Byte)
  | .evwFall0 t => some (leBytes (evwWord 0x00000000#32 t))
  | .evwFall1 t => some (leBytes (evwWord 0x20000000#32 t))
  | .evwFall2 t => some (leBytes (evwWord 0x40000000#32 t))
  | .evwFall3 t => some (leBytes (evwWord 0x60000000#32 t))
  | .evwRise0 t => some (leBytes (evwWord 0x80000000#32 t))
  | .evwRise1 t => some (leBytes (evwWord 0xA0000000#32 t))
  | .evwRise2 t => some (leBytes (evwWord 0xC0000000#32 t))
  | .evwRise3 t => some (leBytes (evwWord 0xE0000000#32 t))
  | .pkt ws => some (packetBytes ws)
  | .cntTick => none
  | .clkRead _ => none
  | .evPack _ _ _ => none
  | .evUnpack _ => none
  | .edgeIrq _ => none
  | .qPush _ => none
  | .critEnter => none
  | .critExit => none
  | .qSnapshot => none
  | .qDrain => none
  | .qReset => none
  | .txDecide => none
  | .txSerialize _ => none
  | .txSubmit => none
  | .txStep => none
  | .guardStep => none
  | .guardHalt => none
  | .mainIter => none
  | .sysReset => none

end Sys2Proof
end

