-- ==== Sys2Proof/Machine/State.lean ====
section
/-! DEFINITION. Machine/State.lean: the state of the block (10_state.md), the environment's inputs and the
receiver's ghost state beside it, the reasons a step can stop, and the state after reset (R40).
Plain data throughout. -/

namespace Sys2Proof.Machine

/-- The working registers of one `CLK.READ` (R30): `X.h1`, `X.l`, `X.h2` and the result `X.t`. -/
structure ClkRegs where
  h1 : Half
  l : Half
  h2 : Half
  t : Word
  deriving DecidableEq, Repr, Inhabited

/-- The working registers of the main loop, `M.*` (R30). -/
structure MainRegs where
  clk : ClkRegs
  w : Word
  r : Word
  avail : Word
  now : Word
  n : Count
  k : Count
  deriving DecidableEq, Repr, Inhabited

/-- The working registers of the interrupt context, `I.*` (R30). -/
structure IrqRegs where
  clk : ClkRegs
  pin : Pin
  ch : Channel
  edge : Bit
  word : Word
  next : Word
  r : Word
  ok : Bool
  deriving DecidableEq, Repr, Inhabited

/-- The two storage spaces (R60): `QMEM`, slot number and event word, and `PKT`, byte number and byte.
Each lists the places written so far, by rising address; an unlisted place has no value (log 5). -/
structure Memory where
  qmem : List (Nat × Word)
  pkt : List Host.Cell
  deriving DecidableEq, Repr, Inhabited

/-- The environment (R35, R36, R42): the parameters of the step relation and the inputs the collaborators
supply. Not state of the block; no operation of the block writes `pinMap` or `moves`.
`pinMap` is `CHAN_OF_PIN` (R143). `moves` are the moves of the agents still to come, `levels`, `walls` and
`answers` the draws still to come (R98); where such a list is empty the input is a free value, `drawn` being
the number of free values used so far (log 2). `pendq` is `PENDQ` of the reference interrupt source (R249). -/
structure Env where
  pinMap : List (Pin × Channel)
  moves : List Move
  levels : List Bit
  walls : List Word
  answers : List Answer
  drawn : Nat
  pendq : List Pin
  deriving DecidableEq, Repr, Inhabited

/-- Ghost state of the receiver of `WIRE` (log 4): how many packets it has taken, the words it has cut from
them and not yet decoded, and the events it has decoded (R92, R94, R266). No operation of the block reads it. -/
structure HostSide where
  taken : Nat
  inbox : List Word
  events : List Event
  deriving DecidableEq, Repr, Inhabited

end Sys2Proof.Machine

namespace Sys2Proof.Machine

/-- The state of the machine. Each field is named after the spec's register: `CNT_LO`, `CNT_HI`, `CNT_RUN`
(R20 to R22), `QMEM` and `PKT` in `mem` (R23, R29), `WRITE_INDEX`, `READ_INDEX` (R24, R25), `IRQ_SRC_EN`,
`IRQ_MASK` (R26, R27), `LAST_SENT` (R28), `PKT_LEN` (R29), `M.*`, `I.*` (R30), `MPC` (R33), `IPC` (R34) and the
ghost list `WIRE` (R37). `env` and `host` stand outside the block. -/
structure State where
  cntLo : Half
  cntHi : Half
  cntRun : Bool
  mem : Memory
  writeIndex : Word
  readIndex : Word
  irqSrcEn : Bool
  irqMask : Bool
  lastSent : Word
  pktLen : Nat
  m : MainRegs
  i : IrqRegs
  mpc : Mpc
  ipc : Ipc
  wire : List (List Byte)
  env : Env
  host : HostSide
  deriving DecidableEq, Repr, Inhabited

/-- The faults. The block raises none of its own (R240); each of these is the model's treatment of a read the
spec says no run performs. -/
inductive Fault where
  /-- `Q.DRAIN` reads a slot of `QMEM` that nothing has written (R169, U16: "a model that reads one should
  `fault`"). Safe: the machine stops where the device would read an unspecified word. -/
  | slotUnwritten (slot : Nat)
  /-- `TX.SUBMIT` reads a byte of the packet that nothing has written or that `PKT` does not have (R40, R60, U16).
  Safe. -/
  | pktUnwritten (len : Nat)
  /-- `TX.SERIALIZE` writes past byte 63 of `PKT` (R60 (b): the address does not exist). Safe. -/
  | pktRange (offset : Nat)
  deriving DecidableEq, Repr

/-- The refusals: what the step relation has no step for. -/
inductive Refusal where
  /-- The instruction has no meaning in this model yet. Raised by `exec`'s own arms only. Safe. -/
  | notModelled (mnemonic : String)
  /-- The operation is not one of the steps R35 enables in this state: another phase, another context, an
  entry while masked or disabled, a stopped counter, nothing for the receiver to take (U20). Raised by every
  gated meaning and by `step` for a line of the trace that is not legal (R98). Safe: the spec has no such step. -/
  | notEnabled
  /-- The receiver is handed bytes or words that are no packet of the block (R97 (b): "what a host does with
  such a packet is outside the block"; U26). Raised by the meaning of `PKT` and by the receiver's move. Safe. -/
  | notAPacket
  deriving DecidableEq, Repr

/-- The three outcomes of an operation. -/
abbrev Result := Host.Outcome State Fault Refusal

/-- Working registers of a clock read at reset: unspecified by R40. DESIGN CHOICE (log 1): zero. -/
def ClkRegs.reset : ClkRegs := { h1 := 0#16, l := 0#16, h2 := 0#16, t := 0#32 }

/-- `M.*` at reset: unspecified by R40. DESIGN CHOICE (log 1): zero. -/
def MainRegs.reset : MainRegs :=
  { clk := ClkRegs.reset, w := 0#32, r := 0#32, avail := 0#32, now := 0#32, n := 0#5, k := 0#5 }

/-- `I.*` at reset: unspecified by R40. DESIGN CHOICE (log 1): zero. -/
def IrqRegs.reset : IrqRegs :=
  { clk := ClkRegs.reset, pin := 0, ch := 0#2, edge := 0#1, word := 0#32, next := 0#32, r := 0#32, ok := false }

/-- `QMEM` and `PKT` at reset: contents unspecified (R40), so nothing is listed (log 5). -/
def Memory.reset : Memory := { qmem := [], pkt := [] }

/-- The environment at reset: no trace is placed, no free value is used up, `PENDQ` is empty (R249), and the
pin map is the machine's (log 2, log 3). -/
def Env.reset : Env :=
  { pinMap := Config.chanOfPin, moves := [], levels := [], walls := [], answers := [], drawn := 0, pendq := [] }

/-- The receiver at reset has taken nothing. DESIGN CHOICE (log 4). -/
def HostSide.reset : HostSide := { taken := 0, inbox := [], events := [] }

/-- The state after reset (R40, R280). -/
def State.reset : State :=
  { cntLo := 0#16
    cntHi := 0#16
    cntRun := true
    mem := Memory.reset
    writeIndex := 0#32
    readIndex := 0#32
    irqSrcEn := true
    irqMask := false
    lastSent := 0#32
    pktLen := 0
    m := MainRegs.reset
    i := IrqRegs.reset
    mpc := .mSnapEnter
    ipc := .iIdle
    wire := []
    env := Env.reset
    host := HostSide.reset }

end Sys2Proof.Machine
end

