-- ==== Sys2Proof/Machine/Operands.lean ====
section
/-! DEFINITION. Machine/Operands.lean: where an operation's operands come from. Slots of the queue (R61), the
extended clock value (R39), the occupancy of the queue (R41), the working registers by context (R30), the pin
map (R143), and the draws from the environment (R8, R36). -/

namespace Sys2Proof.Machine

/-- `slot(i) = i mod C` (R61): "bitmask since C is a power of two". -/
def slot (i : Word) : Nat :=
  (i &&& BitVec.ofNat 32 (Config.queueCapacity - 1)).toNat

/-- `EXT(hi, lo)` (R39). -/
def ext (hi lo : Half) : Word :=
  (hi.setWidth 32 <<< 16) ||| lo.setWidth 32

/-- The extended clock value at this instant, `T(s)` of R126: used to state laws, read by no operation (R39). -/
def State.clock (s : State) : Word :=
  ext s.cntHi s.cntLo

/-- `(WRITE_INDEX - READ_INDEX) mod 2^32` (R41): the number of stored, undrained events. -/
def State.occupancy (s : State) : Word :=
  s.writeIndex - s.readIndex

/-- The slot of the `j`-th stored event, oldest first: `(READ_INDEX + j) mod C` (R41). -/
def State.slotAt (s : State) (j : Nat) : Nat :=
  slot (s.readIndex + BitVec.ofNat 32 j)

/-- The clock-read registers of a context (R30). -/
def State.clkRegs (s : State) : Ctx → ClkRegs
  | .M => s.m.clk
  | .I => s.i.clk

/-- The step of `CLK.READ` a context is at, if it is at one. The main loop is at none while an Edge Detector
run is in progress (R35). -/
def State.clkPhase (s : State) : Ctx → Option ClkPhase
  | .M => if s.ipc = .iIdle then s.mpc.clkPhase else none
  | .I => s.ipc.clkPhase

/-- `CHAN_OF_PIN(p)` (R143): the first pair of the map for `p`, or undefined. -/
def chanOfPin : List (Pin × Channel) → Pin → Option Channel
  | [], _ => none
  | (q, c) :: rest, p => if p = q then some c else chanOfPin rest p

/-- `draw PIN_LEVEL(p)` (R145): the next level of the trace, or a free value (log 2). -/
def Env.level (e : Env) (p : Pin) : Bit :=
  match e.levels with
  | b :: _ => b
  | [] => Config.freeLevel e.drawn p

/-- The environment after a level is drawn. -/
def Env.afterLevel (e : Env) : Env :=
  match e.levels with
  | _ :: rest => { e with levels := rest }
  | [] => { e with drawn := e.drawn + 1 }

/-- `draw WALL_MS` (R191): the next wall-clock value of the trace, or a free value (log 2, log 6). -/
def Env.wall (e : Env) : Word :=
  match e.walls with
  | v :: _ => v
  | [] => Config.freeWall e.drawn

/-- The environment after the wall clock is drawn. -/
def Env.afterWall (e : Env) : Env :=
  match e.walls with
  | _ :: rest => { e with walls := rest }
  | [] => { e with drawn := e.drawn + 1 }

/-- The transport's answer to a `send` (R196): the next of the trace, or a free value (log 2). -/
def Env.answer (e : Env) : Answer :=
  match e.answers with
  | a :: _ => a
  | [] => Config.freeAnswer e.drawn

/-- The environment after an answer is drawn. -/
def Env.afterAnswer (e : Env) : Env :=
  match e.answers with
  | _ :: rest => { e with answers := rest }
  | [] => { e with drawn := e.drawn + 1 }

end Sys2Proof.Machine
end

