-- ==== Sys2Proof/Machine/Flags.lean ====
section
/-! DEFINITION. Machine/Flags.lean: the block has no condition codes (R32). Its flag-like values are the
comparisons below: the bounds check of a push, the branch of a clock read, the flush decision, the range test,
and the predicates empty, full, capturing and halted. -/

namespace Sys2Proof.Machine

/-- The bounds check of `Q.PUSH` (R160): `(next - r) mod 2^32 <= C`. -/
def pushFits (next r : Word) : Bool :=
  decide ((next - r).toNat ≤ Config.queueCapacity)

/-- Branch A of `CLK.READ` (R123): the two reads of the high counter agree. -/
def sameEpoch (h1 h2 : Half) : Bool :=
  decide (h1 = h2)

/-- The size trigger of the flush (R191): `available >= CHUNK_SIZE`. -/
def sizeTrigger (avail : Word) : Bool :=
  decide (Config.chunkSize ≤ avail.toNat)

/-- The time trigger of the flush (R191): `(now - LAST_SENT) mod 2^32 >= SEND_INTERVAL_MS`. -/
def timeTrigger (now lastSent : Word) : Bool :=
  decide (Config.sendIntervalMs ≤ (now - lastSent).toNat)

/-- `to_send` of the decision (R191, R192): `min(CHUNK_SIZE, available)` on a flush, else 0. -/
def toSend (avail now lastSent : Word) : Nat :=
  if sizeTrigger avail || timeTrigger now lastSent then min Config.chunkSize avail.toNat else 0

/-- The range test (R221): an unsigned comparison of the full 32-bit result. -/
def rangeReached (t : Word) : Bool :=
  decide (Config.rangeLimit ≤ t.toNat)

/-- Empty (R173). -/
def State.queueEmpty (s : State) : Bool :=
  decide (s.writeIndex = s.readIndex)

/-- Full (R173). -/
def State.queueFull (s : State) : Bool :=
  decide (s.occupancy.toNat = Config.queueCapacity)

/-- Capturing (R32): clock running and interrupt sources enabled. -/
def State.capturing (s : State) : Bool :=
  s.cntRun && s.irqSrcEn

/-- Halted (R32): clock stopped, interrupt sources disabled, both cursors 0. -/
def State.halted (s : State) : Bool :=
  !s.cntRun && !s.irqSrcEn && decide (s.writeIndex = 0#32) && decide (s.readIndex = 0#32)

end Sys2Proof.Machine
end

