-- ==== Sys2Proof/Machine/Ops.lean ====
section
/-! DEFINITION. Machine/Ops.lean: the operations the meanings share. The two storage spaces (R60), the steps of
a clock read (R123), interrupt entry and return (R143, R251, R252), the push (R160), serialization (R194), and
the one step of each main-loop phase (R33) and of each phase of the interrupt context (R34). -/

namespace Sys2Proof.Machine

/-! ### Storage -/

/-- The value listed at an address. -/
def cellRead {w : Nat} : List (Nat × BitVec w) → Nat → Option (BitVec w)
  | [], _ => none
  | (a, v) :: rest, x => if x = a then some v else cellRead rest x

/-- The list with the value at an address, addresses kept rising. -/
def cellWrite {w : Nat} : List (Nat × BitVec w) → Nat → BitVec w → List (Nat × BitVec w)
  | [], x, v => [(x, v)]
  | (a, u) :: rest, x, v =>
    if x < a then (x, v) :: (a, u) :: rest
    else if x = a then (x, v) :: rest
    else (a, u) :: cellWrite rest x v

/-- All listed addresses are at least `lo`, below `hi`, and strictly rising. -/
def cellsWf {w : Nat} (hi : Nat) : Nat → List (Nat × BitVec w) → Bool
  | _, [] => true
  | lo, (a, _) :: rest => decide (lo ≤ a) && decide (a < hi) && cellsWf hi (a + 1) rest

/-- The canonical form of memory: in each space addresses strictly rising and inside the space (R60). -/
def Memory.wf (m : Memory) : Bool :=
  cellsWf Config.queueCapacity 0 m.qmem && cellsWf Config.pktMaxBytes 0 m.pkt

/-- `MemRead(s, 4)` (R8): the word in a slot of `QMEM`, or none where nothing has written it. -/
def Memory.readSlot (m : Memory) (a : Nat) : Option Word :=
  cellRead m.qmem a

/-- `MemWrite(s, 4, v)` (R8). -/
def Memory.writeSlot (m : Memory) (a : Nat) (v : Word) : Memory :=
  { m with qmem := cellWrite m.qmem a v }

/-- `PKT[j]` (R8): none where nothing has written it or `PKT` has no byte `j` (R60). -/
def Memory.readByte (m : Memory) (j : Nat) : Option Byte :=
  if j < Config.pktMaxBytes then cellRead m.pkt j else none

/-- `PKT[j] <- b` (R8). -/
def Memory.writeByte (m : Memory) (j : Nat) (b : Byte) : Memory :=
  { m with pkt := cellWrite m.pkt j b }

/-- The bytes of `PKT` from `j` on, `n` of them, or none where one cannot be read. -/
def Memory.readBytes (m : Memory) : Nat → Nat → Option (List Byte)
  | _, 0 => some []
  | j, n + 1 =>
    match m.readByte j, m.readBytes (j + 1) n with
    | some b, some bs => some (b :: bs)
    | _, _ => none

/-- Bytes written to `PKT` from `j` on. -/
def Memory.writeBytes (m : Memory) : Nat → List Byte → Memory
  | _, [] => m
  | j, b :: bs => (m.writeByte j b).writeBytes (j + 1) bs

/-! ### The clock -/

/-- The counters after one tick (R120): the low counter's return to 0 and the high counter's advance are one
step (decision D4, log 10). -/
def tickCounters (s : State) : State :=
  if s.cntLo = 0xFFFF#16 then { s with cntLo := 0#16, cntHi := s.cntHi + 1#16 }
  else { s with cntLo := s.cntLo + 1#16 }

/-- One step of `CLK.READ` on a context's registers (R123). -/
def clkStep (hi lo : Half) (c : ClkRegs) : ClkPhase → ClkRegs
  | .r1 => { c with h1 := hi }
  | .r2 => { c with l := lo }
  | .r3 => if sameEpoch c.h1 hi then { c with h2 := hi, t := ext c.h1 c.l } else { c with h2 := hi }
  | .r4 => { c with l := lo, t := ext c.h2 lo }

/-- The step of `CLK.READ` after this one, or none where the read is done (R123). -/
def clkNext (hi : Half) (c : ClkRegs) : ClkPhase → Option ClkPhase
  | .r1 => some .r2
  | .r2 => some .r3
  | .r3 => if sameEpoch c.h1 hi then none else some .r4
  | .r4 => none

/-- One step of the main loop's `CLK.READ` (R33, R123): it writes `M.*` only (R124). -/
def clkStepM (p : ClkPhase) (s : State) : State :=
  { s with
    m := { s.m with clk := clkStep s.cntHi s.cntLo s.m.clk p }
    mpc := Mpc.ofClk (clkNext s.cntHi s.m.clk p) }

/-- One step of the interrupt context's `CLK.READ` (R34, R123): it writes `I.*` only (R124). -/
def clkStepI (p : ClkPhase) (s : State) : State :=
  { s with
    i := { s.i with clk := clkStep s.cntHi s.cntLo s.i.clk p }
    ipc := Ipc.ofClk (clkNext s.cntHi s.i.clk p) }

/-! ### The edge interrupt: entry, push, return -/

/-- The invocation condition (R246, R35 (d)). -/
def State.mayEnter (s : State) : Bool :=
  s.irqSrcEn && !s.irqMask && decide (s.ipc = .iIdle)

/-- TAKING THE INTERRUPT (R143, R251): the pin is mapped; an unmonitored one has no effect at all; else `I.pin`
and `I.ch` are set and the run begins. Nothing is saved, and neither `IRQ_MASK` nor `IRQ_SRC_EN` changes. -/
def enterIrq (p : Pin) (s : State) : State :=
  match chanOfPin s.env.pinMap p with
  | none => s
  | some c => { s with i := { s.i with pin := p, ch := c }, ipc := .iR1 }

/-- RETURNING FROM THE INTERRUPT (R147, R252): `IPC <- I_IDLE`; nothing was saved and nothing is restored. -/
def returnIrq (s : State) : State :=
  { s with ipc := .iIdle }

/-- `Q.PUSH` (R160): the slot is written, then the cursor (R161); a full queue rejects and changes neither. -/
def pushWord (w : Word) (s : State) : State :=
  if pushFits (s.writeIndex + 1#32) s.readIndex then
    { s with
      mem := s.mem.writeSlot (slot s.writeIndex) w
      writeIndex := s.writeIndex + 1#32
      i := { s.i with next := s.writeIndex + 1#32, r := s.readIndex, ok := true } }
  else
    { s with i := { s.i with next := s.writeIndex + 1#32, r := s.readIndex, ok := false } }

/-- The word an Edge Detector run packs (R145, R146), with the level it draws. -/
def edgeWord (s : State) : Word :=
  packEvent (s.env.level s.i.pin) s.i.ch s.i.clk.t

/-- Sample and pack, the first half of `I_FINISH` (R145, R146). -/
def samplePack (s : State) : State :=
  { s with
    i := { s.i with edge := s.env.level s.i.pin, word := edgeWord s }
    env := s.env.afterLevel }

/-- `I_FINISH` (R145 to R147, R149): sample, pack, push, return, as one step (log 16). -/
def edgeFinish (s : State) : State :=
  returnIrq (pushWord (edgeWord s) (samplePack s))

/-! ### The main loop's steps -/

/-- `M_SNAP_ENTER` (R162). -/
def enterCritical (s : State) : State :=
  { s with irqMask := true, mpc := .mSnapW }

/-- `M_SNAP_W` (R164). -/
def snapWrite (s : State) : State :=
  { s with m := { s.m with w := s.writeIndex }, mpc := .mSnapR }

/-- `M_SNAP_R` (R164). -/
def snapRead (s : State) : State :=
  { s with m := { s.m with r := s.readIndex }, mpc := .mSnapExit }

/-- `M_SNAP_EXIT` (R163, R164): `IRQ_SRC_EN` is not written (R296). -/
def exitCritical (s : State) : State :=
  { s with irqMask := false, m := { s.m with avail := s.m.w - s.m.r }, mpc := .mDecide }

/-- `M_DECIDE` (R191, R192): the wall clock is drawn once, and the flush is decided. -/
def decideFlush (s : State) : State :=
  { s with
    m := { s.m with
      now := s.env.wall
      n := BitVec.ofNat 5 (toSend s.m.avail s.env.wall s.lastSent)
      k := 0#5 }
    pktLen := 0
    mpc := if 0 < toSend s.m.avail s.env.wall s.lastSent then .mDrain else .mGR1
    env := s.env.afterWall }

/-- `TX.SERIALIZE` (R194): the four bytes of `w` at `PKT[4*M.k]` and on. -/
def serializeWord (w : Word) (s : State) : State :=
  { s with
    mem := s.mem.writeBytes (4 * s.m.k.toNat) (leBytes w)
    pktLen := s.pktLen + 4 }

/-- The packet buffer has the four bytes at position `M.k` (R60 (b)). -/
def State.packetRoom (s : State) : Bool :=
  decide (4 * s.m.k.toNat + 4 ≤ Config.pktMaxBytes)

/-- The rest of the `M_DRAIN` step (R167): `READ_INDEX` and `M.k` advance by one (decision D14, log 14). -/
def advanceDrain (s : State) : State :=
  { s with
    readIndex := s.readIndex + 1#32
    m := { s.m with k := s.m.k + 1#5 }
    mpc := if s.m.k + 1#5 < s.m.n then .mDrain else .mSubmit }

/-- `M_DRAIN` (R167, R194): one word is read, serialized and consumed. -/
def drainStep (s : State) : Result :=
  match s.mem.readSlot (slot s.readIndex) with
  | none => .fault (.slotUnwritten (slot s.readIndex))
  | some w =>
    if s.packetRoom then .next (advanceDrain (serializeWord w s))
    else .fault (.pktRange (4 * s.m.k.toNat))

/-- The packet handed to the transport, `PKT[0 .. PKT_LEN-1]` (R196). -/
def State.packet (s : State) : Option (List Byte) :=
  s.mem.readBytes 0 s.pktLen

/-- The effect of an answer of the transport (R196, R199). -/
def answerSend (bytes : List Byte) (s : State) : State :=
  match s.env.answer with
  | .accepted =>
    { s with
      wire := s.wire ++ [bytes]
      lastSent := s.m.now
      mpc := .mGR1
      env := s.env.afterAnswer }
  | .busy => { s with mpc := .mSubmit, env := s.env.afterAnswer }

/-- `M_SUBMIT` (R196). -/
def submitStep (s : State) : Result :=
  match s.packet with
  | none => .fault (.pktUnwritten s.pktLen)
  | some bytes => .next (answerSend bytes s)

/-- `M_G_TEST` (R221). -/
def rangeTest (s : State) : State :=
  { s with mpc := if rangeReached s.m.clk.t then .mHaltCnt else .mIdle }

/-- `M_HALT_CNT` (R223). -/
def haltCounters (s : State) : State :=
  { s with cntRun := false, mpc := .mHaltIrq }

/-- `M_HALT_IRQ` (R224); the reference interrupt source empties `PENDQ` here (R249, log 20). -/
def haltInterrupts (s : State) : State :=
  { s with irqSrcEn := false, mpc := .mHaltQ, env := { s.env with pendq := [] } }

/-- `M_HALT_Q` (R170, R225): both cursors to 0 in one step; `QMEM` is not cleared. -/
def resetCursors (s : State) : State :=
  { s with writeIndex := 0#32, readIndex := 0#32, mpc := .mIdle }

/-- `M_IDLE` (R227). -/
def idleStep (s : State) : State :=
  { s with mpc := .mSnapEnter }

/-- The main loop's next step (R33). -/
def mainStep (s : State) : Result :=
  match s.mpc with
  | .mSnapEnter => .next (enterCritical s)
  | .mSnapW => .next (snapWrite s)
  | .mSnapR => .next (snapRead s)
  | .mSnapExit => .next (exitCritical s)
  | .mDecide => .next (decideFlush s)
  | .mDrain => drainStep s
  | .mSubmit => submitStep s
  | .mGR1 => .next (clkStepM .r1 s)
  | .mGR2 => .next (clkStepM .r2 s)
  | .mGR3 => .next (clkStepM .r3 s)
  | .mGR4 => .next (clkStepM .r4 s)
  | .mGTest => .next (rangeTest s)
  | .mHaltCnt => .next (haltCounters s)
  | .mHaltIrq => .next (haltInterrupts s)
  | .mHaltQ => .next (resetCursors s)
  | .mIdle => .next (idleStep s)

/-- The interrupt context's next step (R34) for a run in progress; at `I_IDLE` no run is. -/
def irqStep (s : State) : Result :=
  match s.ipc with
  | .iIdle => .refused .notEnabled
  | .iR1 => .next (clkStepI .r1 s)
  | .iR2 => .next (clkStepI .r2 s)
  | .iR3 => .next (clkStepI .r3 s)
  | .iR4 => .next (clkStepI .r4 s)
  | .iFinish => .next (edgeFinish s)

/-! ### Gates -/

/-- The main loop may step, and its phase is one of those that select the operation (R35 (c), R95). -/
def State.mainAt (s : State) (sel : Mpc → Bool) : Bool :=
  decide (s.ipc = .iIdle) && sel s.mpc

/-- An operation of the main loop in the phases that select it; refused elsewhere (R35, U20, log 8). -/
def whenMain (sel : Mpc → Bool) (s : State) (act : Result) : Result :=
  if s.mainAt sel then act else .refused .notEnabled

/-- The receiver notes an event it has decoded (log 4). -/
def hostEvent (e : Event) (s : State) : State :=
  { s with host := { s.host with events := s.host.events ++ [e] } }

end Sys2Proof.Machine
end

