-- ==== Sys2Proof/Machine/Clock.lean ====
section
/-! DEFINITION. Machine/Clock.lean: `CNT.TICK` and `CLK.READ` (40_clock.md). -/

namespace Sys2Proof.Machine

/-- `CNT.TICK` (R120): enabled only while the counters run (R121, R35 (a)). -/
def execCntTick (s : State) : Result :=
  if s.cntRun then .next (tickCounters s) else .refused .notEnabled

/-- `CLK.READ` (R123): the next of its three or four steps in the given context. -/
def execClkRead (x : Ctx) (s : State) : Result :=
  match x, s.clkPhase x with
  | .M, some p => .next (clkStepM p s)
  | .I, some p => .next (clkStepI p s)
  | _, none => .refused .notEnabled

end Sys2Proof.Machine
end

