-- ==== Sys2Proof/Machine/EdgeDetector.lean ====
section
/-! DEFINITION. Machine/EdgeDetector.lean: `EV.PACK`, `EV.UNPACK` and `EDGE.IRQ` (41_edge_detector.md). -/

namespace Sys2Proof.Machine

/-- `EV.PACK` (R141, R146): total; the word goes to `I.word`. -/
def execEvPack (edge : Bit) (channel : Channel) (t : Word) (s : State) : Result :=
  .next { s with i := { s.i with word := packEvent edge channel t } }

/-- `EV.UNPACK` (R142): the receiver's decoding; the block never performs it, and its state is untouched (log 4). -/
def execEvUnpack (w : Word) (s : State) : Result :=
  .next (hostEvent (unpackEvent w) s)

/-- `EDGE.IRQ` (R140) for the pin `p`. With no run in progress, the entry, where the invocation condition holds
(R246). With a run for `p` in progress, its next step (R34). A run for another pin is not entered while one is in
progress: "Not re-entrant with itself" (R35, U20). -/
def execEdgeIrq (p : Pin) (s : State) : Result :=
  if s.ipc = .iIdle then
    if s.mayEnter then .next (enterIrq p s) else .refused .notEnabled
  else if s.i.pin = p then irqStep s
  else .refused .notEnabled

end Sys2Proof.Machine
end

