-- ==== Sys2Proof/Machine/Formats.lean ====
section
/-! DEFINITION. Machine/Formats.lean: the formats of the opcode table, `EVW.*` and `PKT`. A format is data: what
is done with it is what the receiver of `WIRE` does, unpack the word (R92) and cut the packet into words (R94).
The block's own state is untouched (R266). -/

namespace Sys2Proof.Machine

/-- An event word read by the receiver (R92): it is unpacked and the event is noted (log 4). -/
def receiveWord (tag : Word) (t : Stamp) (s : State) : Result :=
  .next (hostEvent (unpackEvent (evwWord tag t)) s)

/-- `EVW.FALL0` (R99). -/
def execEvwFall0 (t : Stamp) (s : State) : Result :=
  receiveWord 0x00000000#32 t s

/-- `EVW.FALL1` (R99). -/
def execEvwFall1 (t : Stamp) (s : State) : Result :=
  receiveWord 0x20000000#32 t s

/-- `EVW.FALL2` (R99). -/
def execEvwFall2 (t : Stamp) (s : State) : Result :=
  receiveWord 0x40000000#32 t s

/-- `EVW.FALL3` (R99). -/
def execEvwFall3 (t : Stamp) (s : State) : Result :=
  receiveWord 0x60000000#32 t s

/-- `EVW.RISE0` (R99). -/
def execEvwRise0 (t : Stamp) (s : State) : Result :=
  receiveWord 0x80000000#32 t s

/-- `EVW.RISE1` (R99). -/
def execEvwRise1 (t : Stamp) (s : State) : Result :=
  receiveWord 0xA0000000#32 t s

/-- `EVW.RISE2` (R99). -/
def execEvwRise2 (t : Stamp) (s : State) : Result :=
  receiveWord 0xC0000000#32 t s

/-- `EVW.RISE3` (R99). -/
def execEvwRise3 (t : Stamp) (s : State) : Result :=
  receiveWord 0xE0000000#32 t s

/-- `PKT` (R94, R96): the receiver takes the packet and has its words, oldest first, to decode. A list that is
no packet is refused: what a host does with one "is outside the block" (R97 (b)). -/
def execPkt (ws : List Word) (s : State) : Result :=
  if packetWf ws then .next { s with host := { s.host with inbox := s.host.inbox ++ ws } }
  else .refused .notAPacket

end Sys2Proof.Machine
end

