-- ==== Sys2Proof/Machine/Guard.lean ====
section
/-! DEFINITION. Machine/Guard.lean: `GUARD.STEP`, `GUARD.HALT`, `MAIN.ITER` (44_range_guard.md). -/

namespace Sys2Proof.Machine

/-- `GUARD.STEP` (R220): the next step of the Range Guard. -/
def execGuardStep (s : State) : Result :=
  whenMain Mpc.inGuard s (mainStep s)

/-- `GUARD.HALT` (R222): the next of its three steps. -/
def execGuardHalt (s : State) : Result :=
  whenMain Mpc.inHalt s (mainStep s)

/-- `MAIN.ITER` (R226): the main loop's next step, in every phase. -/
def execMainIter (s : State) : Result :=
  whenMain (fun _ => true) s (mainStep s)

end Sys2Proof.Machine
end

