-- ==== Sys2Proof/Machine/Queue.lean ====
section
/-! DEFINITION. Machine/Queue.lean: `Q.PUSH`, `CRIT.ENTER`, `CRIT.EXIT`, `Q.SNAPSHOT`, `Q.DRAIN`, `Q.RESET`
(42_event_queue.md). -/

namespace Sys2Proof.Machine

/-- `Q.PUSH` (R160): the sole producer's, inside `I_FINISH` (R174, R95); refused from anywhere else (R297, U20). -/
def execQPush (w : Word) (s : State) : Result :=
  if s.ipc = .iFinish then .next (pushWord w s) else .refused .notEnabled

/-- `CRIT.ENTER` (R162). -/
def execCritEnter (s : State) : Result :=
  whenMain (fun p => decide (p = .mSnapEnter)) s (.next (enterCritical s))

/-- `CRIT.EXIT` (R163), together with the subtraction of R164. -/
def execCritExit (s : State) : Result :=
  whenMain (fun p => decide (p = .mSnapExit)) s (.next (exitCritical s))

/-- `Q.SNAPSHOT` (R164): the next of its four steps. -/
def execQSnapshot (s : State) : Result :=
  whenMain Mpc.inSnapshot s (mainStep s)

/-- `Q.DRAIN` (R167): one word, the consumer's only (R297, U20). -/
def execQDrain (s : State) : Result :=
  whenMain (fun p => decide (p = .mDrain)) s (drainStep s)

/-- `Q.RESET` (R170). -/
def execQReset (s : State) : Result :=
  whenMain (fun p => decide (p = .mHaltQ)) s (.next (resetCursors s))

end Sys2Proof.Machine
end

