-- ==== Sys2Proof/Machine/Reset.lean ====
section
/-! DEFINITION. Machine/Reset.lean: `SYS.RESET` (70_reset_and_hazards.md R280). -/

namespace Sys2Proof.Machine

/-- `SYS.RESET` (R280): every piece of state at the value of R40. The environment is no state of the block and
goes on as it is, but for `PENDQ`, "empty at reset" (R249, log 9). -/
def execSysReset (s : State) : Result :=
  .next { State.reset with env := { s.env with pendq := [] } }

end Sys2Proof.Machine
end

