-- ==== Sys2Proof/Machine/Transmitter.lean ====
section
/-! DEFINITION. Machine/Transmitter.lean: `TX.DECIDE`, `TX.SERIALIZE`, `TX.SUBMIT`, `TX.STEP`
(43_batch_transmitter.md). -/

namespace Sys2Proof.Machine

/-- `TX.DECIDE` (R191). -/
def execTxDecide (s : State) : Result :=
  whenMain (fun p => decide (p = .mDecide)) s (.next (decideFlush s))

/-- `TX.SERIALIZE` (R194) of the word `w` at the position `M.k`, a part of the `M_DRAIN` step; a position with
no bytes in `PKT` faults (R60 (b)). -/
def execTxSerialize (w : Word) (s : State) : Result :=
  whenMain (fun p => decide (p = .mDrain)) s
    (if s.packetRoom then .next (serializeWord w s) else .fault (.pktRange (4 * s.m.k.toNat)))

/-- `TX.SUBMIT` (R196): one call of `send`. -/
def execTxSubmit (s : State) : Result :=
  whenMain (fun p => decide (p = .mSubmit)) s (submitStep s)

/-- `TX.STEP` (R190): the next step of the Batch Transmitter. -/
def execTxStep (s : State) : Result :=
  whenMain Mpc.inTx s (mainStep s)

end Sys2Proof.Machine
end

