-- ==== Sys2Proof/Machine/Dispatch.lean ====
section
/-! DEFINITION. Machine/Dispatch.lean: one arm for each constructor of `Instr`. -/

namespace Sys2Proof.Machine

/-- The meaning of one operation or format of spec/opcode_table.json in a state. -/
def exec (i : Instr) (s : State) : Host.Outcome State Fault Refusal :=
  match i with
  | .evwFall0 t => Sys2Proof.Machine.execEvwFall0 t s
  | .evwFall1 t => Sys2Proof.Machine.execEvwFall1 t s
  | .evwFall2 t => Sys2Proof.Machine.execEvwFall2 t s
  | .evwFall3 t => Sys2Proof.Machine.execEvwFall3 t s
  | .evwRise0 t => Sys2Proof.Machine.execEvwRise0 t s
  | .evwRise1 t => Sys2Proof.Machine.execEvwRise1 t s
  | .evwRise2 t => Sys2Proof.Machine.execEvwRise2 t s
  | .evwRise3 t => Sys2Proof.Machine.execEvwRise3 t s
  | .pkt ws => Sys2Proof.Machine.execPkt ws s
  | .cntTick => Sys2Proof.Machine.execCntTick s
  | .clkRead x => Sys2Proof.Machine.execClkRead x s
  | .evPack edge channel t => Sys2Proof.Machine.execEvPack edge channel t s
  | .evUnpack w => Sys2Proof.Machine.execEvUnpack w s
  | .edgeIrq p => Sys2Proof.Machine.execEdgeIrq p s
  | .qPush w => Sys2Proof.Machine.execQPush w s
  | .critEnter => Sys2Proof.Machine.execCritEnter s
  | .critExit => Sys2Proof.Machine.execCritExit s
  | .qSnapshot => Sys2Proof.Machine.execQSnapshot s
  | .qDrain => Sys2Proof.Machine.execQDrain s
  | .qReset => Sys2Proof.Machine.execQReset s
  | .txDecide => Sys2Proof.Machine.execTxDecide s
  | .txSerialize w => Sys2Proof.Machine.execTxSerialize w s
  | .txSubmit => Sys2Proof.Machine.execTxSubmit s
  | .txStep => Sys2Proof.Machine.execTxStep s
  | .guardStep => Sys2Proof.Machine.execGuardStep s
  | .guardHalt => Sys2Proof.Machine.execGuardHalt s
  | .mainIter => Sys2Proof.Machine.execMainIter s
  | .sysReset => Sys2Proof.Machine.execSysReset s

end Sys2Proof.Machine
end

