-- ==== Sys2Proof/Machine/Schedule.lean ====
section
/-! DEFINITION. Machine/Schedule.lean: who steps next (R35), and which operation that step runs (R95).
The choice is the environment's: the next line of the trace in `State.env.moves`, or, where none is listed, a
free choice among the enabled steps (log 2). -/

namespace Sys2Proof.Machine

/-- The moves R35 enables, and those of the parties outside the block. `tick`, `istep`, `mstep` and `irq` are
(a) to (d) of R35. `reset` is external and may come at any time (R280). `transition` is of a monitored pin and
`serve` an entry for the head of `PENDQ` (R249). `host` needs a word or a packet to take (log 4). -/
def enabled (mv : Move) (s : State) : Bool :=
  match mv with
  | .tick => s.cntRun
  | .irq _ => s.mayEnter
  | .istep => decide (s.ipc ≠ .iIdle)
  | .mstep => decide (s.ipc = .iIdle)
  | .reset => true
  | .host => !s.host.inbox.isEmpty || decide (s.host.taken < s.wire.length)
  | .transition p => (chanOfPin s.env.pinMap p).isSome
  | .serve => !s.env.pendq.isEmpty && s.mayEnter

/-- The step of the context whose turn it is; exactly one of `istep` and `mstep` is enabled (R35 (b), (c)). -/
def turn (s : State) : Move :=
  if s.ipc = .iIdle then .mstep else .istep

/-- A free choice made a choice among the enabled steps: one that is not enabled is replaced by the step of the
context whose turn it is, so every enabled step can be chosen and no other is. -/
def legalChoice (mv : Move) (s : State) : Move :=
  if enabled mv s then mv else turn s

/-- The next move. -/
def nextMove (s : State) : Move :=
  match s.env.moves with
  | mv :: _ => mv
  | [] => legalChoice (Config.freeMove s.env.drawn) s

/-- The state once the next move has been taken from the environment. -/
def afterMove (s : State) : State :=
  match s.env.moves with
  | _ :: rest => { s with env := { s.env with moves := rest } }
  | [] => { s with env := { s.env with drawn := s.env.drawn + 1 } }

/-- What the receiver reads next (R92, R94): the next word it has cut from a packet, decoded by its row; where
there is none, the next packet of `WIRE`. The second component is the state once it has been read. -/
def hostFetch (s : State) : Option (Instr × State) :=
  match s.host.inbox with
  | w :: rest =>
    match decodeEvent (leBytes w) with
    | .ok (i, _) => some (i, { s with host := { s.host with inbox := rest } })
    | .error _ => none
  | [] =>
    match s.wire[s.host.taken]? with
    | none => none
    | some bs =>
      match decodePacket bs with
      | .ok i => some (i, { s with host := { s.host with taken := s.host.taken + 1 } })
      | .error _ => none

/-- The operation a move runs and the state it runs it in; none for a move that runs no operation. -/
def operationOf (mv : Move) (s : State) : Option (Instr × State) :=
  match mv with
  | .tick => some (.cntTick, s)
  | .irq p => some (.edgeIrq p, s)
  | .istep => some (s.ipc.operation s.i.pin, s)
  | .mstep => some (s.mpc.operation, s)
  | .reset => some (.sysReset, s)
  | .host => hostFetch s
  | .transition _ => none
  | .serve =>
    match s.env.pendq with
    | p :: rest => some (.edgeIrq p, { s with env := { s.env with pendq := rest } })
    | [] => none

/-- A move that runs no operation: a transition on a monitored pin, which the reference interrupt source appends
to `PENDQ` while the sources are enabled and drops while they are not (R249). Bytes on `WIRE` that are no packet
are refused. -/
def outsideMove (mv : Move) (s : State) : Result :=
  match mv with
  | .transition p =>
    if s.irqSrcEn then .next { s with env := { s.env with pendq := s.env.pendq ++ [p] } } else .next s
  | .host => .refused .notAPacket
  | .tick => .refused .notEnabled
  | .irq _ => .refused .notEnabled
  | .istep => .refused .notEnabled
  | .mstep => .refused .notEnabled
  | .reset => .refused .notEnabled
  | .serve => .refused .notEnabled

end Sys2Proof.Machine
end

