-- ==== Sys2Proof/Machine/Step.lean ====
section
/-! DEFINITION. Machine/Step.lean: one step of the interleaving (R9, R35): the environment names the next move,
and the operation that move selects is run. -/

namespace Sys2Proof.Machine

/-- One step. A line of the trace that R35 does not enable is no step of the machine and is refused (R98). -/
def step (s : State) : Host.Outcome State Fault Refusal :=
  if enabled (nextMove s) (afterMove s) then
    match operationOf (nextMove s) (afterMove s) with
    | some (i, s') => exec i s'
    | none => outsideMove (nextMove s) (afterMove s)
  else .refused .notEnabled

/-- The state with an instruction placed where `step` reads its next one, the receiver's move coming next: an
event word as the next word to decode, a packet as the next packet of `WIRE` to take (log 7). -/
def State.withFetchWord (s : State) (nbits w : Nat) : State :=
  if nbits ≤ 32 then
    { s with
      env := { s.env with moves := .host :: s.env.moves }
      host := { s.host with inbox := BitVec.ofNat 32 (w % 2 ^ nbits) :: s.host.inbox } }
  else
    { s with
      env := { s.env with moves := .host :: s.env.moves }
      wire := s.wire.take s.host.taken ++ [natBytes (nbits / 8) (w % 2 ^ nbits)]
      host := { s.host with inbox := [], taken := (s.wire.take s.host.taken).length } }

end Sys2Proof.Machine
end

