-- ==== Sys2Proof/Safety.lean ====
section
/-! DEFINITION. Safety.lean: what counts as a safe state and a safe run, in the terms the statements use. The
invariant of every reachable state, when the main loop's step completes, the stream of accepted events, the order of
timestamps, the premises of progress, which working registers are still to be read, and runs. -/

namespace Sys2Proof.Machine

/-! ### Runs -/

/-- The state after running operations one after the other, or none where one of them answers no next state. -/
def runOps : List Instr → State → Option State
  | [], s => some s
  | i :: is, s =>
    match exec i s with
    | .next t => runOps is t
    | .fault _ => none
    | .refused _ => none

/-- `n` consecutive ticks of the clock source. -/
def ticks (n : Nat) : List Instr :=
  List.replicate n .cntTick

/-- A result seen through a view of the state. -/
def viewResult (f : State → State) : Result → Result
  | .next s => .next (f s)
  | .fault r => .fault r
  | .refused r => .refused r

/-! ### The main loop's table -/

/-- The main-loop phase that follows, by the table of R33, for the draws this state would make. -/
def State.phaseAfter (s : State) : Mpc :=
  match s.mpc with
  | .mSnapEnter => .mSnapW
  | .mSnapW => .mSnapR
  | .mSnapR => .mSnapExit
  | .mSnapExit => .mDecide
  | .mDecide => if 0 < toSend s.m.avail s.env.wall s.lastSent then .mDrain else .mGR1
  | .mDrain => if s.m.k + 1#5 < s.m.n then .mDrain else .mSubmit
  | .mSubmit =>
    match s.env.answer with
    | .accepted => .mGR1
    | .busy => .mSubmit
  | .mGR1 => .mGR2
  | .mGR2 => .mGR3
  | .mGR3 => if s.m.clk.h1 = s.cntHi then .mGTest else .mGR4
  | .mGR4 => .mGTest
  | .mGTest => if Config.rangeLimit ≤ s.m.clk.t.toNat then .mHaltCnt else .mIdle
  | .mHaltCnt => .mHaltIrq
  | .mHaltIrq => .mHaltQ
  | .mHaltQ => .mIdle
  | .mIdle => .mSnapEnter

/-- What the main loop's next step reads is there: the slot to drain and room in `PKT` for it, or the packet to
send. R169 and R194 say every run meets this; `Inv` implies it. -/
def State.mainReady (s : State) : Prop :=
  (s.mpc = .mDrain → (s.mem.readSlot (slot s.readIndex)).isSome = true ∧ s.m.k.toNat < Config.chunkSize) ∧
  (s.mpc = .mSubmit → s.packet.isSome = true)

/-- The steps left in an Edge Detector run (R148). -/
def runStepsLeft : Ipc → Nat
  | .iIdle => 0
  | .iFinish => 1
  | .iR4 => 2
  | .iR3 => 3
  | .iR2 => 4
  | .iR1 => 5

/-! ### The invariant -/

/-- The invariant of the block: it holds after reset and every step keeps it. -/
structure Inv (s : State) : Prop where
  /-- Memory is in canonical form (R60). -/
  memWf : s.mem.wf = true
  /-- The occupancy is in `[0, C]` (R41, R171). -/
  occupancyBound : s.occupancy.toNat ≤ Config.queueCapacity
  /-- Every stored, undrained event is in its slot (R41, R169). -/
  committed : ∀ j, j < s.occupancy.toNat → (s.mem.readSlot (s.slotAt j)).isSome = true
  /-- `IRQ_MASK = 1` exactly inside the critical section (R71). -/
  maskPhase : s.irqMask = s.mpc.inCritical
  /-- A run is in progress only outside the critical section and with the sources enabled (R71, R224). -/
  runUnmasked : s.ipc ≠ .iIdle → s.irqMask = false ∧ s.irqSrcEn = true
  /-- `M.w` is the cursor itself until the critical section ends (R71, R164). -/
  snapWrite : s.mpc = .mSnapR ∨ s.mpc = .mSnapExit → s.m.w = s.writeIndex
  /-- `M.r` is the cursor itself until the critical section ends (R164). -/
  snapRead : s.mpc = .mSnapExit → s.m.r = s.readIndex
  /-- The snapshot never overestimates (R165). -/
  availBound : s.mpc = .mDecide → s.m.avail.toNat ≤ s.occupancy.toNat
  /-- In a drain: the words still to drain are stored, and the packet so far has four bytes a word (R167, R194). -/
  drainCount : s.mpc = .mDrain →
    s.m.k.toNat < s.m.n.toNat ∧ s.m.n.toNat ≤ Config.chunkSize ∧
    s.m.n.toNat ≤ s.m.k.toNat + s.occupancy.toNat ∧ s.pktLen = 4 * s.m.k.toNat
  /-- A packet submitted has 1 to 16 words (R97 (b), R192, R194). -/
  submitCount : s.mpc = .mSubmit →
    1 ≤ s.m.n.toNat ∧ s.m.n.toNat ≤ Config.chunkSize ∧ s.pktLen = 4 * s.m.n.toNat
  /-- The bytes of the packet are written (R194). -/
  packetWritten : s.mpc = .mDrain ∨ s.mpc = .mSubmit → ∀ j, j < s.pktLen → (s.mem.readByte j).isSome = true
  /-- Past `M_HALT_CNT` the counters are stopped (R223). -/
  haltStops : s.mpc = .mHaltIrq ∨ s.mpc = .mHaltQ → s.cntRun = false
  /-- Past `M_HALT_IRQ` the sources are disabled (R224). -/
  haltDisables : s.mpc = .mHaltQ → s.irqSrcEn = false
  /-- Disabled sources mean the halt is done or at its last step (R224, R225, R228). -/
  disabledHalts : s.irqSrcEn = false →
    s.cntRun = false ∧ s.mpc ≠ .mDrain ∧ s.mpc ≠ .mSubmit ∧
    (s.mpc = .mHaltQ ∨ (s.writeIndex = 0#32 ∧ s.readIndex = 0#32))
  /-- Every packet sent is 1 to 16 whole words (R94, R97 (b)). -/
  wirePackets : ∀ p, p ∈ s.wire → ∃ k, 1 ≤ k ∧ k ≤ Config.chunkSize ∧ p.length = 4 * k

/-! ### The stream of accepted events -/

/-- The words stored and not yet drained, oldest first (R41). -/
def State.queued (s : State) : List Word :=
  (List.range s.occupancy.toNat).map (fun j => (s.mem.readSlot (s.slotAt j)).getD 0#32)

/-- The words of a byte string of whole words. -/
def wordsOf (bytes : List Byte) : List Word :=
  (cutWords bytes).getD []

/-- The words drained into the packet that is not yet accepted. -/
def State.inFlight (s : State) : List Word :=
  if s.mpc = .mDrain ∨ s.mpc = .mSubmit then wordsOf (s.packet.getD []) else []

/-- The words the transport has accepted, in order: `WIRE` cut into little-endian words (R197). -/
def State.sent (s : State) : List Word :=
  s.wire.flatMap wordsOf

/-- The accepted events in queue order: sent, then in the packet, then in the queue (R168, R197). -/
def State.stream (s : State) : List Word :=
  s.sent ++ s.inFlight ++ s.queued

/-- The timestamp field of an event word (R92). -/
def stampOf (w : Word) : Nat :=
  (unpackEvent w).timestamp.toNat

/-- Timestamps are in queue order and not above the clock, and the clock read of a run in progress cannot give a
value below one already in the stream (R126, R151). -/
structure StampsInOrder (s : State) : Prop where
  ordered : s.stream.Pairwise (fun a b => stampOf a ≤ stampOf b)
  pastClock : ∀ w, w ∈ s.stream → stampOf w ≤ s.clock.toNat
  atR2 : s.ipc = .iR2 → s.i.clk.h1.toNat ≤ s.cntHi.toNat ∧
    ∀ w, w ∈ s.stream → stampOf w < (s.i.clk.h1.toNat + 1) * 65536
  atR3 : s.ipc = .iR3 → s.i.clk.h1.toNat ≤ s.cntHi.toNat ∧
    (∀ w, w ∈ s.stream → stampOf w < (s.i.clk.h1.toNat + 1) * 65536) ∧
    (s.i.clk.h1 = s.cntHi → (ext s.i.clk.h1 s.i.clk.l).toNat ≤ s.clock.toNat ∧
      ∀ w, w ∈ s.stream → stampOf w ≤ (ext s.i.clk.h1 s.i.clk.l).toNat)
  atR4 : s.ipc = .iR4 → s.i.clk.h2.toNat ≤ s.cntHi.toNat ∧
    ∀ w, w ∈ s.stream → stampOf w ≤ s.i.clk.h2.toNat * 65536
  atFinish : s.ipc = .iFinish → s.i.clk.t.toNat ≤ s.clock.toNat ∧
    ∀ w, w ∈ s.stream → stampOf w ≤ s.i.clk.t.toNat

/-! ### Runs without end, and the premises of progress (R300)

The block promises no progress. "Every accepted event eventually reaches `WIRE`" needs the three premises R300 lists,
each named here, and two that the model adds to them (log 27). -/

/-- A run without end: each state takes a step, after which the environment may place other moves and draws (R35, R42);
nothing else changes between two steps. -/
def IsRun (r : Nat → State) : Prop :=
  ∀ k, ∃ t, step (r k) = .next t ∧ ∃ moves levels walls answers,
    r (k + 1) = { t with env := { t.env with moves := moves, levels := levels, walls := walls, answers := answers } }

/-- Again and again, for ever. -/
def InfinitelyOften (P : Nat → Prop) : Prop :=
  ∀ n, ∃ k, n ≤ k ∧ P k

/-- The main loop takes the next step, in phase `p`. -/
def State.mainTakes (s : State) (p : Mpc) : Prop :=
  nextMove s = .mstep ∧ s.mpc = p

/-- R300, first premise: "the main loop keeps being scheduled (Edge Detector runs do not occupy the processor for
ever)". -/
def MainLoopKeepsBeingScheduled (r : Nat → State) : Prop :=
  InfinitelyOften (fun k => nextMove (r k) = .mstep)

/-- R300, second premise: "the transport eventually answers `accepted` to a packet it is offered again and again". -/
def TransportAtLastAccepts (r : Nat → State) : Prop :=
  InfinitelyOften (fun k => (r k).mainTakes .mSubmit) →
    InfinitelyOften (fun k => (r k).mainTakes .mSubmit ∧ (afterMove (r k)).env.answer = .accepted)

/-- The events accepted by step `n` have all reached `WIRE` by step `k`. -/
def SentBy (r : Nat → State) (n k : Nat) : Prop :=
  (r n).stream <+: (r k).sent

/-- R300, third premise: "the Range Guard does not halt first". The halt comes to its `Q.RESET`, which discards the
queue, only once the events accepted by step `n` are sent. -/
def GuardDoesNotHaltFirst (r : Nat → State) (n : Nat) : Prop :=
  ∀ k, n ≤ k → (r k).mpc = .mHaltQ → SentBy r n k

/-- The model's addition (log 27): decisions that recur for ever find the time trigger set again and again, from whatever
time it is counted. With a wall clock that stands still fewer than 16 events are never sent (R191). -/
def WallClockGoesOn (r : Nat → State) : Prop :=
  InfinitelyOften (fun k => (r k).mainTakes .mDecide) →
    ∀ since, InfinitelyOften (fun k => (r k).mainTakes .mDecide ∧
      timeTrigger (afterMove (r k)).env.wall since = true)

/-- The model's addition (log 27): no external reset from step `n` on (R280). -/
def NoResetFrom (r : Nat → State) (n : Nat) : Prop :=
  ∀ k, n ≤ k → nextMove (r k) ≠ .reset

/-- All premises of progress from step `n` on. -/
structure ProgressPremises (r : Nat → State) (n : Nat) : Prop where
  scheduled : MainLoopKeepsBeingScheduled r
  accepts : TransportAtLastAccepts r
  guard : GuardDoesNotHaltFirst r n
  wallClock : WallClockGoesOn r
  noReset : NoResetFrom r n

/-! ### Working registers still to be read -/

/-- A clock read's registers, those no step reads before writing set to 0 (R30). -/
def liveClk (p : Option ClkPhase) (done : Bool) (c : ClkRegs) : ClkRegs :=
  { h1 := if p = some .r2 ∨ p = some .r3 then c.h1 else 0#16
    l := if p = some .r3 then c.l else 0#16
    h2 := if p = some .r4 then c.h2 else 0#16
    t := if done then c.t else 0#32 }

/-- `M.*` at a phase, the registers that are written before they are read set to 0 (R30). -/
def MainRegs.live (m : MainRegs) (p : Mpc) : MainRegs :=
  { clk := liveClk p.clkPhase (decide (p = .mGTest)) m.clk
    w := if p = .mSnapR ∨ p = .mSnapExit then m.w else 0#32
    r := if p = .mSnapExit then m.r else 0#32
    avail := if p = .mDecide then m.avail else 0#32
    now := if p = .mDrain ∨ p = .mSubmit then m.now else 0#32
    n := if p = .mDrain then m.n else 0#5
    k := if p = .mDrain then m.k else 0#5 }

/-- `I.*` at a phase, the registers that are written before they are read set to 0 (R30). -/
def IrqRegs.live (i : IrqRegs) (p : Ipc) : IrqRegs :=
  { clk := liveClk p.clkPhase (decide (p = .iFinish)) i.clk
    pin := if p = .iIdle then 0 else i.pin
    ch := if p = .iIdle then 0#2 else i.ch
    edge := 0#1
    word := 0#32
    next := 0#32
    r := 0#32
    ok := false }

/-- The state without the working registers that are written before they are read. -/
def State.forgetDead (s : State) : State :=
  { s with m := s.m.live s.mpc, i := s.i.live s.ipc }

/-- The state without the receiver's ghost state: the block and its environment. -/
def State.forgetHost (s : State) : State :=
  { s with host := HostSide.reset }

end Sys2Proof.Machine
end

