-- ==== Sys2Proof/Certificates/Slice0/Obligations.lean ====
section
/-! DEFINITION. Certificates/Slice0/Obligations.lean: the statements about the model, each a rule of spec/ or a
consequence of several. Draws (the pin's level, the wall clock, the transport's answer) are universally
quantified: `State.env` may list any, and a free value may be any. -/

open Sys2Proof Sys2Proof.Machine

/-! ### Formats -/

/-- R141, R91, R146: `EV.PACK` is total, writes `I.word` (R146) and nothing else, and the word has the three fields of R90,
the timestamp truncated to 29 bits with the tag bits untouched. That it runs by itself, in every state, and puts its word
in `I.word` there too is the model's choice (log 8). -/
def Obligations.PackBuildsTheEventWord : Prop :=
  ∀ (s : State) (e : Bit) (c : Channel) (t : Word),
    ∃ w : Word,
      exec (.evPack e c t) s = .next { s with i := { s.i with word := w } } ∧
      w = (e.setWidth 32 <<< 31) ||| (c.setWidth 32 <<< 29) ||| (t &&& 0x1FFFFFFF#32) ∧
      w.extractLsb' 31 1 = e ∧ w.extractLsb' 29 2 = c ∧ w.extractLsb' 0 29 = t.extractLsb' 0 29

/-- R142, R92: `EV.UNPACK` gives the three fields, undoes pack up to truncation, and pack undoes it. That the
result is noted in the receiver's ghost state and nothing else changes is the model's choice (log 4). -/
def Obligations.UnpackInvertsPack : Prop :=
  ∀ (s : State) (e : Bit) (c : Channel) (t w : Word),
    exec (.evUnpack w) s = .next (hostEvent
      { edge := w.extractLsb' 31 1, channel := w.extractLsb' 29 2, timestamp := (w.extractLsb' 0 29).setWidth 32 } s) ∧
    unpackEvent (packEvent e c t) = { edge := e, channel := c, timestamp := BitVec.ofNat 32 (t.toNat % 2 ^ 29) } ∧
    (t.toNat < 2 ^ 29 → unpackEvent (packEvent e c t) = { edge := e, channel := c, timestamp := t }) ∧
    packEvent (unpackEvent w).edge (unpackEvent w).channel (unpackEvent w).timestamp = w

/-- R99, R92: an event word of each row, read by the receiver, gives the row's polarity and channel and the
word's timestamp, and the block's state is untouched (log 4). -/
def Obligations.EventRowsUnpackForTheReceiver : Prop :=
  ∀ (s : State) (t : Stamp),
    exec (.evwFall0 t) s = .next (hostEvent { edge := 0#1, channel := 0#2, timestamp := t.setWidth 32 } s) ∧
    exec (.evwFall1 t) s = .next (hostEvent { edge := 0#1, channel := 1#2, timestamp := t.setWidth 32 } s) ∧
    exec (.evwFall2 t) s = .next (hostEvent { edge := 0#1, channel := 2#2, timestamp := t.setWidth 32 } s) ∧
    exec (.evwFall3 t) s = .next (hostEvent { edge := 0#1, channel := 3#2, timestamp := t.setWidth 32 } s) ∧
    exec (.evwRise0 t) s = .next (hostEvent { edge := 1#1, channel := 0#2, timestamp := t.setWidth 32 } s) ∧
    exec (.evwRise1 t) s = .next (hostEvent { edge := 1#1, channel := 1#2, timestamp := t.setWidth 32 } s) ∧
    exec (.evwRise2 t) s = .next (hostEvent { edge := 1#1, channel := 2#2, timestamp := t.setWidth 32 } s) ∧
    exec (.evwRise3 t) s = .next (hostEvent { edge := 1#1, channel := 3#2, timestamp := t.setWidth 32 } s)

/-- R94, R96: a packet of 1 to 16 words. That the receiver takes it into its inbox, oldest word first, and that a list of
words that is no packet of the block is refused, are the model's choice (log 4): R97 (b) says that what a host does with one
is outside the block. -/
def Obligations.PacketReachesTheReceiver : Prop :=
  ∀ (s : State) (ws : List Word),
    (1 ≤ ws.length ∧ ws.length ≤ 16 →
      exec (.pkt ws) s = .next { s with host := { s.host with inbox := s.host.inbox ++ ws } }) ∧
    (ws.length = 0 ∨ 16 < ws.length → exec (.pkt ws) s = .refused .notAPacket)

/-- R141, R99: the word packed for a polarity and a channel belongs to the row of that tag, its timestamp the
low 29 bits of the clock value, whatever that value is (90_conflicts.md C1). -/
def Obligations.PackedWordBelongsToItsRow : Prop :=
  ∀ t : Word,
    decodeWord (packEvent 0#1 0#2 t) = some (.evwFall0 (t.extractLsb' 0 29)) ∧
    decodeWord (packEvent 0#1 1#2 t) = some (.evwFall1 (t.extractLsb' 0 29)) ∧
    decodeWord (packEvent 0#1 2#2 t) = some (.evwFall2 (t.extractLsb' 0 29)) ∧
    decodeWord (packEvent 0#1 3#2 t) = some (.evwFall3 (t.extractLsb' 0 29)) ∧
    decodeWord (packEvent 1#1 0#2 t) = some (.evwRise0 (t.extractLsb' 0 29)) ∧
    decodeWord (packEvent 1#1 1#2 t) = some (.evwRise1 (t.extractLsb' 0 29)) ∧
    decodeWord (packEvent 1#1 2#2 t) = some (.evwRise2 (t.extractLsb' 0 29)) ∧
    decodeWord (packEvent 1#1 3#2 t) = some (.evwRise3 (t.extractLsb' 0 29))

/-- Decode and encode agree on every instruction that has an encoding, at every operand value: an event word at
the front of any byte stream is read back with the rest of the stream, a packet from exactly its bytes. -/
def Obligations.DecodeOfEncodeIsIdentity : Prop :=
  ∀ (i : Instr) (bytes rest : List Byte), i.wf = true → encode i = some bytes →
    match i with
    | .pkt ws => decodePacket bytes = .ok (.pkt ws)
    | j => decodeEvent (bytes ++ rest) = .ok (j, rest)

/-- R97 (a), R99: every 32-bit word belongs to a row of the table, the row's encoding is that word, and no other
event-word instruction encodes to it. -/
def Obligations.EveryWordIsOneEvent : Prop :=
  ∀ w : Word, ∃ i, decodeWord w = some i ∧ encode i = some (leBytes w) ∧
    ∀ j, (∀ ws, j ≠ .pkt ws) → encode j = some (leBytes w) → j = i

/-- Words written out from the spec's encodings decode to the instructions they stand for (95_test_vectors.md V3, V8). That
no bytes and three bytes are refused, under names of their own, is the model's choice (log 4): R97 (b) says only that the
block never produces such a packet. -/
def Obligations.SpecWordsDecode : Prop :=
  decodeWord 0xC00003E8#32 = some (.evwRise2 1000#29) ∧
  decodeWord 0x72345678#32 = some (.evwFall3 0x12345678#29) ∧
  decodeWord 0xFFFFFFFF#32 = some (.evwRise3 0x1FFFFFFF#29) ∧
  decodeEvent [0xE8#8, 0x03#8, 0x00#8, 0xC0#8] = .ok (.evwRise2 1000#29, []) ∧
  decodePacket [0xE8#8, 0x03#8, 0x00#8, 0xC0#8, 0xD0#8, 0x07#8, 0x00#8, 0x40#8] =
    .ok (.pkt [0xC00003E8#32, 0x400007D0#32]) ∧
  decodePacket [] = .error .emptyPacket ∧
  decodePacket [0x00#8, 0x01#8, 0x02#8] = .error .notWholeWords

/-- R94, R96: a packet of `k` words, `1 <= k <= 16`, has `4 * k` bytes, and byte `4j + b` is byte `b` of the `j`-th
word, least significant first; there is no header. -/
def Obligations.PacketLayoutIsLittleEndian : Prop :=
  ∀ ws : List Word, packetWf ws = true →
    ∃ bytes, encode (.pkt ws) = some bytes ∧ bytes.length = 4 * ws.length ∧ 4 ≤ bytes.length ∧ bytes.length ≤ 64 ∧
      ∀ j w, ws[j]? = some w →
        bytes[4 * j]? = some (w.extractLsb' 0 8) ∧ bytes[4 * j + 1]? = some (w.extractLsb' 8 8) ∧
        bytes[4 * j + 2]? = some (w.extractLsb' 16 8) ∧ bytes[4 * j + 3]? = some (w.extractLsb' 24 8)

/-! ### The clock -/

/-- R120, R121: a tick advances the extended clock by one, modulo 2^32, rollover in the same step, and changes
nothing but the two counters; a stopped clock has no tick. That the rollover is one step is the spec's own decision D4
(log 10), that a stopped clock's tick is refused the model's (log 8). -/
def Obligations.TickAdvancesTheExtendedClock : Prop :=
  ∀ s : State,
    (s.cntRun = true → ∃ t, exec .cntTick s = .next t ∧
      t = { s with
        cntLo := if s.cntLo = 0xFFFF#16 then 0#16 else s.cntLo + 1#16
        cntHi := if s.cntLo = 0xFFFF#16 then s.cntHi + 1#16 else s.cntHi } ∧
      t.clock = s.clock + 1#32) ∧
    (s.cntRun = false → exec .cntTick s = .refused .notEnabled)

/-- R20, R21, R121: no operation but `CNT.TICK` and `SYS.RESET` writes a counter, and stopped counters keep their
values. -/
def Obligations.OnlyTickAndResetWriteTheCounters : Prop :=
  ∀ (i : Instr) (s t : State), exec i s = .next t → i ≠ .sysReset → (i ≠ .cntTick ∨ s.cntRun = false) →
    t.cntLo = s.cntLo ∧ t.cntHi = s.cntHi

/-- R123, R124: the four steps of `CLK.READ` in the interrupt context; it writes `I.h1`, `I.l`, `I.h2`, `I.t` and
the sequencer only. -/
def Obligations.ClockReadInTheInterruptContext : Prop :=
  ∀ s : State,
    (s.ipc = .iR1 → exec (.clkRead .I) s = .next { s with
      i := { s.i with clk := { s.i.clk with h1 := s.cntHi } }, ipc := .iR2 }) ∧
    (s.ipc = .iR2 → exec (.clkRead .I) s = .next { s with
      i := { s.i with clk := { s.i.clk with l := s.cntLo } }, ipc := .iR3 }) ∧
    (s.ipc = .iR3 → s.i.clk.h1 = s.cntHi → exec (.clkRead .I) s = .next { s with
      i := { s.i with clk := { s.i.clk with h2 := s.cntHi, t := ext s.i.clk.h1 s.i.clk.l } }, ipc := .iFinish }) ∧
    (s.ipc = .iR3 → s.i.clk.h1 ≠ s.cntHi → exec (.clkRead .I) s = .next { s with
      i := { s.i with clk := { s.i.clk with h2 := s.cntHi } }, ipc := .iR4 }) ∧
    (s.ipc = .iR4 → exec (.clkRead .I) s = .next { s with
      i := { s.i with clk := { s.i.clk with l := s.cntLo, t := ext s.i.clk.h2 s.cntLo } }, ipc := .iFinish }) ∧
    (s.ipc = .iIdle ∨ s.ipc = .iFinish → exec (.clkRead .I) s = .refused .notEnabled)

/-- R123, R124, R125 (i): the four steps of `CLK.READ` in the main loop; it writes `M.h1`, `M.l`, `M.h2`, `M.t` and the
sequencer only, and has no step while an Edge Detector run is in progress or in another phase. -/
def Obligations.ClockReadInTheMainLoop : Prop :=
  ∀ s : State,
    (s.ipc = .iIdle → s.mpc = .mGR1 → exec (.clkRead .M) s = .next { s with
      m := { s.m with clk := { s.m.clk with h1 := s.cntHi } }, mpc := .mGR2 }) ∧
    (s.ipc = .iIdle → s.mpc = .mGR2 → exec (.clkRead .M) s = .next { s with
      m := { s.m with clk := { s.m.clk with l := s.cntLo } }, mpc := .mGR3 }) ∧
    (s.ipc = .iIdle → s.mpc = .mGR3 → s.m.clk.h1 = s.cntHi → exec (.clkRead .M) s = .next { s with
      m := { s.m with clk := { s.m.clk with h2 := s.cntHi, t := ext s.m.clk.h1 s.m.clk.l } }, mpc := .mGTest }) ∧
    (s.ipc = .iIdle → s.mpc = .mGR3 → s.m.clk.h1 ≠ s.cntHi → exec (.clkRead .M) s = .next { s with
      m := { s.m with clk := { s.m.clk with h2 := s.cntHi } }, mpc := .mGR4 }) ∧
    (s.ipc = .iIdle → s.mpc = .mGR4 → exec (.clkRead .M) s = .next { s with
      m := { s.m with clk := { s.m.clk with l := s.cntLo, t := ext s.m.clk.h2 s.cntLo } }, mpc := .mGTest }) ∧
    (s.ipc ≠ .iIdle ∨ (s.mpc ≠ .mGR1 ∧ s.mpc ≠ .mGR2 ∧ s.mpc ≠ .mGR3 ∧ s.mpc ≠ .mGR4) →
      exec (.clkRead .M) s = .refused .notEnabled)

/-- R126, R121, R125 (g): the bracketing law, in either context, with any ticks between the steps of the read and no wrap of
the clock. Branch A gives the clock's value at the read of the low counter; branch B, whose fourth step may come any number
of ticks later, gives a value above the clock at the first step and not above the clock at the last. A read of stopped
counters takes branch A and gives the clock exactly. The law rests on the rollover being one step (the spec's own decision
D4, log 10), the reading step by step on log 8. -/
def Obligations.ClockReadIsBracketed : Prop :=
  ∀ (x : Ctx) (s : State), s.clkPhase x = some .r1 →
    (∀ a b c : Nat, s.cntRun = true → s.clock.toNat + a + b + c < 2 ^ 32 →
      ∃ u, runOps ([.clkRead x] ++ ticks a ++ [.clkRead x] ++ ticks b ++ [.clkRead x]) s = some u ∧
        u.clock.toNat = s.clock.toNat + a + b ∧
        ((u.clkPhase x = none ∧ (u.clkRegs x).t.toNat = s.clock.toNat + a) ∨
         (u.clkPhase x = some .r4 ∧
          ∃ v, runOps (ticks c ++ [.clkRead x]) u = some v ∧ v.clkPhase x = none ∧
            v.clock.toNat = s.clock.toNat + a + b + c ∧
            s.clock.toNat < (v.clkRegs x).t.toNat ∧ (v.clkRegs x).t.toNat ≤ v.clock.toNat))) ∧
    (s.cntRun = false →
      ∃ u, runOps (List.replicate 3 (.clkRead x)) s = some u ∧ u.clkPhase x = none ∧ u.cntRun = false ∧
        u.clock = s.clock ∧ (u.clkRegs x).t = s.clock)

/-! ### The edge interrupt -/

/-- R143, R246, R251: taking the interrupt. With the sources enabled, unmasked, and no run in progress, the entry
maps the pin: an unmonitored pin has no effect at all, a monitored one sets `I.pin` and `I.ch` and starts the run;
nothing else changes. Masked or disabled there is no entry. -/
def Obligations.EdgeEntryMapsThePin : Prop :=
  ∀ (s : State) (p : Pin), s.ipc = .iIdle →
    (s.irqSrcEn = true → s.irqMask = false → ∀ c, chanOfPin s.env.pinMap p = some c →
      exec (.edgeIrq p) s = .next { s with i := { s.i with pin := p, ch := c }, ipc := .iR1 }) ∧
    (s.irqSrcEn = true → s.irqMask = false → chanOfPin s.env.pinMap p = none → exec (.edgeIrq p) s = .next s) ∧
    (s.irqSrcEn = false ∨ s.irqMask = true → exec (.edgeIrq p) s = .refused .notEnabled)

/-- R140, R144, R148: a run in progress takes one step after another, each nearer its end, and is not re-entered (R35). That
`EDGE.IRQ` for the run's own pin is the run's next step, and for another pin is refused, is the model's choice (log 8). -/
def Obligations.EdgeRunTakesBoundedSteps : Prop :=
  ∀ s : State, s.ipc ≠ .iIdle →
    (∃ t, exec (.edgeIrq s.i.pin) s = .next t ∧ runStepsLeft t.ipc < runStepsLeft s.ipc ∧ t.i.pin = s.i.pin ∧
      (s.ipc ≠ .iFinish → exec (.clkRead .I) s = .next t)) ∧
    ∀ p, p ≠ s.i.pin → exec (.edgeIrq p) s = .refused .notEnabled

/-- R145, R146, R147, R149, R160: the end of a run while the queue has room. The level is drawn, the word is packed and
stored at `slot(WRITE_INDEX)`, the cursor advances, and the run returns; nothing else changes. That this is one step is the spec's
own decision D3 (log 16), that level 1 is polarity 1 its decision D9 (log 23). -/
def Obligations.EdgeFinishStoresTheEvent : Prop :=
  ∀ s : State, s.ipc = .iFinish → (s.writeIndex + 1#32 - s.readIndex).toNat ≤ 1024 →
    ∃ t, exec (.edgeIrq s.i.pin) s = .next t ∧
      { t with mem := s.mem } = { s with
        writeIndex := s.writeIndex + 1#32
        i := { s.i with
          edge := s.env.level s.i.pin
          word := packEvent (s.env.level s.i.pin) s.i.ch s.i.clk.t
          next := s.writeIndex + 1#32
          r := s.readIndex
          ok := true }
        ipc := .iIdle
        env := s.env.afterLevel } ∧
      t.mem.readSlot (slot s.writeIndex) = some (packEvent (s.env.level s.i.pin) s.i.ch s.i.clk.t) ∧
      (∀ a, a ≠ slot s.writeIndex → t.mem.readSlot a = s.mem.readSlot a) ∧
      ∀ j, t.mem.readByte j = s.mem.readByte j

/-- R147, R149, R172, R241: the end of a run while the queue is full. The event is dropped: no slot and no cursor changes,
only `I.*`, and the run returns. That this is one step is the spec's own decision D3 (log 16), that level 1 is polarity 1 its
decision D9 (log 23). -/
def Obligations.EdgeFinishDropsWhenFull : Prop :=
  ∀ s : State, s.ipc = .iFinish → 1024 < (s.writeIndex + 1#32 - s.readIndex).toNat →
    exec (.edgeIrq s.i.pin) s = .next { s with
      i := { s.i with
        edge := s.env.level s.i.pin
        word := packEvent (s.env.level s.i.pin) s.i.ch s.i.clk.t
        next := s.writeIndex + 1#32
        r := s.readIndex
        ok := false }
      ipc := .iIdle
      env := s.env.afterLevel }

/-- R160, R172: `Q.PUSH` stores the word and advances the cursor exactly when `(next - r) mod 2^32 <= C`, and
otherwise changes no slot and no cursor; nothing else of the state changes but `I.next`, `I.r` and the result. Within the
occupancies of R41 the test is "occupancy before the push `< C`". That `Q.PUSH` runs by itself inside `I_FINISH` and leaves
the sequencer there is the model's choice (log 8). -/
def Obligations.PushStoresOrRejects : Prop :=
  ∀ (s : State) (w : Word), s.ipc = .iFinish →
    ((s.writeIndex + 1#32 - s.readIndex).toNat ≤ 1024 →
      ∃ t, exec (.qPush w) s = .next t ∧
        { t with mem := s.mem } = { s with
          writeIndex := s.writeIndex + 1#32
          i := { s.i with next := s.writeIndex + 1#32, r := s.readIndex, ok := true } } ∧
        t.mem.readSlot (slot s.writeIndex) = some w ∧
        (∀ a, a ≠ slot s.writeIndex → t.mem.readSlot a = s.mem.readSlot a) ∧
        ∀ j, t.mem.readByte j = s.mem.readByte j) ∧
    (1024 < (s.writeIndex + 1#32 - s.readIndex).toNat →
      exec (.qPush w) s = .next { s with i := { s.i with next := s.writeIndex + 1#32, r := s.readIndex, ok := false } }) ∧
    ((s.writeIndex - s.readIndex).toNat ≤ 1024 →
      ((s.writeIndex + 1#32 - s.readIndex).toNat ≤ 1024 ↔ (s.writeIndex - s.readIndex).toNat < 1024))

/-- R61: `slot(i) = i mod 1024 = i & 0x3FF = i[9:0]`. That neighbours stay neighbours across the wrap of the cursor, which
R61 marks as derived, is in `DrainsReadInQueueOrder`. -/
def Obligations.SlotIsIndexModCapacity : Prop :=
  ∀ i : Word, slot i = i.toNat % 1024 ∧ slot i = (i &&& 0x3FF#32).toNat ∧ slot i = (i.extractLsb' 0 10).toNat

/-! ### The main loop's operations -/

/-- R162: `CRIT.ENTER` sets the mask and nothing else. -/
def Obligations.CritEnterSetsTheMask : Prop :=
  ∀ s : State, s.ipc = .iIdle → s.mpc = .mSnapEnter →
    exec .critEnter s = .next { s with irqMask := true, mpc := .mSnapW } ∧ exec .qSnapshot s = exec .critEnter s

/-- R163, R164, R296: `CRIT.EXIT` clears the mask, computes the available count modulo 2^32, and leaves
`IRQ_SRC_EN` as it is. -/
def Obligations.CritExitClearsTheMask : Prop :=
  ∀ s : State, s.ipc = .iIdle → s.mpc = .mSnapExit →
    exec .critExit s = .next { s with
      irqMask := false, m := { s.m with avail := s.m.w - s.m.r }, mpc := .mDecide } ∧
    exec .qSnapshot s = exec .critExit s

/-- R164: the two cursor reads of `Q.SNAPSHOT`. LA-SPEC does not give their order: that `WRITE_INDEX` is read first and
`READ_INDEX` second is the spec's own decision D13 (log 24). -/
def Obligations.SnapshotReadsTheCursors : Prop :=
  ∀ s : State, s.ipc = .iIdle →
    (s.mpc = .mSnapW → exec .qSnapshot s = .next { s with m := { s.m with w := s.writeIndex }, mpc := .mSnapR }) ∧
    (s.mpc = .mSnapR → exec .qSnapshot s = .next { s with m := { s.m with r := s.readIndex }, mpc := .mSnapExit })

/-- R175: the four steps of the snapshot, with any ticks between them, have the effect of one atomic read of both
cursors. -/
def Obligations.SnapshotEqualsOneAtomicRead : Prop :=
  ∀ (s : State) (a b c : Nat), s.ipc = .iIdle → s.mpc = .mSnapEnter → s.cntRun = true →
    ∃ t, runOps ([.qSnapshot] ++ ticks a ++ [.qSnapshot] ++ ticks b ++ [.qSnapshot] ++ ticks c ++ [.qSnapshot]) s = some t ∧
      t.clock = s.clock + BitVec.ofNat 32 (a + b + c) ∧
      { t with cntLo := s.cntLo, cntHi := s.cntHi } = { s with
        irqMask := false
        m := { s.m with w := s.writeIndex, r := s.readIndex, avail := s.writeIndex - s.readIndex }
        mpc := .mDecide }

/-- R167, R194: one step of `Q.DRAIN`. The oldest word is read from `slot(READ_INDEX)`, the cursor and `M.k` advance by
one, the word's four bytes stand little-endian at `PKT[4*M.k]` and on, `PKT_LEN` grows by 4; no slot of `QMEM` and
no other byte of `PKT` changes, nor anything else. That the cursor advances after each word is the spec's own decision D14
(log 14). -/
def Obligations.DrainConsumesTheOldestWord : Prop :=
  ∀ (s : State) (w : Word), s.ipc = .iIdle → s.mpc = .mDrain → s.m.k.toNat < 16 →
    s.mem.readSlot (slot s.readIndex) = some w →
    ∃ t, exec .qDrain s = .next t ∧
      { t with mem := s.mem } = { s with
        readIndex := s.readIndex + 1#32
        pktLen := s.pktLen + 4
        m := { s.m with k := s.m.k + 1#5 }
        mpc := if s.m.k + 1#5 < s.m.n then .mDrain else .mSubmit } ∧
      t.mem.readByte (4 * s.m.k.toNat) = some (w.extractLsb' 0 8) ∧
      t.mem.readByte (4 * s.m.k.toNat + 1) = some (w.extractLsb' 8 8) ∧
      t.mem.readByte (4 * s.m.k.toNat + 2) = some (w.extractLsb' 16 8) ∧
      t.mem.readByte (4 * s.m.k.toNat + 3) = some (w.extractLsb' 24 8) ∧
      (∀ j, j < 4 * s.m.k.toNat ∨ 4 * s.m.k.toNat + 4 ≤ j → t.mem.readByte j = s.mem.readByte j) ∧
      ∀ a, t.mem.readSlot a = s.mem.readSlot a

/-- R167: the general contract. `n` drain steps in a row read the `n` oldest words in increasing index order, advance
`READ_INDEX` by `n`, and lay the words out in the packet one after the other, oldest first; a drain that crosses slot 1023
goes on at slot 0, also where the cursor wraps (R61, derived there). That the cursor is `n` further after `n` of the `M.n`
words, before the drain is over, rests on the spec's own decision D14 (log 14). -/
def Obligations.DrainsReadInQueueOrder : Prop :=
  (∀ i : Word, slot (i + 1#32) = (slot i + 1) % 1024) ∧
  ∀ (n : Nat) (s : State), s.ipc = .iIdle → s.mpc = .mDrain → 1 ≤ n →
    s.m.k.toNat + n ≤ s.m.n.toNat → s.m.n.toNat ≤ 16 →
    (∀ j, j < n → (s.mem.readSlot (s.slotAt j)).isSome = true) →
    ∃ t, runOps (List.replicate n .qDrain) s = some t ∧
      t.readIndex = s.readIndex + BitVec.ofNat 32 n ∧
      t.m.k.toNat = s.m.k.toNat + n ∧
      t.pktLen = s.pktLen + 4 * n ∧
      (t.mpc = .mSubmit ↔ s.m.k.toNat + n = s.m.n.toNat) ∧
      t.mem.readBytes (4 * s.m.k.toNat) (4 * n) =
        some (packetBytes ((List.range n).map (fun j => (s.mem.readSlot (s.slotAt j)).getD 0#32))) ∧
      ∀ a, t.mem.readSlot a = s.mem.readSlot a

/-- R194: `TX.SERIALIZE` writes the four little-endian bytes of its word at the position `M.k` and lengthens the packet by 4.
That it runs by itself at `M_DRAIN` is the model's choice (log 8), and so is the stop at a position for which `PKT` has no
byte (log 5; R60 (b) gives the buffer its 64 bytes). -/
def Obligations.SerializeWritesFourBytes : Prop :=
  ∀ (s : State) (w : Word), s.ipc = .iIdle → s.mpc = .mDrain →
    (s.m.k.toNat < 16 →
      ∃ t, exec (.txSerialize w) s = .next t ∧
        { t with mem := s.mem } = { s with pktLen := s.pktLen + 4 } ∧
        t.mem.readByte (4 * s.m.k.toNat) = some (w.extractLsb' 0 8) ∧
        t.mem.readByte (4 * s.m.k.toNat + 1) = some (w.extractLsb' 8 8) ∧
        t.mem.readByte (4 * s.m.k.toNat + 2) = some (w.extractLsb' 16 8) ∧
        t.mem.readByte (4 * s.m.k.toNat + 3) = some (w.extractLsb' 24 8) ∧
        (∀ j, j < 4 * s.m.k.toNat ∨ 4 * s.m.k.toNat + 4 ≤ j → t.mem.readByte j = s.mem.readByte j) ∧
        ∀ a, t.mem.readSlot a = s.mem.readSlot a) ∧
    (16 ≤ s.m.k.toNat → exec (.txSerialize w) s = .fault (.pktRange (4 * s.m.k.toNat)))

/-- R170, R225: `Q.RESET` writes both cursors to 0 and nothing else but the sequencer. That it is one step is the spec's own
decision D15 (log 17). -/
def Obligations.CursorResetIsJoint : Prop :=
  ∀ s : State, s.ipc = .iIdle → s.mpc = .mHaltQ →
    exec .qReset s = .next { s with writeIndex := 0#32, readIndex := 0#32, mpc := .mIdle } ∧
    exec .guardHalt s = exec .qReset s

/-- R191, R192: the decision. `M.n` is `min(16, M.avail)` where 16 events are available or 2 ms have passed since the
last send, else 0; `M.k` and `PKT_LEN` are cleared; with nothing to send the transmitter is done. That the difference is
taken modulo 2^32 is the spec's own decision D16 (log 13), that the clock is sampled here alone its decision D17 (log 18). -/
def Obligations.DecideFollowsTheDualTrigger : Prop :=
  ∀ s : State, s.ipc = .iIdle → s.mpc = .mDecide →
    ∃ t, exec .txDecide s = .next t ∧
      { t with mpc := s.mpc, m := { t.m with n := s.m.n } } = { s with
        m := { s.m with now := s.env.wall, k := 0#5 }, pktLen := 0, env := s.env.afterWall } ∧
      (16 ≤ s.m.avail.toNat ∨ 2 ≤ (s.env.wall - s.lastSent).toNat → t.m.n.toNat = min 16 s.m.avail.toNat) ∧
      (s.m.avail.toNat < 16 → (s.env.wall - s.lastSent).toNat < 2 → t.m.n.toNat = 0) ∧
      (t.mpc = if t.m.n.toNat = 0 then .mGR1 else .mDrain)

/-- R196: one call of `send` with `PKT[0 .. PKT_LEN-1]`. Accepted: the packet is appended to `WIRE`, `LAST_SENT` is recorded,
the transmitter is done. Busy: only the phase, which stays. That `LAST_SENT` gets the decision's sample `M.now` and not the
time of acceptance is the spec's own decision D17 (R199, log 18). -/
def Obligations.SubmitSendsOrRetries : Prop :=
  ∀ (s : State) (bytes : List Byte), s.ipc = .iIdle → s.mpc = .mSubmit → s.packet = some bytes →
    (s.env.answer = .accepted →
      exec .txSubmit s = .next { s with
        wire := s.wire ++ [bytes], lastSent := s.m.now, mpc := .mGR1, env := s.env.afterAnswer }) ∧
    (s.env.answer = .busy → exec .txSubmit s = .next { s with env := s.env.afterAnswer })

/-- R196, R242, R293: a transport that answers busy `n` times in a row keeps the main loop at `M_SUBMIT` with the same
packet, and nothing of the block changes. -/
def Obligations.BusyTransportStallsTheMainLoop : Prop :=
  ∀ (n : Nat) (s : State) (bytes : List Byte) (later : List Answer), s.ipc = .iIdle → s.mpc = .mSubmit →
    s.packet = some bytes → s.env.answers = List.replicate n .busy ++ later →
    runOps (List.replicate n .txSubmit) s = some { s with env := { s.env with answers := later } }

/-- R221: the range test is an unsigned comparison with 2^29 (the spec's own decision D29) and changes only the sequencer. -/
def Obligations.RangeTestComparesWithTheLimit : Prop :=
  ∀ s : State, s.ipc = .iIdle → s.mpc = .mGTest →
    (s.m.clk.t.toNat < 0x20000000 → exec .guardStep s = .next { s with mpc := .mIdle }) ∧
    (0x20000000 ≤ s.m.clk.t.toNat → exec .guardStep s = .next { s with mpc := .mHaltCnt })

/-- R223, R224: the first two steps of the halt stop the counters, which keep their values, and disable the interrupt
sources. That they are steps of their own, in this order, is the spec's own decision D20 (R222, log 17); that `PENDQ` is
emptied with the second is R249's reference source (log 20). -/
def Obligations.HaltStopsThenDisables : Prop :=
  ∀ s : State, s.ipc = .iIdle →
    (s.mpc = .mHaltCnt → exec .guardHalt s = .next { s with cntRun := false, mpc := .mHaltIrq }) ∧
    (s.mpc = .mHaltIrq → exec .guardHalt s = .next { s with
      irqSrcEn := false, mpc := .mHaltQ, env := { s.env with pendq := [] } })

/-- R226, R33: the main loop's step completes in every phase, where the reads of R169 and R194 find what they read; it
is the step of the operation the phase selects (R95), and the next phase is the table's. That the other main-loop work at
`M_IDLE` changes nothing but the phase is the spec's own decision D23 (R227, log 19). -/
def Obligations.MainLoopFollowsItsTable : Prop :=
  ∀ s : State, s.ipc = .iIdle → s.mainReady →
    ∃ t, exec .mainIter s = .next t ∧ exec s.mpc.operation s = .next t ∧ t.mpc = s.phaseAfter ∧ t.ipc = .iIdle ∧
      (s.mpc = .mIdle → t = { s with mpc := .mSnapEnter })

/-- R95 gives `TX.STEP`, `GUARD.STEP`, `GUARD.HALT` and `Q.SNAPSHOT` their phases (R190, R220, R222, R164). That each of them,
in a phase of its own, is the one atomic step the phase selects, and that it is refused in every other phase, are the
model's choice (log 8). -/
def Obligations.CompositeOperationsTakeTheirPhases : Prop :=
  ∀ s : State, s.ipc = .iIdle → s.mainReady →
    (s.mpc.inTx = true → ∃ t, exec .txStep s = .next t ∧ exec s.mpc.operation s = .next t) ∧
    (s.mpc.inGuard = true → ∃ t, exec .guardStep s = .next t ∧ exec s.mpc.operation s = .next t) ∧
    (s.mpc.inHalt = true → ∃ t, exec .guardHalt s = .next t ∧ exec s.mpc.operation s = .next t) ∧
    (s.mpc.inSnapshot = true → ∃ t, exec .qSnapshot s = .next t ∧ exec s.mpc.operation s = .next t) ∧
    (s.mpc.inTx = false → exec .txStep s = .refused .notEnabled) ∧
    (s.mpc.inGuard = false → exec .guardStep s = .refused .notEnabled) ∧
    (s.mpc.inHalt = false → exec .guardHalt s = .refused .notEnabled) ∧
    (s.mpc.inSnapshot = false → exec .qSnapshot s = .refused .notEnabled)

/-- R228: a pass of the guard over stopped counters at or above the limit, in the halted state, rewrites the values
already there: only the clock-read registers and the sequencer differ. That the guard goes on after the halt and makes such
a pass is the spec's own decision D19 (log 17); R228 lets a model skip the guard once halted. -/
def Obligations.GuardAfterHaltChangesNothing : Prop :=
  ∀ s : State, s.ipc = .iIdle → s.mpc = .mGR1 → s.halted = true → 0x20000000 ≤ s.clock.toNat → s.env.pendq = [] →
    ∃ t, runOps (List.replicate 7 .guardStep) s = some t ∧
      t = { s with m := { s.m with clk := t.m.clk }, mpc := .mIdle } ∧ t.m.clk.t = s.clock

/-! ### Reset -/

/-- R280, R40: what `SYS.RESET` leaves, in any state. The values of the counters, `LAST_SENT`, the control bits, the phases and
`WIRE` are the spec's own decisions D5, D16, D27 and D24 (log 12, 13, 25). The working registers, `QMEM` and `PKT` are
unspecified by R40 and the statement says nothing of them. That the environment goes on, with `PENDQ` emptied, is the
model's choice (log 9). -/
def Obligations.ResetEstablishesTheStatedValues : Prop :=
  ∀ s : State, ∃ t, exec .sysReset s = .next t ∧
    t.writeIndex = 0#32 ∧ t.readIndex = 0#32 ∧ t.irqSrcEn = true ∧ t.irqMask = false ∧ t.cntRun = true ∧
    t.cntLo = 0#16 ∧ t.cntHi = 0#16 ∧ t.lastSent = 0#32 ∧ t.pktLen = 0 ∧ t.mpc = .mSnapEnter ∧ t.ipc = .iIdle ∧ t.wire = [] ∧
    t.env = { s.env with pendq := [] } ∧ t.capturing = true

/-- R40: the state after reset, every value the table states. The source states the cursors' values and that the session
is capturing; the others are the spec's own decisions D5, D16, D24 and D27 (log 12, 13, 25). -/
def Obligations.ResetStateHasTheStatedValues : Prop :=
  State.reset.writeIndex = 0#32 ∧ State.reset.readIndex = 0#32 ∧ State.reset.irqSrcEn = true ∧
  State.reset.irqMask = false ∧ State.reset.cntRun = true ∧ State.reset.cntLo = 0#16 ∧ State.reset.cntHi = 0#16 ∧
  State.reset.lastSent = 0#32 ∧ State.reset.pktLen = 0 ∧ State.reset.mpc = .mSnapEnter ∧
  State.reset.ipc = .iIdle ∧ State.reset.wire = []

/-! ### A step -/

/-- R9, R35, R95: a step runs the operation that the next move selects. The counters tick, the interrupt source requests
an entry, a context takes the step its phase selects. That the moves are a list in the state and that a move which is not
enabled is refused are the model's choice (log 2); what enables the moves `host`, `transition` and `serve` is that of log 4
and of the reference source (R249, log 20). -/
def Obligations.StepRunsTheSelectedOperation : Prop :=
  ∀ (s : State) (mv : Move) (rest : List Move) (u : State),
    s.env.moves = mv :: rest → u = { s with env := { s.env with moves := rest } } →
    (mv = .tick → s.cntRun = true → step s = exec .cntTick u) ∧
    (∀ p, mv = .irq p → s.ipc = .iIdle → s.irqSrcEn = true → s.irqMask = false → step s = exec (.edgeIrq p) u) ∧
    (mv = .istep → s.ipc ≠ .iIdle → step s = exec (s.ipc.operation s.i.pin) u) ∧
    (mv = .mstep → s.ipc = .iIdle → step s = exec s.mpc.operation u) ∧
    (mv = .reset → step s = exec .sysReset u) ∧
    (enabled mv s = false → step s = .refused .notEnabled)

/-- A step of the receiver runs the decoded instruction: the event word at the front of its inbox, or, with the inbox
empty, the next packet of `WIRE` (log 4, log 7). -/
def Obligations.StepRunsTheDecodedInstruction : Prop :=
  ∀ (s : State) (rest : List Move) (i : Instr), s.env.moves = .host :: rest →
    (∀ (w : Word) (ws : List Word), s.host.inbox = w :: ws → decodeEvent (leBytes w) = .ok (i, []) →
      step s = exec i { s with env := { s.env with moves := rest }, host := { s.host with inbox := ws } }) ∧
    (∀ bytes, s.host.inbox = [] → s.wire[s.host.taken]? = some bytes → decodePacket bytes = .ok i →
      step s = exec i { s with
        env := { s.env with moves := rest }, host := { s.host with taken := s.host.taken + 1 } })

/-- R35 (b), (c): at every instant exactly one of the two contexts has a step. -/
def Obligations.ExactlyOneContextMayStep : Prop :=
  ∀ s : State, (enabled .istep s = true ↔ enabled .mstep s = false) ∧
    (enabled .mstep s = true → ∀ p, enabled (.irq p) s = (s.irqSrcEn && !s.irqMask)) ∧
    (enabled .istep s = true → ∀ p, enabled (.irq p) s = false)

/-- R249: the reference interrupt source. A transition on a monitored pin is appended to `PENDQ` while the sources are
enabled and dropped while they are not; the entry for its head removes it. -/
def Obligations.ReferenceSourceQueuesTransitions : Prop :=
  ∀ (s : State) (rest : List Move) (p : Pin) (c : Channel),
    (s.env.moves = .transition p :: rest → chanOfPin s.env.pinMap p = some c →
      step s = .next { s with env := { s.env with
        moves := rest, pendq := if s.irqSrcEn = true then s.env.pendq ++ [p] else s.env.pendq } }) ∧
    (∀ later, s.env.moves = .serve :: rest → s.env.pendq = p :: later → s.mayEnter = true →
      step s = exec (.edgeIrq p) { s with env := { s.env with moves := rest, pendq := later } })

/-! ### Whole-machine rules -/

/-- R71, R224, R246: while the mask is set or the sources are disabled no step starts an Edge Detector run, and none but
`SYS.RESET` and the halt's `Q.RESET` writes `WRITE_INDEX`. -/
def Obligations.NoRunStartsMaskedOrDisabled : Prop :=
  ∀ s t : State, s.ipc = .iIdle → s.irqMask = true ∨ s.irqSrcEn = false → step s = .next t →
    t.ipc = .iIdle ∧ (t.writeIndex = s.writeIndex ∨ nextMove s = .reset ∨ s.mpc = .mHaltQ)

/-- R297, R95, U20: the discipline. `Q.PUSH` outside the producer's step, an operation of the main loop during a run,
and one in a phase that does not select it are no steps of the machine. That they are refused is the model's
choice (log 8). -/
def Obligations.DisciplineIsEnforced : Prop :=
  ∀ s : State,
    (s.ipc ≠ .iFinish → ∀ w, exec (.qPush w) s = .refused .notEnabled) ∧
    (s.ipc ≠ .iIdle → ∀ i, i ∈ [Instr.critEnter, .critExit, .qSnapshot, .qDrain, .qReset, .txDecide, .txSubmit, .txStep,
      .guardStep, .guardHalt, .mainIter, .clkRead .M] → exec i s = .refused .notEnabled) ∧
    (s.mpc ≠ .mSnapEnter → exec .critEnter s = .refused .notEnabled) ∧
    (s.mpc ≠ .mSnapExit → exec .critExit s = .refused .notEnabled) ∧
    (s.mpc ≠ .mDecide → exec .txDecide s = .refused .notEnabled) ∧
    (s.mpc ≠ .mDrain → exec .qDrain s = .refused .notEnabled) ∧
    (s.ipc ≠ .iIdle ∨ s.mpc ≠ .mDrain → ∀ w, exec (.txSerialize w) s = .refused .notEnabled) ∧
    (s.mpc ≠ .mSubmit → exec .txSubmit s = .refused .notEnabled) ∧
    (s.mpc ≠ .mHaltQ → exec .qReset s = .refused .notEnabled)

/-- R60, R169, U16: where the main loop's reads and writes of storage find nothing, or no such place, the step stops
under a name of its own (log 5); `StepNeverFaults` says no run comes to it. -/
def Obligations.StorageStopsAreNamed : Prop :=
  ∀ s : State, s.ipc = .iIdle →
    (s.mpc = .mDrain → s.mem.readSlot (slot s.readIndex) = none →
      exec .qDrain s = .fault (.slotUnwritten (slot s.readIndex))) ∧
    (s.mpc = .mDrain → (s.mem.readSlot (slot s.readIndex)).isSome = true → 16 ≤ s.m.k.toNat →
      exec .qDrain s = .fault (.pktRange (4 * s.m.k.toNat))) ∧
    (s.mpc = .mSubmit → s.packet = none → exec .txSubmit s = .fault (.pktUnwritten s.pktLen))

/-- R69, R254: while a run is in progress no operation but a tick, a reset or the receiver's writes anything the main
loop or the clock source owns. -/
def Obligations.InterruptContextWritesItsOwnState : Prop :=
  ∀ (i : Instr) (s t : State), exec i s = .next t → s.ipc ≠ .iIdle → i ≠ .sysReset → i ≠ .cntTick →
    t.readIndex = s.readIndex ∧ t.irqSrcEn = s.irqSrcEn ∧ t.irqMask = s.irqMask ∧ t.cntRun = s.cntRun ∧
    t.lastSent = s.lastSent ∧ t.pktLen = s.pktLen ∧ t.m = s.m ∧ t.mpc = s.mpc ∧ t.wire = s.wire ∧
    t.cntLo = s.cntLo ∧ t.cntHi = s.cntHi ∧ ∀ j, t.mem.readByte j = s.mem.readByte j

/-- R69, R251, R24, R25, R166, R170: while no run is in progress no operation but an entry, `EV.PACK` and `SYS.RESET` writes
`I.*`, none but `SYS.RESET` writes a slot of `QMEM`, only the halt's joint reset writes `WRITE_INDEX`, to 0, and only that
and a drain write `READ_INDEX`, which the drain advances by one. That `EV.PACK` runs by itself here is the model's choice
(log 8); the advance per word and the joint reset are the spec's own decisions D14 (log 14) and D15 (log 17). -/
def Obligations.MainLoopWritesItsOwnState : Prop :=
  ∀ (i : Instr) (s t : State), exec i s = .next t → s.ipc = .iIdle → i ≠ .sysReset →
    ((∀ p, i ≠ .edgeIrq p) → (∀ e c v, i ≠ .evPack e c v) → t.i = s.i ∧ t.ipc = .iIdle) ∧
    (∀ a, t.mem.readSlot a = s.mem.readSlot a) ∧
    (t.writeIndex = s.writeIndex ∨ s.mpc = .mHaltQ ∧ t.writeIndex = 0#32 ∧ t.readIndex = 0#32) ∧
    (t.readIndex = s.readIndex ∨ s.mpc = .mDrain ∧ t.readIndex = s.readIndex + 1#32 ∨
      s.mpc = .mHaltQ ∧ t.readIndex = 0#32)

/-- R37, R28, R196: `WIRE` and `LAST_SENT` are written by an accepted `send` only, or by `SYS.RESET`; what is appended
is the packet. That `LAST_SENT` is then `M.now` is the spec's own decision D17 (R199, log 18). -/
def Obligations.OnlyAnAcceptedSendReachesTheWire : Prop :=
  ∀ (i : Instr) (s t : State), exec i s = .next t → i ≠ .sysReset →
    (t.wire = s.wire ∧ t.lastSent = s.lastSent) ∨
    (s.ipc = .iIdle ∧ s.mpc = .mSubmit ∧ s.env.answer = .accepted ∧ t.lastSent = s.m.now ∧
      ∃ bytes, s.packet = some bytes ∧ t.wire = s.wire ++ [bytes])

/-- R22, R26: no operation but `SYS.RESET` starts the counters or enables the interrupt sources again. -/
def Obligations.ControlBitsOnlyFall : Prop :=
  ∀ (i : Instr) (s t : State), exec i s = .next t → i ≠ .sysReset →
    (s.cntRun = false → t.cntRun = false) ∧ (s.irqSrcEn = false → t.irqSrcEn = false) ∧
    (t.cntRun = s.cntRun ∨ s.mpc = .mHaltCnt) ∧ (t.irqSrcEn = s.irqSrcEn ∨ s.mpc = .mHaltIrq)

/-- R27: the mask is set by the first step of the snapshot and cleared by its last, and by nothing else but reset. -/
def Obligations.MaskFollowsTheCriticalSection : Prop :=
  ∀ (i : Instr) (s t : State), exec i s = .next t → i ≠ .sysReset → t.irqMask ≠ s.irqMask →
    s.ipc = .iIdle ∧ ((s.mpc = .mSnapEnter ∧ t.irqMask = true) ∨ (s.mpc = .mSnapExit ∧ t.irqMask = false))

/-- R266: the host can do nothing to the block. That `EVW.*`, `PKT` and `EV.UNPACK` run as instructions, on a ghost receiver
whose state is all they change, is the model's choice (log 4); the statement says that they change nothing of the block, and
that what any operation does to the block does not depend on that ghost. -/
def Obligations.ReceiverHasNoMoveOnTheBlock : Prop :=
  ∀ (i : Instr) (s : State) (h : HostSide),
    viewResult State.forgetHost (exec i { s with host := h }) = viewResult State.forgetHost (exec i s) ∧
    ((encode i).isSome = true ∨ (∃ w, i = .evUnpack w) → ∀ t, exec i s = .next t → t.forgetHost = s.forgetHost)

/-- Every operation keeps both storage spaces of R60 in canonical form: addresses strictly rising and inside the space. The
form is the model's choice (log 5). -/
def Obligations.MemoryStaysCanonical : Prop :=
  ∀ (i : Instr) (s t : State), exec i s = .next t → s.mem.wf = true → t.mem.wf = true

/-! ### Invariants and headline results -/

/-- The invariant holds after reset. -/
def Obligations.ResetMeetsInvariant : Prop :=
  Inv State.reset

/-- R41, R71, R165, R169, R97 (b) as one invariant: every step of every agent keeps it. -/
def Obligations.StepKeepsInvariant : Prop :=
  ∀ s t : State, Inv s → step s = .next t → Inv t

/-- R169, R240, U16: under the invariant no step faults: no slot and no byte of the packet is read before it is written, and
no packet overruns its buffer. -/
def Obligations.StepNeverFaults : Prop :=
  ∀ s : State, Inv s → ∀ f, step s ≠ .fault f

/-- R35: under the invariant, with no line of the trace listed, the machine is not stuck: the free choice takes an enabled
step, and it completes. That a choice which is not enabled is replaced by the step of the context whose turn it is, and
that a listed line which is not enabled is refused, are the model's choice (log 2). -/
def Obligations.FreeChoiceAlwaysSteps : Prop :=
  ∀ s : State, Inv s → s.env.moves = [] → enabled (nextMove s) s = true ∧ ∃ t, step s = .next t

/-- R222, R229, R232, R296: the halt is irreversible. From a halted state every step but an external reset leaves the
session halted, the counters as they are, no run in progress, and nothing new on `WIRE`. -/
def Obligations.HaltIsIrreversible : Prop :=
  ∀ s t : State, Inv s → s.halted = true → step s = .next t → nextMove s ≠ .reset →
    t.halted = true ∧ t.ipc = .iIdle ∧ t.wire = s.wire ∧ t.lastSent = s.lastSent ∧
    t.cntLo = s.cntLo ∧ t.cntHi = s.cntHi ∧ t.mem.qmem = s.mem.qmem

/-- R168, R197: no loss, no duplication, no reordering after acceptance. The words on `WIRE`, then those in the packet, then
those in the queue are the accepted events in order: every step keeps this sequence, but for a run's end, which
appends the word it pushed if the push was accepted, for the halt's `Q.RESET`, which discards what is queued, and for
a reset. -/
def Obligations.AcceptedEventsStreamInOrder : Prop :=
  ∀ s t : State, Inv s → step s = .next t →
    match nextMove s with
    | .reset => t.stream = []
    | .istep => t.stream = s.stream ++ (if s.ipc = .iFinish ∧ t.i.ok = true then [t.i.word] else [])
    | .mstep => t.stream = if s.mpc = .mHaltQ then s.sent else s.stream
    | .tick => t.stream = s.stream
    | .irq _ => t.stream = s.stream
    | .host => t.stream = s.stream
    | .transition _ => t.stream = s.stream
    | .serve => t.stream = s.stream

/-- R151: as long as the clock is below 2^29, its last value 2^29 - 1 included, a step leaves the timestamps on the wire, in
the packet and in the queue non-decreasing in queue order, whatever the interleaving of ticks with the run's clock read. It
rests on the rollover being one step (the spec's own decision D4, log 10). -/
def Obligations.TimestampsStayInOrder : Prop :=
  ∀ s t : State, Inv s → StampsInOrder s → s.clock.toNat < 2 ^ 29 → step s = .next t → StampsInOrder t

/-- R30: each working register is written before it is read. Two states that differ only in working registers a
later step writes before reading take the same step to states that again differ only so; no choice of reset values for
them (log 1) can be observed. -/
def Obligations.DeadWorkingRegistersAreUnobservable : Prop :=
  ∀ s t : State, s.forgetDead = t.forgetDead →
    viewResult State.forgetDead (step s) = viewResult State.forgetDead (step t)
end

