-- ==== Sys2Proof/Laws/Bits.lean ====
section
/-! SUPPORT. Laws/Bits.lean: the bit layouts as arithmetic. The value of an event word, of four bytes, of the
extended clock and of a slot, and the inverses between words, fields and bytes. -/

namespace Sys2Proof

open Machine

/-- An OR of a shifted value with a value below it is a sum. -/
theorem toNat_shiftLeft_or {n : Nat} (k : Nat) (a b : BitVec n) (hb : b.toNat < 2 ^ k)
    (ha : a.toNat * 2 ^ k < 2 ^ n) : ((a <<< k) ||| b).toNat = a.toNat * 2 ^ k + b.toNat := by
  rw [BitVec.toNat_or, BitVec.toNat_shiftLeft, Nat.shiftLeft_eq, Nat.mod_eq_of_lt ha, Nat.mul_comm,
    ← Nat.two_pow_add_eq_or_of_lt hb]

theorem extract_toNat {n : Nat} (w : BitVec n) (start len : Nat) :
    (w.extractLsb' start len).toNat = w.toNat / 2 ^ start % 2 ^ len := by
  simp [BitVec.extractLsb'_toNat, Nat.shiftRight_eq_div_pow]

/-- R39. -/
theorem ext_toNat (hi lo : Half) : (ext hi lo).toNat = hi.toNat * 65536 + lo.toNat := by
  unfold ext
  rw [toNat_shiftLeft_or] <;> simp <;> omega

/-- R61. -/
theorem slot_eq_mod (i : Word) : slot i = i.toNat % 1024 := by
  unfold slot
  simp [BitVec.toNat_and]
  exact Nat.and_two_pow_sub_one_eq_mod i.toNat 10

theorem slot_lt (i : Word) : slot i < 1024 := by
  rw [slot_eq_mod]; omega

/-- R91 as a sum: the timestamp operand modulo 2^29 never reaches the tag bits. -/
theorem packEvent_toNat (e : Bit) (c : Channel) (t : Word) :
    (packEvent e c t).toNat = e.toNat * 2 ^ 31 + c.toNat * 2 ^ 29 + t.toNat % 2 ^ 29 := by
  have he := e.isLt
  have hc := c.isLt
  have ht : (t &&& 0x1FFFFFFF#32).toNat = t.toNat % 2 ^ 29 := by
    simp only [BitVec.toNat_and]
    exact Nat.and_two_pow_sub_one_eq_mod t.toNat 29
  have hcs : (c.setWidth 32).toNat = c.toNat := by simp; omega
  have hes : (e.setWidth 32).toNat = e.toNat := by simp; omega
  have hlow : ((c.setWidth 32 <<< 29) ||| (t &&& 0x1FFFFFFF#32)).toNat = c.toNat * 2 ^ 29 + t.toNat % 2 ^ 29 := by
    rw [toNat_shiftLeft_or, hcs, ht]
    · rw [ht]; omega
    · rw [hcs]; omega
  unfold packEvent
  rw [BitVec.or_assoc, toNat_shiftLeft_or, hes, hlow]
  · omega
  · rw [hlow]; omega
  · rw [hes]; omega

/-- R90: bit 31 of a packed word. -/
theorem packEvent_edge (e : Bit) (c : Channel) (t : Word) : (packEvent e c t).extractLsb' 31 1 = e := by
  apply BitVec.eq_of_toNat_eq
  rw [extract_toNat, packEvent_toNat]
  omega

/-- R90: bits 30:29 of a packed word. -/
theorem packEvent_channel (e : Bit) (c : Channel) (t : Word) : (packEvent e c t).extractLsb' 29 2 = c := by
  apply BitVec.eq_of_toNat_eq
  rw [extract_toNat, packEvent_toNat]
  omega

/-- R90: bits 28:0 of a packed word. -/
theorem packEvent_stamp (e : Bit) (c : Channel) (t : Word) :
    (packEvent e c t).extractLsb' 0 29 = t.extractLsb' 0 29 := by
  apply BitVec.eq_of_toNat_eq
  rw [extract_toNat, extract_toNat, packEvent_toNat]
  omega

/-- R94: the value of four bytes of a packet. -/
theorem ofLeBytes_toNat (b0 b1 b2 b3 : Byte) :
    (ofLeBytes b0 b1 b2 b3).toNat = b3.toNat * 2 ^ 24 + b2.toNat * 2 ^ 16 + b1.toNat * 2 ^ 8 + b0.toNat := by
  have h (b : Byte) : (b.setWidth 32).toNat = b.toNat := by simp; omega
  have h1 : ((b1.setWidth 32 <<< 8) ||| b0.setWidth 32).toNat = b1.toNat * 2 ^ 8 + b0.toNat := by
    rw [toNat_shiftLeft_or, h, h] <;> rw [h] <;> omega
  have h2 : ((b2.setWidth 32 <<< 16) ||| ((b1.setWidth 32 <<< 8) ||| b0.setWidth 32)).toNat
      = b2.toNat * 2 ^ 16 + (b1.toNat * 2 ^ 8 + b0.toNat) := by
    rw [toNat_shiftLeft_or, h, h1]
    · rw [h1]; omega
    · rw [h]; omega
  unfold ofLeBytes
  rw [BitVec.or_assoc, BitVec.or_assoc, toNat_shiftLeft_or, h, h2]
  · omega
  · rw [h2]; omega
  · rw [h]; omega

/-- R62, R94: a word is read back from its four bytes. -/
theorem ofLeBytes_leBytes (w : Word) :
    ofLeBytes (w.extractLsb' 0 8) (w.extractLsb' 8 8) (w.extractLsb' 16 8) (w.extractLsb' 24 8) = w := by
  apply BitVec.eq_of_toNat_eq
  simp only [ofLeBytes_toNat, extract_toNat]
  omega

/-- R62, R94: four bytes are read back from their word. -/
theorem leBytes_ofLeBytes (b0 b1 b2 b3 : Byte) : leBytes (ofLeBytes b0 b1 b2 b3) = [b0, b1, b2, b3] := by
  have e (s : Nat) (b : Byte) (h : (ofLeBytes b0 b1 b2 b3).toNat / 2 ^ s % 2 ^ 8 = b.toNat) :
      (ofLeBytes b0 b1 b2 b3).extractLsb' s 8 = b :=
    BitVec.eq_of_toNat_eq (by rw [extract_toNat, h])
  unfold leBytes
  rw [e 0 b0, e 8 b1, e 16 b2, e 24 b3] <;> rw [ofLeBytes_toNat] <;> omega

theorem leBytes_length (w : Word) : (leBytes w).length = 4 := rfl

/-- The value of an event-word row's word (R99). -/
theorem evwWord_toNat (k : Nat) (t : Stamp) (hk : k < 8) :
    (evwWord (BitVec.ofNat 32 (k * 2 ^ 29)) t).toNat = k * 2 ^ 29 + t.toNat := by
  have h : BitVec.ofNat 32 (k * 2 ^ 29) = BitVec.ofNat 32 k <<< 29 := by
    apply BitVec.eq_of_toNat_eq
    simp [BitVec.toNat_shiftLeft, Nat.shiftLeft_eq]
  have hs : (t.setWidth 32).toNat = t.toNat := by simp; omega
  unfold evwWord
  rw [h, toNat_shiftLeft_or, hs, BitVec.toNat_ofNat, Nat.mod_eq_of_lt (by omega)]
  · rw [hs]; omega
  · rw [BitVec.toNat_ofNat]; omega

/-- The tag bits of a word, as the number the rows' `match` values are eighths of (R99). -/
theorem and_tagMask (w : Word) : w &&& tagMask = BitVec.ofNat 32 (w.toNat / 2 ^ 29 * 2 ^ 29) := by
  have h : w &&& tagMask = (w >>> 29) <<< 29 := by
    ext i hi
    have hm : tagMask.getLsbD i = decide (29 ≤ i) := by
      revert hi; revert i; decide
    simp [← BitVec.getLsbD_eq_getElem, hm]
    by_cases h29 : i < 29
    · simp [h29]
    · have h29' : 29 ≤ i := by omega
      simp [h29, h29', hi, show 29 + (i - 29) = i by omega]
  rw [h]
  apply BitVec.eq_of_toNat_eq
  simp [BitVec.toNat_shiftLeft, Nat.shiftLeft_eq, Nat.shiftRight_eq_div_pow]

/-- The row that three tag bits number (R99). -/
def rowOfTag (k : Nat) (t : Stamp) : Instr :=
  match k with
  | 0 => .evwFall0 t
  | 1 => .evwFall1 t
  | 2 => .evwFall2 t
  | 3 => .evwFall3 t
  | 4 => .evwRise0 t
  | 5 => .evwRise1 t
  | 6 => .evwRise2 t
  | _ => .evwRise3 t

/-- The row of a word is the one its three tag bits number (R99); no word is without one (R97 (a)). -/
theorem decodeWord_eq (w : Word) : decodeWord w = some (rowOfTag (w.toNat / 2 ^ 29) (w.extractLsb' 0 29)) := by
  obtain ⟨k, hk⟩ : ∃ k, k = w.toNat / 2 ^ 29 := ⟨_, rfl⟩
  have hlt : k < 8 := by have := w.isLt; omega
  unfold decodeWord
  rw [and_tagMask, ← hk]
  interval_cases k <;> simp [rowOfTag]

/-- An event-word row's word is decoded to the row, whatever its timestamp field (R99). -/
theorem decodeWord_evwWord (k : Nat) (t : Stamp) (hk : k < 8) :
    decodeWord (evwWord (BitVec.ofNat 32 (k * 2 ^ 29)) t) = some (rowOfTag k t) := by
  have ht := t.isLt
  have h := evwWord_toNat k t hk
  rw [decodeWord_eq, h, show (k * 2 ^ 29 + t.toNat) / 2 ^ 29 = k by omega]
  congr 2
  apply BitVec.eq_of_toNat_eq
  rw [extract_toNat, h]
  omega

end Sys2Proof
end

