-- ==== Sys2Proof/Laws/Memory.lean ====
section
/-! SUPPORT. Laws/Memory.lean: reads after writes in the two storage spaces, and that every write keeps memory in
canonical form (R60). -/

namespace Sys2Proof.Machine

/-! ### One space -/

/-- A read after a write: the value written at its address, the old value elsewhere. -/
theorem cellRead_cellWrite {w : Nat} (m : List (Nat × BitVec w)) (a : Nat) (v : BitVec w) (x : Nat) :
    cellRead (cellWrite m a v) x = if x = a then some v else cellRead m x := by
  induction m with
  | nil => simp [cellWrite, cellRead]
  | cons c rest ih =>
    obtain ⟨b, u⟩ := c
    by_cases h1 : a < b
    · simp [cellWrite, cellRead, h1]
    · by_cases h2 : a = b
      · subst h2
        by_cases h3 : x = a <;> simp [cellWrite, cellRead, h3]
      · by_cases h3 : x = b
        · subst h3
          simp [cellWrite, cellRead, h1, h2, Ne.symm h2]
        · simp [cellWrite, cellRead, h1, h2, h3, ih]

theorem cellsWf_mono {w : Nat} (hi lo lo' : Nat) (m : List (Nat × BitVec w)) (h : lo' ≤ lo)
    (hm : cellsWf hi lo m = true) : cellsWf hi lo' m = true := by
  cases m with
  | nil => rfl
  | cons c rest =>
    simp only [cellsWf, Bool.and_eq_true, decide_eq_true_eq] at *
    exact ⟨⟨by omega, hm.1.2⟩, hm.2⟩

/-- A write inside the space keeps addresses rising and inside it. -/
theorem cellsWf_cellWrite {w : Nat} (hi : Nat) (m : List (Nat × BitVec w)) (a : Nat) (v : BitVec w) (ha : a < hi) :
    ∀ lo, lo ≤ a → cellsWf hi lo m = true → cellsWf hi lo (cellWrite m a v) = true := by
  induction m with
  | nil =>
    intro lo hlo _
    simp [cellWrite, cellsWf, ha, hlo]
  | cons c rest ih =>
    obtain ⟨b, u⟩ := c
    intro lo hlo hm
    simp only [cellsWf, Bool.and_eq_true, decide_eq_true_eq] at hm
    by_cases h1 : a < b
    · have hrest := hm.2
      simp only [cellWrite, h1, if_true, cellsWf, Bool.and_eq_true, decide_eq_true_eq]
      exact ⟨⟨hlo, ha⟩, ⟨by omega, hm.1.2⟩, hrest⟩
    · by_cases h2 : a = b
      · subst h2
        simp only [cellWrite, h1, if_false, if_true, cellsWf, Bool.and_eq_true, decide_eq_true_eq]
        exact ⟨⟨hlo, ha⟩, hm.2⟩
      · simp only [cellWrite, h1, h2, if_false, cellsWf, Bool.and_eq_true, decide_eq_true_eq]
        exact ⟨hm.1, ih (b + 1) (by omega) hm.2⟩

/-! ### The two spaces -/

@[simp] theorem Memory.readSlot_writeSlot (m : Memory) (a : Nat) (v : Word) (x : Nat) :
    (m.writeSlot a v).readSlot x = if x = a then some v else m.readSlot x :=
  cellRead_cellWrite m.qmem a v x

@[simp] theorem Memory.readByte_writeSlot (m : Memory) (a : Nat) (v : Word) (j : Nat) :
    (m.writeSlot a v).readByte j = m.readByte j := rfl

@[simp] theorem Memory.readSlot_writeByte (m : Memory) (j : Nat) (b : Byte) (x : Nat) :
    (m.writeByte j b).readSlot x = m.readSlot x := rfl

theorem Memory.readByte_writeByte (m : Memory) (j : Nat) (b : Byte) (x : Nat) (hj : j < Config.pktMaxBytes) :
    (m.writeByte j b).readByte x = if x = j then some b else m.readByte x := by
  unfold Memory.readByte Memory.writeByte
  by_cases hx : x < Config.pktMaxBytes
  · simp only [hx, if_true, cellRead_cellWrite]
  · have : x ≠ j := by omega
    simp [hx, this]

@[simp] theorem Memory.readSlot_writeBytes (bs : List Byte) :
    ∀ (m : Memory) (j x : Nat), (m.writeBytes j bs).readSlot x = m.readSlot x := by
  induction bs with
  | nil => intros; rfl
  | cons b bs ih => intro m j x; simp [Memory.writeBytes, ih]

/-- A byte read after a string of bytes is written inside `PKT`. -/
theorem Memory.readByte_writeBytes (bs : List Byte) :
    ∀ (m : Memory) (j x : Nat), j + bs.length ≤ Config.pktMaxBytes →
      (m.writeBytes j bs).readByte x =
        if j ≤ x ∧ x < j + bs.length then bs[x - j]? else m.readByte x := by
  induction bs with
  | nil =>
    intro m j x _
    have : ¬ (j ≤ x ∧ x < j) := by omega
    simp [Memory.writeBytes, this]
  | cons b bs ih =>
    intro m j x h
    simp only [List.length_cons] at h
    simp only [Memory.writeBytes, List.length_cons]
    rw [ih _ _ _ (by omega), Memory.readByte_writeByte _ _ _ _ (by omega)]
    by_cases h1 : j + 1 ≤ x ∧ x < j + 1 + bs.length
    · have h2 : j ≤ x ∧ x < j + (bs.length + 1) := by omega
      have h3 : x - j = (x - (j + 1)) + 1 := by omega
      rw [if_pos h1, if_pos h2, h3, List.getElem?_cons_succ]
    · rw [if_neg h1]
      by_cases h4 : x = j
      · subst h4
        simp
      · have h5 : ¬ (j ≤ x ∧ x < j + (bs.length + 1)) := by omega
        rw [if_neg h4, if_neg h5]

@[simp] theorem Memory.qmem_writeBytes (bs : List Byte) :
    ∀ (m : Memory) (j : Nat), (m.writeBytes j bs).qmem = m.qmem := by
  induction bs with
  | nil => intros; rfl
  | cons b bs ih => intro m j; simp [Memory.writeBytes, ih, Memory.writeByte]

/-- The bytes of a range are readable exactly where each of them is. -/
theorem Memory.readBytes_isSome (m : Memory) :
    ∀ (n j : Nat), (m.readBytes j n).isSome = true ↔ ∀ x, j ≤ x → x < j + n → (m.readByte x).isSome = true := by
  intro n
  induction n with
  | zero => intro j; simp [Memory.readBytes]; omega
  | succ n ih =>
    intro j
    simp only [Memory.readBytes]
    constructor
    · intro h x hx hlt
      cases hb : m.readByte j with
      | none => simp [hb] at h
      | some b =>
        cases hbs : m.readBytes (j + 1) n with
        | none => simp [hb, hbs] at h
        | some bs =>
          by_cases hxj : x = j
          · subst hxj; simp [hb]
          · exact (ih (j + 1)).mp (by simp [hbs]) x (by omega) (by omega)
    · intro h
      have hb := h j (by omega) (by omega)
      have hbs := (ih (j + 1)).mpr (fun x hx hlt => h x (by omega) (by omega))
      obtain ⟨b, hb⟩ := Option.isSome_iff_exists.mp hb
      obtain ⟨bs, hbs⟩ := Option.isSome_iff_exists.mp hbs
      simp [hb, hbs]

/-- A range reads the same in two memories that agree on its bytes. -/
theorem Memory.readBytes_congr (m m' : Memory) :
    ∀ (n j : Nat), (∀ x, j ≤ x → x < j + n → m.readByte x = m'.readByte x) → m.readBytes j n = m'.readBytes j n := by
  intro n
  induction n with
  | zero => intros; rfl
  | succ n ih =>
    intro j h
    simp only [Memory.readBytes]
    rw [h j (by omega) (by omega), ih (j + 1) (fun x hx hlt => h x (by omega) (by omega))]

/-- The range that a string of bytes was written to reads as that string. -/
theorem Memory.readBytes_of_getElem? (m : Memory) :
    ∀ (bs : List Byte) (j : Nat), (∀ x, x < bs.length → m.readByte (j + x) = bs[x]?) →
      m.readBytes j bs.length = some bs := by
  intro bs
  induction bs with
  | nil => intros; rfl
  | cons b bs ih =>
    intro j h
    have h0 := h 0 (by simp)
    simp only [Nat.add_zero, List.getElem?_cons_zero] at h0
    have hrest := ih (j + 1) (fun x hx => by
      have := h (x + 1) (by simpa using hx)
      rw [List.getElem?_cons_succ] at this
      rw [← this]
      congr 1
      omega)
    simp [Memory.readBytes, h0, hrest]

/-- A range is its first part and then its second. -/
theorem Memory.readBytes_add (m : Memory) :
    ∀ (a j b : Nat) (xs ys : List Byte), m.readBytes j a = some xs → m.readBytes (j + a) b = some ys →
      m.readBytes j (a + b) = some (xs ++ ys) := by
  intro a
  induction a with
  | zero =>
    intro j b xs ys hx hy
    simp only [Memory.readBytes, Option.some.injEq] at hx
    subst hx
    simpa using hy
  | succ a ih =>
    intro j b xs ys hx hy
    cases hb : m.readByte j with
    | none => simp [Memory.readBytes, hb] at hx
    | some c =>
      cases hbs : m.readBytes (j + 1) a with
      | none => simp [Memory.readBytes, hb, hbs] at hx
      | some cs =>
        simp only [Memory.readBytes, hb, hbs, Option.some.injEq] at hx
        subst hx
        have := ih (j + 1) b cs ys hbs (by rw [show j + 1 + a = j + (a + 1) by omega]; exact hy)
        rw [show a + 1 + b = (a + b) + 1 by omega]
        simp [Memory.readBytes, hb, this]

theorem Memory.readBytes_length (m : Memory) :
    ∀ (n j : Nat) (bs : List Byte), m.readBytes j n = some bs → bs.length = n := by
  intro n
  induction n with
  | zero => intro j bs h; simp only [Memory.readBytes, Option.some.injEq] at h; simp [← h]
  | succ n ih =>
    intro j bs h
    cases hb : m.readByte j with
    | none => simp [Memory.readBytes, hb] at h
    | some c =>
      cases hbs : m.readBytes (j + 1) n with
      | none => simp [Memory.readBytes, hb, hbs] at h
      | some cs =>
        simp only [Memory.readBytes, hb, hbs, Option.some.injEq] at h
        simp [← h, ih _ _ hbs]

/-! ### Canonical form -/

theorem Memory.wf_writeSlot (m : Memory) (a : Nat) (v : Word) (ha : a < Config.queueCapacity)
    (h : m.wf = true) : (m.writeSlot a v).wf = true := by
  simp only [Memory.wf, Bool.and_eq_true] at *
  exact ⟨cellsWf_cellWrite _ _ _ _ ha 0 (Nat.zero_le _) h.1, h.2⟩

theorem Memory.wf_writeByte (m : Memory) (j : Nat) (b : Byte) (hj : j < Config.pktMaxBytes)
    (h : m.wf = true) : (m.writeByte j b).wf = true := by
  simp only [Memory.wf, Bool.and_eq_true] at *
  exact ⟨h.1, cellsWf_cellWrite _ _ _ _ hj 0 (Nat.zero_le _) h.2⟩

theorem Memory.wf_writeBytes (bs : List Byte) :
    ∀ (m : Memory) (j : Nat), j + bs.length ≤ Config.pktMaxBytes → m.wf = true → (m.writeBytes j bs).wf = true := by
  induction bs with
  | nil => intro m j _ h; exact h
  | cons b bs ih =>
    intro m j hj h
    simp only [List.length_cons] at hj
    exact ih _ _ (by omega) (Memory.wf_writeByte _ _ _ (by omega) h)

theorem Memory.wf_reset : Memory.reset.wf = true := rfl

end Sys2Proof.Machine
end

