-- ==== Sys2Proof/Laws/State.lean ====
section
/-! SUPPORT. Laws/State.lean: what each named update of the state does to each field of it, so that no later proof
unfolds an update. -/

namespace Sys2Proof.Machine

@[simp] theorem tickCounters_cntLo (s : State) :
    (tickCounters s).cntLo =
      if s.cntLo = 0xFFFF#16 then 0#16 else s.cntLo + 1#16 := by
  unfold tickCounters; split <;> simp_all
@[simp] theorem tickCounters_cntHi (s : State) :
    (tickCounters s).cntHi =
      if s.cntLo = 0xFFFF#16 then s.cntHi + 1#16 else s.cntHi := by
  unfold tickCounters; split <;> simp_all
@[simp] theorem tickCounters_cntRun (s : State) : (tickCounters s).cntRun = s.cntRun := by
  unfold tickCounters; split <;> rfl
@[simp] theorem tickCounters_mem (s : State) : (tickCounters s).mem = s.mem := by
  unfold tickCounters; split <;> rfl
@[simp] theorem tickCounters_writeIndex (s : State) : (tickCounters s).writeIndex = s.writeIndex := by
  unfold tickCounters; split <;> rfl
@[simp] theorem tickCounters_readIndex (s : State) : (tickCounters s).readIndex = s.readIndex := by
  unfold tickCounters; split <;> rfl
@[simp] theorem tickCounters_irqSrcEn (s : State) : (tickCounters s).irqSrcEn = s.irqSrcEn := by
  unfold tickCounters; split <;> rfl
@[simp] theorem tickCounters_irqMask (s : State) : (tickCounters s).irqMask = s.irqMask := by
  unfold tickCounters; split <;> rfl
@[simp] theorem tickCounters_lastSent (s : State) : (tickCounters s).lastSent = s.lastSent := by
  unfold tickCounters; split <;> rfl
@[simp] theorem tickCounters_pktLen (s : State) : (tickCounters s).pktLen = s.pktLen := by
  unfold tickCounters; split <;> rfl
@[simp] theorem tickCounters_m (s : State) : (tickCounters s).m = s.m := by
  unfold tickCounters; split <;> rfl
@[simp] theorem tickCounters_i (s : State) : (tickCounters s).i = s.i := by
  unfold tickCounters; split <;> rfl
@[simp] theorem tickCounters_mpc (s : State) : (tickCounters s).mpc = s.mpc := by
  unfold tickCounters; split <;> rfl
@[simp] theorem tickCounters_ipc (s : State) : (tickCounters s).ipc = s.ipc := by
  unfold tickCounters; split <;> rfl
@[simp] theorem tickCounters_wire (s : State) : (tickCounters s).wire = s.wire := by
  unfold tickCounters; split <;> rfl
@[simp] theorem tickCounters_env (s : State) : (tickCounters s).env = s.env := by
  unfold tickCounters; split <;> rfl
@[simp] theorem tickCounters_host (s : State) : (tickCounters s).host = s.host := by
  unfold tickCounters; split <;> rfl

@[simp] theorem clkStepM_cntLo (p : ClkPhase) (s : State) : (clkStepM p s).cntLo = s.cntLo := rfl
@[simp] theorem clkStepM_cntHi (p : ClkPhase) (s : State) : (clkStepM p s).cntHi = s.cntHi := rfl
@[simp] theorem clkStepM_cntRun (p : ClkPhase) (s : State) : (clkStepM p s).cntRun = s.cntRun := rfl
@[simp] theorem clkStepM_mem (p : ClkPhase) (s : State) : (clkStepM p s).mem = s.mem := rfl
@[simp] theorem clkStepM_writeIndex (p : ClkPhase) (s : State) : (clkStepM p s).writeIndex = s.writeIndex := rfl
@[simp] theorem clkStepM_readIndex (p : ClkPhase) (s : State) : (clkStepM p s).readIndex = s.readIndex := rfl
@[simp] theorem clkStepM_irqSrcEn (p : ClkPhase) (s : State) : (clkStepM p s).irqSrcEn = s.irqSrcEn := rfl
@[simp] theorem clkStepM_irqMask (p : ClkPhase) (s : State) : (clkStepM p s).irqMask = s.irqMask := rfl
@[simp] theorem clkStepM_lastSent (p : ClkPhase) (s : State) : (clkStepM p s).lastSent = s.lastSent := rfl
@[simp] theorem clkStepM_pktLen (p : ClkPhase) (s : State) : (clkStepM p s).pktLen = s.pktLen := rfl
@[simp] theorem clkStepM_m (p : ClkPhase) (s : State) :
    (clkStepM p s).m =
      { s.m with clk := clkStep s.cntHi s.cntLo s.m.clk p } := rfl
@[simp] theorem clkStepM_i (p : ClkPhase) (s : State) : (clkStepM p s).i = s.i := rfl
@[simp] theorem clkStepM_mpc (p : ClkPhase) (s : State) :
    (clkStepM p s).mpc =
      Mpc.ofClk (clkNext s.cntHi s.m.clk p) := rfl
@[simp] theorem clkStepM_ipc (p : ClkPhase) (s : State) : (clkStepM p s).ipc = s.ipc := rfl
@[simp] theorem clkStepM_wire (p : ClkPhase) (s : State) : (clkStepM p s).wire = s.wire := rfl
@[simp] theorem clkStepM_env (p : ClkPhase) (s : State) : (clkStepM p s).env = s.env := rfl
@[simp] theorem clkStepM_host (p : ClkPhase) (s : State) : (clkStepM p s).host = s.host := rfl

@[simp] theorem clkStepI_cntLo (p : ClkPhase) (s : State) : (clkStepI p s).cntLo = s.cntLo := rfl
@[simp] theorem clkStepI_cntHi (p : ClkPhase) (s : State) : (clkStepI p s).cntHi = s.cntHi := rfl
@[simp] theorem clkStepI_cntRun (p : ClkPhase) (s : State) : (clkStepI p s).cntRun = s.cntRun := rfl
@[simp] theorem clkStepI_mem (p : ClkPhase) (s : State) : (clkStepI p s).mem = s.mem := rfl
@[simp] theorem clkStepI_writeIndex (p : ClkPhase) (s : State) : (clkStepI p s).writeIndex = s.writeIndex := rfl
@[simp] theorem clkStepI_readIndex (p : ClkPhase) (s : State) : (clkStepI p s).readIndex = s.readIndex := rfl
@[simp] theorem clkStepI_irqSrcEn (p : ClkPhase) (s : State) : (clkStepI p s).irqSrcEn = s.irqSrcEn := rfl
@[simp] theorem clkStepI_irqMask (p : ClkPhase) (s : State) : (clkStepI p s).irqMask = s.irqMask := rfl
@[simp] theorem clkStepI_lastSent (p : ClkPhase) (s : State) : (clkStepI p s).lastSent = s.lastSent := rfl
@[simp] theorem clkStepI_pktLen (p : ClkPhase) (s : State) : (clkStepI p s).pktLen = s.pktLen := rfl
@[simp] theorem clkStepI_m (p : ClkPhase) (s : State) : (clkStepI p s).m = s.m := rfl
@[simp] theorem clkStepI_i (p : ClkPhase) (s : State) :
    (clkStepI p s).i =
      { s.i with clk := clkStep s.cntHi s.cntLo s.i.clk p } := rfl
@[simp] theorem clkStepI_mpc (p : ClkPhase) (s : State) : (clkStepI p s).mpc = s.mpc := rfl
@[simp] theorem clkStepI_ipc (p : ClkPhase) (s : State) :
    (clkStepI p s).ipc =
      Ipc.ofClk (clkNext s.cntHi s.i.clk p) := rfl
@[simp] theorem clkStepI_wire (p : ClkPhase) (s : State) : (clkStepI p s).wire = s.wire := rfl
@[simp] theorem clkStepI_env (p : ClkPhase) (s : State) : (clkStepI p s).env = s.env := rfl
@[simp] theorem clkStepI_host (p : ClkPhase) (s : State) : (clkStepI p s).host = s.host := rfl

@[simp] theorem enterIrq_cntLo (p : Pin) (s : State) : (enterIrq p s).cntLo = s.cntLo := by
  unfold enterIrq; split <;> rfl
@[simp] theorem enterIrq_cntHi (p : Pin) (s : State) : (enterIrq p s).cntHi = s.cntHi := by
  unfold enterIrq; split <;> rfl
@[simp] theorem enterIrq_cntRun (p : Pin) (s : State) : (enterIrq p s).cntRun = s.cntRun := by
  unfold enterIrq; split <;> rfl
@[simp] theorem enterIrq_mem (p : Pin) (s : State) : (enterIrq p s).mem = s.mem := by
  unfold enterIrq; split <;> rfl
@[simp] theorem enterIrq_writeIndex (p : Pin) (s : State) : (enterIrq p s).writeIndex = s.writeIndex := by
  unfold enterIrq; split <;> rfl
@[simp] theorem enterIrq_readIndex (p : Pin) (s : State) : (enterIrq p s).readIndex = s.readIndex := by
  unfold enterIrq; split <;> rfl
@[simp] theorem enterIrq_irqSrcEn (p : Pin) (s : State) : (enterIrq p s).irqSrcEn = s.irqSrcEn := by
  unfold enterIrq; split <;> rfl
@[simp] theorem enterIrq_irqMask (p : Pin) (s : State) : (enterIrq p s).irqMask = s.irqMask := by
  unfold enterIrq; split <;> rfl
@[simp] theorem enterIrq_lastSent (p : Pin) (s : State) : (enterIrq p s).lastSent = s.lastSent := by
  unfold enterIrq; split <;> rfl
@[simp] theorem enterIrq_pktLen (p : Pin) (s : State) : (enterIrq p s).pktLen = s.pktLen := by
  unfold enterIrq; split <;> rfl
@[simp] theorem enterIrq_m (p : Pin) (s : State) : (enterIrq p s).m = s.m := by
  unfold enterIrq; split <;> rfl
@[simp] theorem enterIrq_mpc (p : Pin) (s : State) : (enterIrq p s).mpc = s.mpc := by
  unfold enterIrq; split <;> rfl
@[simp] theorem enterIrq_wire (p : Pin) (s : State) : (enterIrq p s).wire = s.wire := by
  unfold enterIrq; split <;> rfl
@[simp] theorem enterIrq_env (p : Pin) (s : State) : (enterIrq p s).env = s.env := by
  unfold enterIrq; split <;> rfl
@[simp] theorem enterIrq_host (p : Pin) (s : State) : (enterIrq p s).host = s.host := by
  unfold enterIrq; split <;> rfl

@[simp] theorem returnIrq_cntLo (s : State) : (returnIrq s).cntLo = s.cntLo := rfl
@[simp] theorem returnIrq_cntHi (s : State) : (returnIrq s).cntHi = s.cntHi := rfl
@[simp] theorem returnIrq_cntRun (s : State) : (returnIrq s).cntRun = s.cntRun := rfl
@[simp] theorem returnIrq_mem (s : State) : (returnIrq s).mem = s.mem := rfl
@[simp] theorem returnIrq_writeIndex (s : State) : (returnIrq s).writeIndex = s.writeIndex := rfl
@[simp] theorem returnIrq_readIndex (s : State) : (returnIrq s).readIndex = s.readIndex := rfl
@[simp] theorem returnIrq_irqSrcEn (s : State) : (returnIrq s).irqSrcEn = s.irqSrcEn := rfl
@[simp] theorem returnIrq_irqMask (s : State) : (returnIrq s).irqMask = s.irqMask := rfl
@[simp] theorem returnIrq_lastSent (s : State) : (returnIrq s).lastSent = s.lastSent := rfl
@[simp] theorem returnIrq_pktLen (s : State) : (returnIrq s).pktLen = s.pktLen := rfl
@[simp] theorem returnIrq_m (s : State) : (returnIrq s).m = s.m := rfl
@[simp] theorem returnIrq_i (s : State) : (returnIrq s).i = s.i := rfl
@[simp] theorem returnIrq_mpc (s : State) : (returnIrq s).mpc = s.mpc := rfl
@[simp] theorem returnIrq_ipc (s : State) : (returnIrq s).ipc = .iIdle := rfl
@[simp] theorem returnIrq_wire (s : State) : (returnIrq s).wire = s.wire := rfl
@[simp] theorem returnIrq_env (s : State) : (returnIrq s).env = s.env := rfl
@[simp] theorem returnIrq_host (s : State) : (returnIrq s).host = s.host := rfl

@[simp] theorem pushWord_cntLo (w : Word) (s : State) : (pushWord w s).cntLo = s.cntLo := by
  unfold pushWord; split <;> rfl
@[simp] theorem pushWord_cntHi (w : Word) (s : State) : (pushWord w s).cntHi = s.cntHi := by
  unfold pushWord; split <;> rfl
@[simp] theorem pushWord_cntRun (w : Word) (s : State) : (pushWord w s).cntRun = s.cntRun := by
  unfold pushWord; split <;> rfl
@[simp] theorem pushWord_mem (w : Word) (s : State) :
    (pushWord w s).mem =
      if pushFits (s.writeIndex + 1#32) s.readIndex then s.mem.writeSlot (slot s.writeIndex) w else s.mem := by
  unfold pushWord; split <;> simp_all
@[simp] theorem pushWord_writeIndex (w : Word) (s : State) :
    (pushWord w s).writeIndex =
      if pushFits (s.writeIndex + 1#32) s.readIndex then s.writeIndex + 1#32 else s.writeIndex := by
  unfold pushWord; split <;> simp_all
@[simp] theorem pushWord_readIndex (w : Word) (s : State) : (pushWord w s).readIndex = s.readIndex := by
  unfold pushWord; split <;> rfl
@[simp] theorem pushWord_irqSrcEn (w : Word) (s : State) : (pushWord w s).irqSrcEn = s.irqSrcEn := by
  unfold pushWord; split <;> rfl
@[simp] theorem pushWord_irqMask (w : Word) (s : State) : (pushWord w s).irqMask = s.irqMask := by
  unfold pushWord; split <;> rfl
@[simp] theorem pushWord_lastSent (w : Word) (s : State) : (pushWord w s).lastSent = s.lastSent := by
  unfold pushWord; split <;> rfl
@[simp] theorem pushWord_pktLen (w : Word) (s : State) : (pushWord w s).pktLen = s.pktLen := by
  unfold pushWord; split <;> rfl
@[simp] theorem pushWord_m (w : Word) (s : State) : (pushWord w s).m = s.m := by
  unfold pushWord; split <;> rfl
@[simp] theorem pushWord_i (w : Word) (s : State) :
    (pushWord w s).i =
      { s.i with next := s.writeIndex + 1#32, r := s.readIndex, ok := pushFits (s.writeIndex + 1#32) s.readIndex } := by
  unfold pushWord; split <;> simp_all
@[simp] theorem pushWord_mpc (w : Word) (s : State) : (pushWord w s).mpc = s.mpc := by
  unfold pushWord; split <;> rfl
@[simp] theorem pushWord_ipc (w : Word) (s : State) : (pushWord w s).ipc = s.ipc := by
  unfold pushWord; split <;> rfl
@[simp] theorem pushWord_wire (w : Word) (s : State) : (pushWord w s).wire = s.wire := by
  unfold pushWord; split <;> rfl
@[simp] theorem pushWord_env (w : Word) (s : State) : (pushWord w s).env = s.env := by
  unfold pushWord; split <;> rfl
@[simp] theorem pushWord_host (w : Word) (s : State) : (pushWord w s).host = s.host := by
  unfold pushWord; split <;> rfl

@[simp] theorem samplePack_cntLo (s : State) : (samplePack s).cntLo = s.cntLo := rfl
@[simp] theorem samplePack_cntHi (s : State) : (samplePack s).cntHi = s.cntHi := rfl
@[simp] theorem samplePack_cntRun (s : State) : (samplePack s).cntRun = s.cntRun := rfl
@[simp] theorem samplePack_mem (s : State) : (samplePack s).mem = s.mem := rfl
@[simp] theorem samplePack_writeIndex (s : State) : (samplePack s).writeIndex = s.writeIndex := rfl
@[simp] theorem samplePack_readIndex (s : State) : (samplePack s).readIndex = s.readIndex := rfl
@[simp] theorem samplePack_irqSrcEn (s : State) : (samplePack s).irqSrcEn = s.irqSrcEn := rfl
@[simp] theorem samplePack_irqMask (s : State) : (samplePack s).irqMask = s.irqMask := rfl
@[simp] theorem samplePack_lastSent (s : State) : (samplePack s).lastSent = s.lastSent := rfl
@[simp] theorem samplePack_pktLen (s : State) : (samplePack s).pktLen = s.pktLen := rfl
@[simp] theorem samplePack_m (s : State) : (samplePack s).m = s.m := rfl
@[simp] theorem samplePack_i (s : State) :
    (samplePack s).i =
      { s.i with edge := s.env.level s.i.pin, word := edgeWord s } := rfl
@[simp] theorem samplePack_mpc (s : State) : (samplePack s).mpc = s.mpc := rfl
@[simp] theorem samplePack_ipc (s : State) : (samplePack s).ipc = s.ipc := rfl
@[simp] theorem samplePack_wire (s : State) : (samplePack s).wire = s.wire := rfl
@[simp] theorem samplePack_env (s : State) : (samplePack s).env = s.env.afterLevel := rfl
@[simp] theorem samplePack_host (s : State) : (samplePack s).host = s.host := rfl

@[simp] theorem edgeFinish_cntLo (s : State) : (edgeFinish s).cntLo = s.cntLo := by
  unfold edgeFinish; rw [returnIrq_cntLo, pushWord_cntLo]; rfl
@[simp] theorem edgeFinish_cntHi (s : State) : (edgeFinish s).cntHi = s.cntHi := by
  unfold edgeFinish; rw [returnIrq_cntHi, pushWord_cntHi]; rfl
@[simp] theorem edgeFinish_cntRun (s : State) : (edgeFinish s).cntRun = s.cntRun := by
  unfold edgeFinish; rw [returnIrq_cntRun, pushWord_cntRun]; rfl
@[simp] theorem edgeFinish_mem (s : State) :
    (edgeFinish s).mem =
      if pushFits (s.writeIndex + 1#32) s.readIndex then s.mem.writeSlot (slot s.writeIndex) (edgeWord s) else s.mem := by
  unfold edgeFinish; rw [returnIrq_mem, pushWord_mem]; rfl
@[simp] theorem edgeFinish_writeIndex (s : State) :
    (edgeFinish s).writeIndex =
      if pushFits (s.writeIndex + 1#32) s.readIndex then s.writeIndex + 1#32 else s.writeIndex := by
  unfold edgeFinish; rw [returnIrq_writeIndex, pushWord_writeIndex]; rfl
@[simp] theorem edgeFinish_readIndex (s : State) : (edgeFinish s).readIndex = s.readIndex := by
  unfold edgeFinish; rw [returnIrq_readIndex, pushWord_readIndex]; rfl
@[simp] theorem edgeFinish_irqSrcEn (s : State) : (edgeFinish s).irqSrcEn = s.irqSrcEn := by
  unfold edgeFinish; rw [returnIrq_irqSrcEn, pushWord_irqSrcEn]; rfl
@[simp] theorem edgeFinish_irqMask (s : State) : (edgeFinish s).irqMask = s.irqMask := by
  unfold edgeFinish; rw [returnIrq_irqMask, pushWord_irqMask]; rfl
@[simp] theorem edgeFinish_lastSent (s : State) : (edgeFinish s).lastSent = s.lastSent := by
  unfold edgeFinish; rw [returnIrq_lastSent, pushWord_lastSent]; rfl
@[simp] theorem edgeFinish_pktLen (s : State) : (edgeFinish s).pktLen = s.pktLen := by
  unfold edgeFinish; rw [returnIrq_pktLen, pushWord_pktLen]; rfl
@[simp] theorem edgeFinish_m (s : State) : (edgeFinish s).m = s.m := by
  unfold edgeFinish; rw [returnIrq_m, pushWord_m]; rfl
@[simp] theorem edgeFinish_i (s : State) :
    (edgeFinish s).i =
      { s.i with edge := s.env.level s.i.pin, word := edgeWord s, next := s.writeIndex + 1#32, r := s.readIndex, ok := pushFits (s.writeIndex + 1#32) s.readIndex } := by
  unfold edgeFinish; rw [returnIrq_i, pushWord_i]; rfl
@[simp] theorem edgeFinish_mpc (s : State) : (edgeFinish s).mpc = s.mpc := by
  unfold edgeFinish; rw [returnIrq_mpc, pushWord_mpc]; rfl
@[simp] theorem edgeFinish_ipc (s : State) : (edgeFinish s).ipc = .iIdle := rfl
@[simp] theorem edgeFinish_wire (s : State) : (edgeFinish s).wire = s.wire := by
  unfold edgeFinish; rw [returnIrq_wire, pushWord_wire]; rfl
@[simp] theorem edgeFinish_env (s : State) : (edgeFinish s).env = s.env.afterLevel := by
  unfold edgeFinish; rw [returnIrq_env, pushWord_env]; rfl
@[simp] theorem edgeFinish_host (s : State) : (edgeFinish s).host = s.host := by
  unfold edgeFinish; rw [returnIrq_host, pushWord_host]; rfl

@[simp] theorem enterCritical_cntLo (s : State) : (enterCritical s).cntLo = s.cntLo := rfl
@[simp] theorem enterCritical_cntHi (s : State) : (enterCritical s).cntHi = s.cntHi := rfl
@[simp] theorem enterCritical_cntRun (s : State) : (enterCritical s).cntRun = s.cntRun := rfl
@[simp] theorem enterCritical_mem (s : State) : (enterCritical s).mem = s.mem := rfl
@[simp] theorem enterCritical_writeIndex (s : State) : (enterCritical s).writeIndex = s.writeIndex := rfl
@[simp] theorem enterCritical_readIndex (s : State) : (enterCritical s).readIndex = s.readIndex := rfl
@[simp] theorem enterCritical_irqSrcEn (s : State) : (enterCritical s).irqSrcEn = s.irqSrcEn := rfl
@[simp] theorem enterCritical_irqMask (s : State) : (enterCritical s).irqMask = true := rfl
@[simp] theorem enterCritical_lastSent (s : State) : (enterCritical s).lastSent = s.lastSent := rfl
@[simp] theorem enterCritical_pktLen (s : State) : (enterCritical s).pktLen = s.pktLen := rfl
@[simp] theorem enterCritical_m (s : State) : (enterCritical s).m = s.m := rfl
@[simp] theorem enterCritical_i (s : State) : (enterCritical s).i = s.i := rfl
@[simp] theorem enterCritical_mpc (s : State) : (enterCritical s).mpc = .mSnapW := rfl
@[simp] theorem enterCritical_ipc (s : State) : (enterCritical s).ipc = s.ipc := rfl
@[simp] theorem enterCritical_wire (s : State) : (enterCritical s).wire = s.wire := rfl
@[simp] theorem enterCritical_env (s : State) : (enterCritical s).env = s.env := rfl
@[simp] theorem enterCritical_host (s : State) : (enterCritical s).host = s.host := rfl

@[simp] theorem snapWrite_cntLo (s : State) : (snapWrite s).cntLo = s.cntLo := rfl
@[simp] theorem snapWrite_cntHi (s : State) : (snapWrite s).cntHi = s.cntHi := rfl
@[simp] theorem snapWrite_cntRun (s : State) : (snapWrite s).cntRun = s.cntRun := rfl
@[simp] theorem snapWrite_mem (s : State) : (snapWrite s).mem = s.mem := rfl
@[simp] theorem snapWrite_writeIndex (s : State) : (snapWrite s).writeIndex = s.writeIndex := rfl
@[simp] theorem snapWrite_readIndex (s : State) : (snapWrite s).readIndex = s.readIndex := rfl
@[simp] theorem snapWrite_irqSrcEn (s : State) : (snapWrite s).irqSrcEn = s.irqSrcEn := rfl
@[simp] theorem snapWrite_irqMask (s : State) : (snapWrite s).irqMask = s.irqMask := rfl
@[simp] theorem snapWrite_lastSent (s : State) : (snapWrite s).lastSent = s.lastSent := rfl
@[simp] theorem snapWrite_pktLen (s : State) : (snapWrite s).pktLen = s.pktLen := rfl
@[simp] theorem snapWrite_m (s : State) : (snapWrite s).m = { s.m with w := s.writeIndex } := rfl
@[simp] theorem snapWrite_i (s : State) : (snapWrite s).i = s.i := rfl
@[simp] theorem snapWrite_mpc (s : State) : (snapWrite s).mpc = .mSnapR := rfl
@[simp] theorem snapWrite_ipc (s : State) : (snapWrite s).ipc = s.ipc := rfl
@[simp] theorem snapWrite_wire (s : State) : (snapWrite s).wire = s.wire := rfl
@[simp] theorem snapWrite_env (s : State) : (snapWrite s).env = s.env := rfl
@[simp] theorem snapWrite_host (s : State) : (snapWrite s).host = s.host := rfl

@[simp] theorem snapRead_cntLo (s : State) : (snapRead s).cntLo = s.cntLo := rfl
@[simp] theorem snapRead_cntHi (s : State) : (snapRead s).cntHi = s.cntHi := rfl
@[simp] theorem snapRead_cntRun (s : State) : (snapRead s).cntRun = s.cntRun := rfl
@[simp] theorem snapRead_mem (s : State) : (snapRead s).mem = s.mem := rfl
@[simp] theorem snapRead_writeIndex (s : State) : (snapRead s).writeIndex = s.writeIndex := rfl
@[simp] theorem snapRead_readIndex (s : State) : (snapRead s).readIndex = s.readIndex := rfl
@[simp] theorem snapRead_irqSrcEn (s : State) : (snapRead s).irqSrcEn = s.irqSrcEn := rfl
@[simp] theorem snapRead_irqMask (s : State) : (snapRead s).irqMask = s.irqMask := rfl
@[simp] theorem snapRead_lastSent (s : State) : (snapRead s).lastSent = s.lastSent := rfl
@[simp] theorem snapRead_pktLen (s : State) : (snapRead s).pktLen = s.pktLen := rfl
@[simp] theorem snapRead_m (s : State) : (snapRead s).m = { s.m with r := s.readIndex } := rfl
@[simp] theorem snapRead_i (s : State) : (snapRead s).i = s.i := rfl
@[simp] theorem snapRead_mpc (s : State) : (snapRead s).mpc = .mSnapExit := rfl
@[simp] theorem snapRead_ipc (s : State) : (snapRead s).ipc = s.ipc := rfl
@[simp] theorem snapRead_wire (s : State) : (snapRead s).wire = s.wire := rfl
@[simp] theorem snapRead_env (s : State) : (snapRead s).env = s.env := rfl
@[simp] theorem snapRead_host (s : State) : (snapRead s).host = s.host := rfl

@[simp] theorem exitCritical_cntLo (s : State) : (exitCritical s).cntLo = s.cntLo := rfl
@[simp] theorem exitCritical_cntHi (s : State) : (exitCritical s).cntHi = s.cntHi := rfl
@[simp] theorem exitCritical_cntRun (s : State) : (exitCritical s).cntRun = s.cntRun := rfl
@[simp] theorem exitCritical_mem (s : State) : (exitCritical s).mem = s.mem := rfl
@[simp] theorem exitCritical_writeIndex (s : State) : (exitCritical s).writeIndex = s.writeIndex := rfl
@[simp] theorem exitCritical_readIndex (s : State) : (exitCritical s).readIndex = s.readIndex := rfl
@[simp] theorem exitCritical_irqSrcEn (s : State) : (exitCritical s).irqSrcEn = s.irqSrcEn := rfl
@[simp] theorem exitCritical_irqMask (s : State) : (exitCritical s).irqMask = false := rfl
@[simp] theorem exitCritical_lastSent (s : State) : (exitCritical s).lastSent = s.lastSent := rfl
@[simp] theorem exitCritical_pktLen (s : State) : (exitCritical s).pktLen = s.pktLen := rfl
@[simp] theorem exitCritical_m (s : State) : (exitCritical s).m = { s.m with avail := s.m.w - s.m.r } := rfl
@[simp] theorem exitCritical_i (s : State) : (exitCritical s).i = s.i := rfl
@[simp] theorem exitCritical_mpc (s : State) : (exitCritical s).mpc = .mDecide := rfl
@[simp] theorem exitCritical_ipc (s : State) : (exitCritical s).ipc = s.ipc := rfl
@[simp] theorem exitCritical_wire (s : State) : (exitCritical s).wire = s.wire := rfl
@[simp] theorem exitCritical_env (s : State) : (exitCritical s).env = s.env := rfl
@[simp] theorem exitCritical_host (s : State) : (exitCritical s).host = s.host := rfl

@[simp] theorem decideFlush_cntLo (s : State) : (decideFlush s).cntLo = s.cntLo := rfl
@[simp] theorem decideFlush_cntHi (s : State) : (decideFlush s).cntHi = s.cntHi := rfl
@[simp] theorem decideFlush_cntRun (s : State) : (decideFlush s).cntRun = s.cntRun := rfl
@[simp] theorem decideFlush_mem (s : State) : (decideFlush s).mem = s.mem := rfl
@[simp] theorem decideFlush_writeIndex (s : State) : (decideFlush s).writeIndex = s.writeIndex := rfl
@[simp] theorem decideFlush_readIndex (s : State) : (decideFlush s).readIndex = s.readIndex := rfl
@[simp] theorem decideFlush_irqSrcEn (s : State) : (decideFlush s).irqSrcEn = s.irqSrcEn := rfl
@[simp] theorem decideFlush_irqMask (s : State) : (decideFlush s).irqMask = s.irqMask := rfl
@[simp] theorem decideFlush_lastSent (s : State) : (decideFlush s).lastSent = s.lastSent := rfl
@[simp] theorem decideFlush_pktLen (s : State) : (decideFlush s).pktLen = 0 := rfl
@[simp] theorem decideFlush_m (s : State) :
    (decideFlush s).m =
      { s.m with now := s.env.wall, n := BitVec.ofNat 5 (toSend s.m.avail s.env.wall s.lastSent), k := 0#5 } := rfl
@[simp] theorem decideFlush_i (s : State) : (decideFlush s).i = s.i := rfl
@[simp] theorem decideFlush_mpc (s : State) :
    (decideFlush s).mpc =
      if 0 < toSend s.m.avail s.env.wall s.lastSent then .mDrain else .mGR1 := rfl
@[simp] theorem decideFlush_ipc (s : State) : (decideFlush s).ipc = s.ipc := rfl
@[simp] theorem decideFlush_wire (s : State) : (decideFlush s).wire = s.wire := rfl
@[simp] theorem decideFlush_env (s : State) : (decideFlush s).env = s.env.afterWall := rfl
@[simp] theorem decideFlush_host (s : State) : (decideFlush s).host = s.host := rfl

@[simp] theorem serializeWord_cntLo (w : Word) (s : State) : (serializeWord w s).cntLo = s.cntLo := rfl
@[simp] theorem serializeWord_cntHi (w : Word) (s : State) : (serializeWord w s).cntHi = s.cntHi := rfl
@[simp] theorem serializeWord_cntRun (w : Word) (s : State) : (serializeWord w s).cntRun = s.cntRun := rfl
@[simp] theorem serializeWord_mem (w : Word) (s : State) :
    (serializeWord w s).mem =
      s.mem.writeBytes (4 * s.m.k.toNat) (leBytes w) := rfl
@[simp] theorem serializeWord_writeIndex (w : Word) (s : State) : (serializeWord w s).writeIndex = s.writeIndex := rfl
@[simp] theorem serializeWord_readIndex (w : Word) (s : State) : (serializeWord w s).readIndex = s.readIndex := rfl
@[simp] theorem serializeWord_irqSrcEn (w : Word) (s : State) : (serializeWord w s).irqSrcEn = s.irqSrcEn := rfl
@[simp] theorem serializeWord_irqMask (w : Word) (s : State) : (serializeWord w s).irqMask = s.irqMask := rfl
@[simp] theorem serializeWord_lastSent (w : Word) (s : State) : (serializeWord w s).lastSent = s.lastSent := rfl
@[simp] theorem serializeWord_pktLen (w : Word) (s : State) : (serializeWord w s).pktLen = s.pktLen + 4 := rfl
@[simp] theorem serializeWord_m (w : Word) (s : State) : (serializeWord w s).m = s.m := rfl
@[simp] theorem serializeWord_i (w : Word) (s : State) : (serializeWord w s).i = s.i := rfl
@[simp] theorem serializeWord_mpc (w : Word) (s : State) : (serializeWord w s).mpc = s.mpc := rfl
@[simp] theorem serializeWord_ipc (w : Word) (s : State) : (serializeWord w s).ipc = s.ipc := rfl
@[simp] theorem serializeWord_wire (w : Word) (s : State) : (serializeWord w s).wire = s.wire := rfl
@[simp] theorem serializeWord_env (w : Word) (s : State) : (serializeWord w s).env = s.env := rfl
@[simp] theorem serializeWord_host (w : Word) (s : State) : (serializeWord w s).host = s.host := rfl

@[simp] theorem advanceDrain_cntLo (s : State) : (advanceDrain s).cntLo = s.cntLo := rfl
@[simp] theorem advanceDrain_cntHi (s : State) : (advanceDrain s).cntHi = s.cntHi := rfl
@[simp] theorem advanceDrain_cntRun (s : State) : (advanceDrain s).cntRun = s.cntRun := rfl
@[simp] theorem advanceDrain_mem (s : State) : (advanceDrain s).mem = s.mem := rfl
@[simp] theorem advanceDrain_writeIndex (s : State) : (advanceDrain s).writeIndex = s.writeIndex := rfl
@[simp] theorem advanceDrain_readIndex (s : State) : (advanceDrain s).readIndex = s.readIndex + 1#32 := rfl
@[simp] theorem advanceDrain_irqSrcEn (s : State) : (advanceDrain s).irqSrcEn = s.irqSrcEn := rfl
@[simp] theorem advanceDrain_irqMask (s : State) : (advanceDrain s).irqMask = s.irqMask := rfl
@[simp] theorem advanceDrain_lastSent (s : State) : (advanceDrain s).lastSent = s.lastSent := rfl
@[simp] theorem advanceDrain_pktLen (s : State) : (advanceDrain s).pktLen = s.pktLen := rfl
@[simp] theorem advanceDrain_m (s : State) : (advanceDrain s).m = { s.m with k := s.m.k + 1#5 } := rfl
@[simp] theorem advanceDrain_i (s : State) : (advanceDrain s).i = s.i := rfl
@[simp] theorem advanceDrain_mpc (s : State) :
    (advanceDrain s).mpc =
      if s.m.k + 1#5 < s.m.n then .mDrain else .mSubmit := rfl
@[simp] theorem advanceDrain_ipc (s : State) : (advanceDrain s).ipc = s.ipc := rfl
@[simp] theorem advanceDrain_wire (s : State) : (advanceDrain s).wire = s.wire := rfl
@[simp] theorem advanceDrain_env (s : State) : (advanceDrain s).env = s.env := rfl
@[simp] theorem advanceDrain_host (s : State) : (advanceDrain s).host = s.host := rfl

@[simp] theorem answerSend_cntLo (bytes : List Byte) (s : State) : (answerSend bytes s).cntLo = s.cntLo := by
  unfold answerSend; split <;> rfl
@[simp] theorem answerSend_cntHi (bytes : List Byte) (s : State) : (answerSend bytes s).cntHi = s.cntHi := by
  unfold answerSend; split <;> rfl
@[simp] theorem answerSend_cntRun (bytes : List Byte) (s : State) : (answerSend bytes s).cntRun = s.cntRun := by
  unfold answerSend; split <;> rfl
@[simp] theorem answerSend_mem (bytes : List Byte) (s : State) : (answerSend bytes s).mem = s.mem := by
  unfold answerSend; split <;> rfl
@[simp] theorem answerSend_writeIndex (bytes : List Byte) (s : State) :
    (answerSend bytes s).writeIndex =
      s.writeIndex := by
  unfold answerSend; split <;> rfl
@[simp] theorem answerSend_readIndex (bytes : List Byte) (s : State) :
    (answerSend bytes s).readIndex =
      s.readIndex := by
  unfold answerSend; split <;> rfl
@[simp] theorem answerSend_irqSrcEn (bytes : List Byte) (s : State) : (answerSend bytes s).irqSrcEn = s.irqSrcEn := by
  unfold answerSend; split <;> rfl
@[simp] theorem answerSend_irqMask (bytes : List Byte) (s : State) : (answerSend bytes s).irqMask = s.irqMask := by
  unfold answerSend; split <;> rfl
@[simp] theorem answerSend_lastSent (bytes : List Byte) (s : State) :
    (answerSend bytes s).lastSent =
      if s.env.answer = .accepted then s.m.now else s.lastSent := by
  unfold answerSend; split <;> simp_all
@[simp] theorem answerSend_pktLen (bytes : List Byte) (s : State) : (answerSend bytes s).pktLen = s.pktLen := by
  unfold answerSend; split <;> rfl
@[simp] theorem answerSend_m (bytes : List Byte) (s : State) : (answerSend bytes s).m = s.m := by
  unfold answerSend; split <;> rfl
@[simp] theorem answerSend_i (bytes : List Byte) (s : State) : (answerSend bytes s).i = s.i := by
  unfold answerSend; split <;> rfl
@[simp] theorem answerSend_mpc (bytes : List Byte) (s : State) :
    (answerSend bytes s).mpc =
      if s.env.answer = .accepted then .mGR1 else .mSubmit := by
  unfold answerSend; split <;> simp_all
@[simp] theorem answerSend_ipc (bytes : List Byte) (s : State) : (answerSend bytes s).ipc = s.ipc := by
  unfold answerSend; split <;> rfl
@[simp] theorem answerSend_wire (bytes : List Byte) (s : State) :
    (answerSend bytes s).wire =
      if s.env.answer = .accepted then s.wire ++ [bytes] else s.wire := by
  unfold answerSend; split <;> simp_all
@[simp] theorem answerSend_env (bytes : List Byte) (s : State) : (answerSend bytes s).env = s.env.afterAnswer := by
  unfold answerSend; split <;> simp_all
@[simp] theorem answerSend_host (bytes : List Byte) (s : State) : (answerSend bytes s).host = s.host := by
  unfold answerSend; split <;> rfl

@[simp] theorem rangeTest_cntLo (s : State) : (rangeTest s).cntLo = s.cntLo := rfl
@[simp] theorem rangeTest_cntHi (s : State) : (rangeTest s).cntHi = s.cntHi := rfl
@[simp] theorem rangeTest_cntRun (s : State) : (rangeTest s).cntRun = s.cntRun := rfl
@[simp] theorem rangeTest_mem (s : State) : (rangeTest s).mem = s.mem := rfl
@[simp] theorem rangeTest_writeIndex (s : State) : (rangeTest s).writeIndex = s.writeIndex := rfl
@[simp] theorem rangeTest_readIndex (s : State) : (rangeTest s).readIndex = s.readIndex := rfl
@[simp] theorem rangeTest_irqSrcEn (s : State) : (rangeTest s).irqSrcEn = s.irqSrcEn := rfl
@[simp] theorem rangeTest_irqMask (s : State) : (rangeTest s).irqMask = s.irqMask := rfl
@[simp] theorem rangeTest_lastSent (s : State) : (rangeTest s).lastSent = s.lastSent := rfl
@[simp] theorem rangeTest_pktLen (s : State) : (rangeTest s).pktLen = s.pktLen := rfl
@[simp] theorem rangeTest_m (s : State) : (rangeTest s).m = s.m := rfl
@[simp] theorem rangeTest_i (s : State) : (rangeTest s).i = s.i := rfl
@[simp] theorem rangeTest_mpc (s : State) :
    (rangeTest s).mpc =
      if rangeReached s.m.clk.t then .mHaltCnt else .mIdle := rfl
@[simp] theorem rangeTest_ipc (s : State) : (rangeTest s).ipc = s.ipc := rfl
@[simp] theorem rangeTest_wire (s : State) : (rangeTest s).wire = s.wire := rfl
@[simp] theorem rangeTest_env (s : State) : (rangeTest s).env = s.env := rfl
@[simp] theorem rangeTest_host (s : State) : (rangeTest s).host = s.host := rfl

@[simp] theorem haltCounters_cntLo (s : State) : (haltCounters s).cntLo = s.cntLo := rfl
@[simp] theorem haltCounters_cntHi (s : State) : (haltCounters s).cntHi = s.cntHi := rfl
@[simp] theorem haltCounters_cntRun (s : State) : (haltCounters s).cntRun = false := rfl
@[simp] theorem haltCounters_mem (s : State) : (haltCounters s).mem = s.mem := rfl
@[simp] theorem haltCounters_writeIndex (s : State) : (haltCounters s).writeIndex = s.writeIndex := rfl
@[simp] theorem haltCounters_readIndex (s : State) : (haltCounters s).readIndex = s.readIndex := rfl
@[simp] theorem haltCounters_irqSrcEn (s : State) : (haltCounters s).irqSrcEn = s.irqSrcEn := rfl
@[simp] theorem haltCounters_irqMask (s : State) : (haltCounters s).irqMask = s.irqMask := rfl
@[simp] theorem haltCounters_lastSent (s : State) : (haltCounters s).lastSent = s.lastSent := rfl
@[simp] theorem haltCounters_pktLen (s : State) : (haltCounters s).pktLen = s.pktLen := rfl
@[simp] theorem haltCounters_m (s : State) : (haltCounters s).m = s.m := rfl
@[simp] theorem haltCounters_i (s : State) : (haltCounters s).i = s.i := rfl
@[simp] theorem haltCounters_mpc (s : State) : (haltCounters s).mpc = .mHaltIrq := rfl
@[simp] theorem haltCounters_ipc (s : State) : (haltCounters s).ipc = s.ipc := rfl
@[simp] theorem haltCounters_wire (s : State) : (haltCounters s).wire = s.wire := rfl
@[simp] theorem haltCounters_env (s : State) : (haltCounters s).env = s.env := rfl
@[simp] theorem haltCounters_host (s : State) : (haltCounters s).host = s.host := rfl

@[simp] theorem haltInterrupts_cntLo (s : State) : (haltInterrupts s).cntLo = s.cntLo := rfl
@[simp] theorem haltInterrupts_cntHi (s : State) : (haltInterrupts s).cntHi = s.cntHi := rfl
@[simp] theorem haltInterrupts_cntRun (s : State) : (haltInterrupts s).cntRun = s.cntRun := rfl
@[simp] theorem haltInterrupts_mem (s : State) : (haltInterrupts s).mem = s.mem := rfl
@[simp] theorem haltInterrupts_writeIndex (s : State) : (haltInterrupts s).writeIndex = s.writeIndex := rfl
@[simp] theorem haltInterrupts_readIndex (s : State) : (haltInterrupts s).readIndex = s.readIndex := rfl
@[simp] theorem haltInterrupts_irqSrcEn (s : State) : (haltInterrupts s).irqSrcEn = false := rfl
@[simp] theorem haltInterrupts_irqMask (s : State) : (haltInterrupts s).irqMask = s.irqMask := rfl
@[simp] theorem haltInterrupts_lastSent (s : State) : (haltInterrupts s).lastSent = s.lastSent := rfl
@[simp] theorem haltInterrupts_pktLen (s : State) : (haltInterrupts s).pktLen = s.pktLen := rfl
@[simp] theorem haltInterrupts_m (s : State) : (haltInterrupts s).m = s.m := rfl
@[simp] theorem haltInterrupts_i (s : State) : (haltInterrupts s).i = s.i := rfl
@[simp] theorem haltInterrupts_mpc (s : State) : (haltInterrupts s).mpc = .mHaltQ := rfl
@[simp] theorem haltInterrupts_ipc (s : State) : (haltInterrupts s).ipc = s.ipc := rfl
@[simp] theorem haltInterrupts_wire (s : State) : (haltInterrupts s).wire = s.wire := rfl
@[simp] theorem haltInterrupts_env (s : State) : (haltInterrupts s).env = { s.env with pendq := [] } := rfl
@[simp] theorem haltInterrupts_host (s : State) : (haltInterrupts s).host = s.host := rfl

@[simp] theorem resetCursors_cntLo (s : State) : (resetCursors s).cntLo = s.cntLo := rfl
@[simp] theorem resetCursors_cntHi (s : State) : (resetCursors s).cntHi = s.cntHi := rfl
@[simp] theorem resetCursors_cntRun (s : State) : (resetCursors s).cntRun = s.cntRun := rfl
@[simp] theorem resetCursors_mem (s : State) : (resetCursors s).mem = s.mem := rfl
@[simp] theorem resetCursors_writeIndex (s : State) : (resetCursors s).writeIndex = 0#32 := rfl
@[simp] theorem resetCursors_readIndex (s : State) : (resetCursors s).readIndex = 0#32 := rfl
@[simp] theorem resetCursors_irqSrcEn (s : State) : (resetCursors s).irqSrcEn = s.irqSrcEn := rfl
@[simp] theorem resetCursors_irqMask (s : State) : (resetCursors s).irqMask = s.irqMask := rfl
@[simp] theorem resetCursors_lastSent (s : State) : (resetCursors s).lastSent = s.lastSent := rfl
@[simp] theorem resetCursors_pktLen (s : State) : (resetCursors s).pktLen = s.pktLen := rfl
@[simp] theorem resetCursors_m (s : State) : (resetCursors s).m = s.m := rfl
@[simp] theorem resetCursors_i (s : State) : (resetCursors s).i = s.i := rfl
@[simp] theorem resetCursors_mpc (s : State) : (resetCursors s).mpc = .mIdle := rfl
@[simp] theorem resetCursors_ipc (s : State) : (resetCursors s).ipc = s.ipc := rfl
@[simp] theorem resetCursors_wire (s : State) : (resetCursors s).wire = s.wire := rfl
@[simp] theorem resetCursors_env (s : State) : (resetCursors s).env = s.env := rfl
@[simp] theorem resetCursors_host (s : State) : (resetCursors s).host = s.host := rfl

@[simp] theorem idleStep_cntLo (s : State) : (idleStep s).cntLo = s.cntLo := rfl
@[simp] theorem idleStep_cntHi (s : State) : (idleStep s).cntHi = s.cntHi := rfl
@[simp] theorem idleStep_cntRun (s : State) : (idleStep s).cntRun = s.cntRun := rfl
@[simp] theorem idleStep_mem (s : State) : (idleStep s).mem = s.mem := rfl
@[simp] theorem idleStep_writeIndex (s : State) : (idleStep s).writeIndex = s.writeIndex := rfl
@[simp] theorem idleStep_readIndex (s : State) : (idleStep s).readIndex = s.readIndex := rfl
@[simp] theorem idleStep_irqSrcEn (s : State) : (idleStep s).irqSrcEn = s.irqSrcEn := rfl
@[simp] theorem idleStep_irqMask (s : State) : (idleStep s).irqMask = s.irqMask := rfl
@[simp] theorem idleStep_lastSent (s : State) : (idleStep s).lastSent = s.lastSent := rfl
@[simp] theorem idleStep_pktLen (s : State) : (idleStep s).pktLen = s.pktLen := rfl
@[simp] theorem idleStep_m (s : State) : (idleStep s).m = s.m := rfl
@[simp] theorem idleStep_i (s : State) : (idleStep s).i = s.i := rfl
@[simp] theorem idleStep_mpc (s : State) : (idleStep s).mpc = .mSnapEnter := rfl
@[simp] theorem idleStep_ipc (s : State) : (idleStep s).ipc = s.ipc := rfl
@[simp] theorem idleStep_wire (s : State) : (idleStep s).wire = s.wire := rfl
@[simp] theorem idleStep_env (s : State) : (idleStep s).env = s.env := rfl
@[simp] theorem idleStep_host (s : State) : (idleStep s).host = s.host := rfl

@[simp] theorem hostEvent_cntLo (e : Event) (s : State) : (hostEvent e s).cntLo = s.cntLo := rfl
@[simp] theorem hostEvent_cntHi (e : Event) (s : State) : (hostEvent e s).cntHi = s.cntHi := rfl
@[simp] theorem hostEvent_cntRun (e : Event) (s : State) : (hostEvent e s).cntRun = s.cntRun := rfl
@[simp] theorem hostEvent_mem (e : Event) (s : State) : (hostEvent e s).mem = s.mem := rfl
@[simp] theorem hostEvent_writeIndex (e : Event) (s : State) : (hostEvent e s).writeIndex = s.writeIndex := rfl
@[simp] theorem hostEvent_readIndex (e : Event) (s : State) : (hostEvent e s).readIndex = s.readIndex := rfl
@[simp] theorem hostEvent_irqSrcEn (e : Event) (s : State) : (hostEvent e s).irqSrcEn = s.irqSrcEn := rfl
@[simp] theorem hostEvent_irqMask (e : Event) (s : State) : (hostEvent e s).irqMask = s.irqMask := rfl
@[simp] theorem hostEvent_lastSent (e : Event) (s : State) : (hostEvent e s).lastSent = s.lastSent := rfl
@[simp] theorem hostEvent_pktLen (e : Event) (s : State) : (hostEvent e s).pktLen = s.pktLen := rfl
@[simp] theorem hostEvent_m (e : Event) (s : State) : (hostEvent e s).m = s.m := rfl
@[simp] theorem hostEvent_i (e : Event) (s : State) : (hostEvent e s).i = s.i := rfl
@[simp] theorem hostEvent_mpc (e : Event) (s : State) : (hostEvent e s).mpc = s.mpc := rfl
@[simp] theorem hostEvent_ipc (e : Event) (s : State) : (hostEvent e s).ipc = s.ipc := rfl
@[simp] theorem hostEvent_wire (e : Event) (s : State) : (hostEvent e s).wire = s.wire := rfl
@[simp] theorem hostEvent_env (e : Event) (s : State) : (hostEvent e s).env = s.env := rfl
@[simp] theorem hostEvent_host (e : Event) (s : State) :
    (hostEvent e s).host =
      { s.host with events := s.host.events ++ [e] } := rfl

end Sys2Proof.Machine
end

