-- ==== Sys2Proof/Laws/Exec.lean ====
section
/-! SUPPORT. Laws/Exec.lean: what an operation can do, said once. `MainStepped` lists the main loop's steps with what
each needs (R33), `Effect` lists what any operation of the table does when it answers a next state. -/

namespace Sys2Proof.Machine

/-! ### The main loop -/

/-- The steps of the main loop (R33). -/
inductive MainStepped (s : State) : State → Prop where
  | snapEnter : s.mpc = .mSnapEnter → MainStepped s (enterCritical s)
  | snapW : s.mpc = .mSnapW → MainStepped s (snapWrite s)
  | snapR : s.mpc = .mSnapR → MainStepped s (snapRead s)
  | snapExit : s.mpc = .mSnapExit → MainStepped s (exitCritical s)
  | decided : s.mpc = .mDecide → MainStepped s (decideFlush s)
  | drained (w : Word) : s.mpc = .mDrain → s.mem.readSlot (slot s.readIndex) = some w → s.packetRoom = true →
      MainStepped s (advanceDrain (serializeWord w s))
  | submitted (bytes : List Byte) : s.mpc = .mSubmit → s.packet = some bytes → MainStepped s (answerSend bytes s)
  | clock (p : ClkPhase) : s.mpc.clkPhase = some p → MainStepped s (clkStepM p s)
  | tested : s.mpc = .mGTest → MainStepped s (rangeTest s)
  | haltCnt : s.mpc = .mHaltCnt → MainStepped s (haltCounters s)
  | haltIrq : s.mpc = .mHaltIrq → MainStepped s (haltInterrupts s)
  | haltQ : s.mpc = .mHaltQ → MainStepped s (resetCursors s)
  | idled : s.mpc = .mIdle → MainStepped s (idleStep s)

/-- What a drain step can do. -/
theorem drainStep_next {s t : State} (h : drainStep s = .next t) :
    ∃ w, s.mem.readSlot (slot s.readIndex) = some w ∧ s.packetRoom = true ∧ t = advanceDrain (serializeWord w s) := by
  unfold drainStep at h
  split at h
  · simp at h
  · rename_i w hw
    split at h
    · rename_i hr
      simp only [Host.Outcome.next.injEq] at h
      exact ⟨w, hw, hr, h.symm⟩
    · simp at h

/-- What a submit step can do. -/
theorem submitStep_next {s t : State} (h : submitStep s = .next t) :
    ∃ bytes, s.packet = some bytes ∧ t = answerSend bytes s := by
  unfold submitStep at h
  split at h
  · simp at h
  · rename_i bytes hb
    simp only [Host.Outcome.next.injEq] at h
    exact ⟨bytes, hb, h.symm⟩

/-- What the main loop's step can do. -/
theorem mainStep_next {s t : State} (h : mainStep s = .next t) : MainStepped s t := by
  unfold mainStep at h
  split at h
  case h_6 hp => obtain ⟨w, hw, hr, rfl⟩ := drainStep_next h; exact .drained w hp hw hr
  case h_7 hp => obtain ⟨bytes, hb, rfl⟩ := submitStep_next h; exact .submitted bytes hp hb
  all_goals (rename_i hp; simp only [Host.Outcome.next.injEq] at h; subst h)
  · exact .snapEnter hp
  · exact .snapW hp
  · exact .snapR hp
  · exact .snapExit hp
  · exact .decided hp
  · exact .clock .r1 (by simp [hp, Mpc.clkPhase])
  · exact .clock .r2 (by simp [hp, Mpc.clkPhase])
  · exact .clock .r3 (by simp [hp, Mpc.clkPhase])
  · exact .clock .r4 (by simp [hp, Mpc.clkPhase])
  · exact .tested hp
  · exact .haltCnt hp
  · exact .haltIrq hp
  · exact .haltQ hp
  · exact .idled hp

/-- A step of the main loop that is on the list is the one it takes. -/
theorem MainStepped.mainStep_eq {s t : State} (h : MainStepped s t) : mainStep s = .next t := by
  cases h with
  | clock p hp => cases hm : s.mpc <;> simp_all [Mpc.clkPhase, mainStep]
  | drained w hp hw hr => simp [mainStep, hp, drainStep, hw, hr]
  | submitted bytes hp hb => simp [mainStep, hp, submitStep, hb]
  | _ hp => simp [mainStep, hp]

/-- The main loop's step leaves the interrupt context, the counters, the receiver and the moves of the trace alone. -/
theorem MainStepped.frame {s t : State} (h : MainStepped s t) :
    t.ipc = s.ipc ∧ t.i = s.i ∧ t.cntLo = s.cntLo ∧ t.cntHi = s.cntHi ∧ t.host = s.host ∧ t.mem.qmem = s.mem.qmem := by
  cases h <;> simp

/-! ### The interrupt context -/

/-- What a step of a run in progress can do (R34). -/
theorem irqStep_next {s t : State} (h : irqStep s = .next t) :
    (∃ p, s.ipc.clkPhase = some p ∧ t = clkStepI p s) ∨ (s.ipc = .iFinish ∧ t = edgeFinish s) := by
  unfold irqStep at h
  split at h
  case h_1 => simp at h
  case h_6 hp => simp only [Host.Outcome.next.injEq] at h; exact .inr ⟨hp, h.symm⟩
  all_goals (rename_i hp; simp only [Host.Outcome.next.injEq] at h; exact .inl ⟨_, by rw [hp]; rfl, h.symm⟩)

theorem irqStep_of_clkPhase {s : State} {p : ClkPhase} (h : s.ipc.clkPhase = some p) :
    irqStep s = .next (clkStepI p s) := by
  cases hp : s.ipc <;> simp_all [Ipc.clkPhase, irqStep]

theorem irqStep_of_finish {s : State} (h : s.ipc = .iFinish) : irqStep s = .next (edgeFinish s) := by
  simp [irqStep, h]

/-- A run in progress always has its step (R34). -/
theorem irqStep_isNext {s : State} (h : s.ipc ≠ .iIdle) : ∃ t, irqStep s = .next t := by
  cases hp : s.ipc <;> simp_all [irqStep]

/-! ### Gates -/

theorem whenMain_next {sel : Mpc → Bool} {s t : State} {act : Result} (h : whenMain sel s act = .next t) :
    s.ipc = .iIdle ∧ sel s.mpc = true ∧ act = .next t := by
  unfold whenMain State.mainAt at h
  split at h
  · rename_i hg; simp only [Bool.and_eq_true, decide_eq_true_eq] at hg; exact ⟨hg.1, hg.2, h⟩
  · simp at h

theorem whenMain_open {sel : Mpc → Bool} {s : State} {act : Result} (hi : s.ipc = .iIdle) (hs : sel s.mpc = true) :
    whenMain sel s act = act := by
  simp [whenMain, State.mainAt, hi, hs]

theorem whenMain_busy {sel : Mpc → Bool} {s : State} {act : Result} (hi : s.ipc ≠ .iIdle) :
    whenMain sel s act = .refused .notEnabled := by
  simp [whenMain, State.mainAt, hi]

theorem whenMain_closed {sel : Mpc → Bool} {s : State} {act : Result} (hs : sel s.mpc = false) :
    whenMain sel s act = .refused .notEnabled := by
  simp [whenMain, State.mainAt, hs]

theorem mayEnter_iff (s : State) :
    s.mayEnter = true ↔ s.irqSrcEn = true ∧ s.irqMask = false ∧ s.ipc = .iIdle := by
  simp [State.mayEnter, and_assoc]

/-- An entry where the invocation condition holds (R246). -/
theorem exec_edgeIrq_enter {s : State} (p : Pin) (h : s.mayEnter = true) :
    exec (.edgeIrq p) s = .next (enterIrq p s) := by
  simp [exec, execEdgeIrq, h, ((mayEnter_iff s).mp h).2.2]

/-! ### Any operation -/

/-- What an operation can do: the receiver notes something, the clock ticks, a word is packed, a run is entered, takes
a step or pushes, the main loop takes its step or serializes, or everything is reset. -/
inductive Effect (i : Instr) (s : State) : State → Prop where
  | receive (h : HostSide) : (encode i).isSome = true ∨ (∃ w, i = .evUnpack w) → Effect i s { s with host := h }
  | tick : i = .cntTick → s.cntRun = true → Effect i s (tickCounters s)
  | pack (e : Bit) (c : Channel) (t : Word) : i = .evPack e c t →
      Effect i s { s with i := { s.i with word := packEvent e c t } }
  | enter (p : Pin) : i = .edgeIrq p → s.mayEnter = true → Effect i s (enterIrq p s)
  | run (t : State) : s.ipc ≠ .iIdle → irqStep s = .next t → Effect i s t
  | push (w : Word) : i = .qPush w → s.ipc = .iFinish → Effect i s (pushWord w s)
  | main (t : State) : s.ipc = .iIdle → MainStepped s t → Effect i s t
  | serialize (w : Word) : i = .txSerialize w → s.ipc = .iIdle → s.mpc = .mDrain → s.packetRoom = true →
      Effect i s (serializeWord w s)
  | reset : i = .sysReset → Effect i s { State.reset with env := { s.env with pendq := [] } }

/-- A gated step of the main loop is the main loop's step. -/
theorem effect_of_whenMain {i : Instr} {sel : Mpc → Bool} {s t : State} (h : whenMain sel s (mainStep s) = .next t) :
    Effect i s t := by
  obtain ⟨hi, _, ha⟩ := whenMain_next h
  exact .main t hi (mainStep_next ha)

/-- Every operation that answers a next state does one of the things `Effect` lists. -/
theorem exec_next {i : Instr} {s t : State} (h : exec i s = .next t) : Effect i s t := by
  cases i with
  | evwFall0 a | evwFall1 a | evwFall2 a | evwFall3 a | evwRise0 a | evwRise1 a | evwRise2 a | evwRise3 a =>
    injection h with h; subst h; exact .receive _ (.inl rfl)
  | pkt ws =>
    simp only [exec, execPkt] at h
    split at h
    · injection h with h; subst h; exact .receive _ (.inl rfl)
    · simp at h
  | cntTick =>
    simp only [exec, execCntTick] at h
    split at h
    · rename_i hr; injection h with h; subst h; exact .tick rfl hr
    · simp at h
  | clkRead x =>
    simp only [exec, execClkRead] at h
    split at h
    · rename_i p hp
      injection h with h; subst h
      simp only [State.clkPhase] at hp
      split at hp
      · rename_i hi; exact .main _ hi (.clock p hp)
      · simp at hp
    · rename_i p hp
      refine .run t (fun hi => ?_) ((irqStep_of_clkPhase hp).trans h)
      simp [State.clkPhase, hi, Ipc.clkPhase] at hp
    · simp at h
  | evPack e c a => injection h with h; subst h; exact .pack e c a rfl
  | evUnpack w => injection h with h; subst h; exact .receive _ (.inr ⟨w, rfl⟩)
  | edgeIrq p =>
    simp only [exec, execEdgeIrq] at h
    split at h
    · split at h
      · rename_i hm; injection h with h; subst h; exact .enter p rfl hm
      · simp at h
    · rename_i hi
      split at h
      · exact .run t hi h
      · simp at h
  | qPush w =>
    simp only [exec, execQPush] at h
    split at h
    · rename_i hf; injection h with h; subst h; exact .push w rfl hf
    · simp at h
  | critEnter =>
    obtain ⟨hi, hs, ha⟩ := whenMain_next h
    injection ha with ha; subst ha; exact .main _ hi (.snapEnter (by simpa using hs))
  | critExit =>
    obtain ⟨hi, hs, ha⟩ := whenMain_next h
    injection ha with ha; subst ha; exact .main _ hi (.snapExit (by simpa using hs))
  | qDrain =>
    obtain ⟨hi, hs, ha⟩ := whenMain_next h
    obtain ⟨w, hw, hr, rfl⟩ := drainStep_next ha
    exact .main _ hi (.drained w (by simpa using hs) hw hr)
  | qReset =>
    obtain ⟨hi, hs, ha⟩ := whenMain_next h
    injection ha with ha; subst ha; exact .main _ hi (.haltQ (by simpa using hs))
  | txDecide =>
    obtain ⟨hi, hs, ha⟩ := whenMain_next h
    injection ha with ha; subst ha; exact .main _ hi (.decided (by simpa using hs))
  | txSerialize w =>
    obtain ⟨hi, hs, ha⟩ := whenMain_next h
    split at ha
    · rename_i hr; injection ha with ha; subst ha; exact .serialize w rfl hi (by simpa using hs) hr
    · simp at ha
  | txSubmit =>
    obtain ⟨hi, hs, ha⟩ := whenMain_next h
    obtain ⟨bytes, hb, rfl⟩ := submitStep_next ha
    exact .main _ hi (.submitted bytes (by simpa using hs) hb)
  | qSnapshot | txStep | guardStep | guardHalt | mainIter => exact effect_of_whenMain h
  | sysReset => injection h with h; subst h; exact .reset rfl

/-- The operation a main-loop phase selects is the main loop's step (R95). -/
theorem exec_mpc_operation {s : State} (hi : s.ipc = .iIdle) : exec s.mpc.operation s = mainStep s := by
  cases hp : s.mpc <;>
    simp [Mpc.operation, exec, mainStep, hp, hi, execCritEnter, execCritExit, execQSnapshot, execQDrain, execQReset,
      execTxDecide, execTxSubmit, execClkRead, execGuardStep, execGuardHalt, execMainIter, whenMain, State.mainAt,
      State.clkPhase, Mpc.clkPhase, Mpc.inSnapshot, Mpc.inGuard, Mpc.inHalt]

/-- The operation a phase of a run in progress selects is the run's step (R95). -/
theorem exec_ipc_operation {s : State} (hi : s.ipc ≠ .iIdle) : exec (s.ipc.operation s.i.pin) s = irqStep s := by
  cases hp : s.ipc <;>
    simp_all [Ipc.operation, exec, irqStep, execEdgeIrq, execClkRead, State.clkPhase, Ipc.clkPhase]

end Sys2Proof.Machine
end

