-- ==== Sys2Proof/Laws/Packet.lean ====
section
/-! SUPPORT. Laws/Packet.lean: packets and event words as bytes. A packet's bytes cut into its words again, their number,
and what the decoder reads from an event word's four bytes. -/

namespace Sys2Proof

theorem packetBytes_cons (w : Word) (ws : List Word) : packetBytes (w :: ws) = leBytes w ++ packetBytes ws := rfl

/-- R94, R96: four bytes a word. -/
theorem packetBytes_length (ws : List Word) : (packetBytes ws).length = 4 * ws.length := by
  induction ws with
  | nil => rfl
  | cons w ws ih => rw [packetBytes_cons, List.length_append, ih, leBytes_length, List.length_cons]; omega

/-- R94: a packet's bytes are cut into its words again. -/
theorem cutWords_packetBytes (ws : List Word) : cutWords (packetBytes ws) = some ws := by
  induction ws with
  | nil => rfl
  | cons w ws ih =>
    have h : packetBytes (w :: ws) = w.extractLsb' 0 8 :: w.extractLsb' 8 8 :: w.extractLsb' 16 8 ::
      w.extractLsb' 24 8 :: packetBytes ws := rfl
    rw [h, cutWords, ih, ofLeBytes_leBytes]
    rfl

/-- R97 (a), R99: four bytes are always an event word, and the bytes after them are left. -/
theorem decodeEvent_leBytes (w : Word) (rest : List Byte) :
    decodeEvent (leBytes w ++ rest) = .ok (rowOfTag (w.toNat / 2 ^ 29) (w.extractLsb' 0 29), rest) := by
  simp only [leBytes, List.cons_append, List.nil_append, decodeEvent, ofLeBytes_leBytes, decodeWord_eq]

/-- R99: the bytes of an event-word row. -/
theorem encode_rowOfTag (k : Nat) (t : Stamp) (hk : k < 8) :
    encode (rowOfTag k t) = some (leBytes (evwWord (BitVec.ofNat 32 (k * 2 ^ 29)) t)) := by
  interval_cases k <;> rfl

end Sys2Proof
end

