-- ==== Sys2Proof/Laws/PerInstr.lean ====
section
/-! SUPPORT. Laws/PerInstr.lean: the family `EncodingShape` of statements about each instruction as syntax. Where a
well-formed instruction has an encoding, its bytes are whole words, 1 to 16 of them (R94, R96, R97 (b)); an event word
is one. -/

namespace Sys2Proof.Laws.EncodingShape

/-- The statement of the family for one instruction. -/
def Statement (i : Instr) : Prop :=
  i.wf = true → ∀ bytes, encode i = some bytes →
    ∃ k, bytes.length = 4 * k ∧ 1 ≤ k ∧ k ≤ 16 ∧ ((∀ ws, i ≠ .pkt ws) → k = 1)

/-- An instruction without an encoding. -/
theorem of_none {i : Instr} (h : encode i = none) : Statement i := by
  intro _ bytes hb
  simp [h] at hb

/-- An event word. -/
theorem of_word {i : Instr} {w : Word} (h : encode i = some (leBytes w)) : Statement i := by
  intro _ bytes hb
  rw [h, Option.some.injEq] at hb
  exact ⟨1, by rw [← hb]; rfl, by decide, by decide, fun _ => rfl⟩

theorem evwFall0 (t : Stamp) : Statement (.evwFall0 t) := of_word rfl
theorem evwFall1 (t : Stamp) : Statement (.evwFall1 t) := of_word rfl
theorem evwFall2 (t : Stamp) : Statement (.evwFall2 t) := of_word rfl
theorem evwFall3 (t : Stamp) : Statement (.evwFall3 t) := of_word rfl
theorem evwRise0 (t : Stamp) : Statement (.evwRise0 t) := of_word rfl
theorem evwRise1 (t : Stamp) : Statement (.evwRise1 t) := of_word rfl
theorem evwRise2 (t : Stamp) : Statement (.evwRise2 t) := of_word rfl
theorem evwRise3 (t : Stamp) : Statement (.evwRise3 t) := of_word rfl

theorem pkt (ws : List Word) : Statement (.pkt ws) := by
  intro hw bytes hb
  simp only [Instr.wf, packetWf, Bool.and_eq_true, decide_eq_true_eq, Config.chunkSize] at hw
  simp only [encode, Option.some.injEq] at hb
  exact ⟨ws.length, by rw [← hb, packetBytes_length], hw.1, hw.2, fun h => absurd rfl (h ws)⟩

theorem cntTick : Statement .cntTick := of_none rfl
theorem clkRead (x : Ctx) : Statement (.clkRead x) := of_none rfl
theorem evPack (edge : Bit) (channel : Channel) (t : Word) : Statement (.evPack edge channel t) := of_none rfl
theorem evUnpack (w : Word) : Statement (.evUnpack w) := of_none rfl
theorem edgeIrq (p : Pin) : Statement (.edgeIrq p) := of_none rfl
theorem qPush (w : Word) : Statement (.qPush w) := of_none rfl
theorem critEnter : Statement .critEnter := of_none rfl
theorem critExit : Statement .critExit := of_none rfl
theorem qSnapshot : Statement .qSnapshot := of_none rfl
theorem qDrain : Statement .qDrain := of_none rfl
theorem qReset : Statement .qReset := of_none rfl
theorem txDecide : Statement .txDecide := of_none rfl
theorem txSerialize (w : Word) : Statement (.txSerialize w) := of_none rfl
theorem txSubmit : Statement .txSubmit := of_none rfl
theorem txStep : Statement .txStep := of_none rfl
theorem guardStep : Statement .guardStep := of_none rfl
theorem guardHalt : Statement .guardHalt := of_none rfl
theorem mainIter : Statement .mainIter := of_none rfl
theorem sysReset : Statement .sysReset := of_none rfl

end Sys2Proof.Laws.EncodingShape
end

