-- ==== Sys2Proof/Laws/Queue.lean ====
section
/-! SUPPORT. Laws/Queue.lean: the queue and the packet buffer. Occupancy and slots as the cursors move, the bytes a
serialization writes, the size of a flush, and where the main loop's step completes. -/

namespace Sys2Proof.Machine

/-! ### Cursors and slots -/

theorem slotAt_zero (s : State) : s.slotAt 0 = slot s.readIndex := by simp [State.slotAt]

/-- After one word is drained the stored events have moved up by one. -/
theorem slotAt_succ {s t : State} (h : t.readIndex = s.readIndex + 1#32) (j : Nat) : t.slotAt j = s.slotAt (j + 1) := by
  unfold State.slotAt
  rw [h]
  congr 1
  apply BitVec.eq_of_toNat_eq
  simp
  omega

/-- The slot of the next push is the one after the stored events (R41). -/
theorem slotAt_occupancy (s : State) : s.slotAt s.occupancy.toNat = slot s.writeIndex := by
  unfold State.slotAt State.occupancy
  congr 1
  apply BitVec.eq_of_toNat_eq
  simp
  omega

/-- The difference that the bounds check of a push reads (R160). -/
theorem next_sub_readIndex (s : State) (ho : s.occupancy.toNat ≤ 1024) :
    (s.writeIndex + 1#32 - s.readIndex).toNat = s.occupancy.toNat + 1 := by
  have h : s.writeIndex + 1#32 - s.readIndex = s.occupancy + 1#32 := by
    unfold State.occupancy
    apply BitVec.eq_of_toNat_eq
    simp
    omega
  rw [h, BitVec.toNat_add]
  simp
  omega

/-- R160 (e): the push is accepted exactly below full. -/
theorem pushFits_iff (s : State) (ho : s.occupancy.toNat ≤ 1024) :
    pushFits (s.writeIndex + 1#32) s.readIndex = true ↔ s.occupancy.toNat < 1024 := by
  unfold pushFits
  rw [next_sub_readIndex s ho]
  simp [Config.queueCapacity]

/-! ### The packet buffer -/

theorem packetRoom_iff (s : State) : s.packetRoom = true ↔ s.m.k.toNat < 16 := by
  simp [State.packetRoom, Config.pktMaxBytes]
  omega

/-- R194: every byte of `PKT` after a serialization. -/
theorem readByte_serializeWord (w : Word) (s : State) (h : s.m.k.toNat < 16) (x : Nat) :
    (serializeWord w s).mem.readByte x =
      if 4 * s.m.k.toNat ≤ x ∧ x < 4 * s.m.k.toNat + 4 then (leBytes w)[x - 4 * s.m.k.toNat]?
      else s.mem.readByte x := by
  rw [serializeWord_mem, Memory.readByte_writeBytes _ _ _ _ (by simp [leBytes_length, Config.pktMaxBytes]; omega)]
  rfl

theorem packet_isSome_iff (s : State) :
    s.packet.isSome = true ↔ ∀ j, j < s.pktLen → (s.mem.readByte j).isSome = true := by
  unfold State.packet
  rw [Memory.readBytes_isSome]
  simp

/-! ### The flush -/

/-- R191, R192 as one expression. -/
theorem toSend_eq (avail now lastSent : Word) :
    toSend avail now lastSent =
      if 16 ≤ avail.toNat ∨ 2 ≤ (now - lastSent).toNat then min 16 avail.toNat else 0 := by
  unfold toSend sizeTrigger timeTrigger
  generalize (now - lastSent).toNat = d
  simp only [Config.chunkSize, Config.sendIntervalMs, Bool.or_eq_true, decide_eq_true_eq]

theorem toSend_le (avail now lastSent : Word) : toSend avail now lastSent ≤ 16 := by
  rw [toSend_eq]
  split <;> omega

/-! ### The main loop's step -/

/-- A drain step where the slot is written and the packet has room. -/
theorem drainStep_of_readSlot {s : State} {w : Word} (hw : s.mem.readSlot (slot s.readIndex) = some w)
    (hk : s.m.k.toNat < 16) : drainStep s = .next (advanceDrain (serializeWord w s)) := by
  simp [drainStep, hw, (packetRoom_iff s).mpr hk]

theorem submitStep_of_packet {s : State} {bytes : List Byte} (hb : s.packet = some bytes) :
    submitStep s = .next (answerSend bytes s) := by
  simp [submitStep, hb]

/-- The main loop's step completes where what it reads is there. -/
theorem mainStep_isNext {s : State} (h : s.mainReady) : ∃ t, mainStep s = .next t := by
  cases hm : s.mpc <;> simp only [mainStep, hm] <;> try exact ⟨_, rfl⟩
  · obtain ⟨h1, h2⟩ := h.1 hm
    obtain ⟨w, hw⟩ := Option.isSome_iff_exists.mp h1
    exact ⟨_, drainStep_of_readSlot hw h2⟩
  · obtain ⟨b, hb⟩ := Option.isSome_iff_exists.mp (h.2 hm)
    exact ⟨_, submitStep_of_packet hb⟩

/-! ### The invariant and what it does not mention -/

theorem Inv.setCounters {s : State} (h : Inv s) (lo hi : Half) : Inv { s with cntLo := lo, cntHi := hi } :=
  ⟨h.1, h.2, h.3, h.4, h.5, h.6, h.7, h.8, h.9, h.10, h.11, h.12, h.13, h.14, h.15⟩

theorem Inv.setEnv {s : State} (h : Inv s) (e : Env) : Inv { s with env := e } :=
  ⟨h.1, h.2, h.3, h.4, h.5, h.6, h.7, h.8, h.9, h.10, h.11, h.12, h.13, h.14, h.15⟩

theorem Inv.setHost {s : State} (h : Inv s) (hs : HostSide) : Inv { s with host := hs } :=
  ⟨h.1, h.2, h.3, h.4, h.5, h.6, h.7, h.8, h.9, h.10, h.11, h.12, h.13, h.14, h.15⟩

theorem Inv.setIrq {s : State} (h : Inv s) (r : IrqRegs) (p : Ipc)
    (hp : p ≠ .iIdle → s.irqMask = false ∧ s.irqSrcEn = true) : Inv { s with i := r, ipc := p } :=
  ⟨h.1, h.2, h.3, h.4, hp, h.6, h.7, h.8, h.9, h.10, h.11, h.12, h.13, h.14, h.15⟩

end Sys2Proof.Machine
end

