-- ==== Sys2Proof/Laws/Step.lean ====
section
/-! SUPPORT. Laws/Step.lean: what a step can do, said once, by the move it takes. -/

namespace Sys2Proof.Machine

@[simp] theorem afterMove_forget (s : State) : { afterMove s with env := s.env } = s := by
  unfold afterMove; split <;> rfl

@[simp] theorem afterMove_cntLo (s : State) : (afterMove s).cntLo = s.cntLo := by unfold afterMove; split <;> rfl
@[simp] theorem afterMove_cntHi (s : State) : (afterMove s).cntHi = s.cntHi := by unfold afterMove; split <;> rfl
@[simp] theorem afterMove_cntRun (s : State) : (afterMove s).cntRun = s.cntRun := by unfold afterMove; split <;> rfl
@[simp] theorem afterMove_mem (s : State) : (afterMove s).mem = s.mem := by unfold afterMove; split <;> rfl
@[simp] theorem afterMove_writeIndex (s : State) : (afterMove s).writeIndex = s.writeIndex := by unfold afterMove; split <;> rfl
@[simp] theorem afterMove_readIndex (s : State) : (afterMove s).readIndex = s.readIndex := by unfold afterMove; split <;> rfl
@[simp] theorem afterMove_irqSrcEn (s : State) : (afterMove s).irqSrcEn = s.irqSrcEn := by unfold afterMove; split <;> rfl
@[simp] theorem afterMove_irqMask (s : State) : (afterMove s).irqMask = s.irqMask := by unfold afterMove; split <;> rfl
@[simp] theorem afterMove_lastSent (s : State) : (afterMove s).lastSent = s.lastSent := by unfold afterMove; split <;> rfl
@[simp] theorem afterMove_pktLen (s : State) : (afterMove s).pktLen = s.pktLen := by unfold afterMove; split <;> rfl
@[simp] theorem afterMove_m (s : State) : (afterMove s).m = s.m := by unfold afterMove; split <;> rfl
@[simp] theorem afterMove_i (s : State) : (afterMove s).i = s.i := by unfold afterMove; split <;> rfl
@[simp] theorem afterMove_ipc (s : State) : (afterMove s).ipc = s.ipc := by unfold afterMove; split <;> rfl
@[simp] theorem afterMove_mpc (s : State) : (afterMove s).mpc = s.mpc := by unfold afterMove; split <;> rfl
@[simp] theorem afterMove_host (s : State) : (afterMove s).host = s.host := by unfold afterMove; split <;> rfl
@[simp] theorem afterMove_wire (s : State) : (afterMove s).wire = s.wire := by unfold afterMove; split <;> rfl
@[simp] theorem afterMove_pinMap (s : State) : (afterMove s).env.pinMap = s.env.pinMap := by
  unfold afterMove; split <;> rfl
@[simp] theorem afterMove_pendq (s : State) : (afterMove s).env.pendq = s.env.pendq := by
  unfold afterMove; split <;> rfl

/-- A state with the next move taken is the state with another environment. -/
theorem afterMove_eq (s : State) : afterMove s = { s with env := (afterMove s).env } := by
  unfold afterMove; split <;> rfl

/-- Taking the next move changes nothing that enables a move. -/
@[simp] theorem enabled_afterMove (mv : Move) (s : State) : enabled mv (afterMove s) = enabled mv s := by
  unfold afterMove; split <;> cases mv <;> rfl

theorem turn_enabled (s : State) : enabled (turn s) s = true := by
  unfold turn; split <;> simp_all [enabled]

theorem legalChoice_enabled (mv : Move) (s : State) : enabled (legalChoice mv s) s = true := by
  unfold legalChoice; split
  · assumption
  · exact turn_enabled s

/-- Only event words are decoded from a byte stream. -/
theorem decodeEvent_ok {bs rest : List Byte} {i : Instr} (h : decodeEvent bs = .ok (i, rest)) :
    ∃ k t, k < 8 ∧ i = rowOfTag k t := by
  unfold decodeEvent at h
  split at h
  case h_1 b0 b1 b2 b3 r =>
    rw [decodeWord_eq] at h
    simp only [Except.ok.injEq, Prod.mk.injEq] at h
    refine ⟨_, _, ?_, h.1.symm⟩
    have := (ofLeBytes b0 b1 b2 b3).isLt
    omega
  all_goals simp at h

/-- Only packets are decoded from a packet's bytes, and only well-formed ones (R97 (b)). -/
theorem cutWords_length (bs : List Byte) : ∀ ws, cutWords bs = some ws → bs.length = 4 * ws.length := by
  induction bs using cutWords.induct with
  | case1 => intro ws h; simp only [cutWords, Option.some.injEq] at h; simp [← h]
  | case2 b0 b1 b2 b3 rest ih =>
    intro ws h
    simp only [cutWords, Option.map_eq_some_iff] at h
    obtain ⟨vs, hv, rfl⟩ := h
    have := ih vs hv
    simp [this]
    omega
  | case3 => intro ws h; simp [cutWords] at h
  | case4 => intro ws h; simp [cutWords] at h
  | case5 => intro ws h; simp [cutWords] at h

theorem cutWords_isSome (bs : List Byte) : ∀ k, bs.length = 4 * k → (cutWords bs).isSome = true := by
  induction bs using cutWords.induct with
  | case1 => intros; rfl
  | case2 b0 b1 b2 b3 rest ih =>
    intro k h
    simp only [List.length_cons] at h
    have := ih (k - 1) (by omega)
    simpa [cutWords] using this
  | case3 => intro k h; simp at h; omega
  | case4 => intro k h; simp at h; omega
  | case5 => intro k h; simp at h; omega

theorem decodePacket_ok {bs : List Byte} {i : Instr} (h : decodePacket bs = .ok i) :
    ∃ ws, i = .pkt ws ∧ cutWords bs = some ws ∧ packetWf ws = true := by
  unfold decodePacket at h
  split at h
  · simp at h
  · split at h
    · simp at h
    · split at h
      · rename_i h0 h1 _ ws hw
        simp only [Except.ok.injEq] at h
        have := cutWords_length bs ws hw
        exact ⟨ws, h.symm, hw, by simp [packetWf, Config.chunkSize]; simp only [Config.pktMaxBytes] at h1; omega⟩
      · simp at h

theorem exec_rowOfTag (k : Nat) (t : Stamp) (s : State) (hk : k < 8) :
    exec (rowOfTag k t) s = .next (hostEvent (unpackEvent (evwWord (BitVec.ofNat 32 (k * 2 ^ 29)) t)) s) := by
  interval_cases k <;> rfl

/-- What the receiver reads, run: only the receiver's state changes. -/
theorem hostFetch_exec {s u : State} {i : Instr} (h : hostFetch s = some (i, u)) :
    ∃ hs, exec i u = .next { s with host := hs } := by
  unfold hostFetch at h
  split at h
  · split at h
    · rename_i heq
      simp only [Option.some.injEq, Prod.mk.injEq] at h
      obtain ⟨rfl, rfl⟩ := h
      obtain ⟨k, t, hk, rfl⟩ := decodeEvent_ok heq
      exact ⟨_, exec_rowOfTag k t _ hk⟩
    · simp at h
  · split at h
    · simp at h
    · split at h
      · rename_i heq
        simp only [Option.some.injEq, Prod.mk.injEq] at h
        obtain ⟨rfl, rfl⟩ := h
        obtain ⟨ws, rfl, _, hw⟩ := decodePacket_ok heq
        exact ⟨{ s.host with taken := s.host.taken + 1, inbox := s.host.inbox ++ ws },
          by simp only [exec, execPkt, hw, if_true]⟩
      · simp at h

/-- What a step can do, by the move it takes. `u` is the state once the move is taken. -/
inductive Stepped (s u : State) : Move → State → Prop where
  | tick : s.cntRun = true → Stepped s u .tick (tickCounters u)
  | irq (p : Pin) : s.mayEnter = true → Stepped s u (.irq p) (enterIrq p u)
  | istep (t : State) : s.ipc ≠ .iIdle → irqStep u = .next t → Stepped s u .istep t
  | mstep (t : State) : s.ipc = .iIdle → MainStepped u t → Stepped s u .mstep t
  | reset : Stepped s u .reset { State.reset with env := { u.env with pendq := [] } }
  | host (h : HostSide) : Stepped s u .host { u with host := h }
  | transition (p : Pin) (q : List Pin) : Stepped s u (.transition p) { u with env := { u.env with pendq := q } }
  | serve (p : Pin) (rest : List Pin) : s.env.pendq = p :: rest → s.mayEnter = true →
      Stepped s u .serve (enterIrq p { u with env := { u.env with pendq := rest } })

/-- Every step that answers a next state is one of `Stepped`'s. -/
theorem step_next {s t : State} (h : step s = .next t) : Stepped s (afterMove s) (nextMove s) t := by
  unfold step at h
  split at h
  swap
  · simp at h
  rename_i hen
  rw [enabled_afterMove] at hen
  cases hmv : nextMove s with
  | tick =>
    simp only [hmv, operationOf, enabled] at h hen
    have hr : (afterMove s).cntRun = true := (enabled_afterMove .tick s).trans hen
    simp only [exec, execCntTick, hr, if_true] at h
    injection h with h; subst h
    exact .tick hen
  | irq p =>
    simp only [hmv, operationOf, enabled] at h hen
    have hm : (afterMove s).mayEnter = true := by simpa [enabled] using (enabled_afterMove (.irq p) s).trans hen
    rw [exec_edgeIrq_enter p hm] at h
    injection h with h; subst h
    exact .irq p hen
  | istep =>
    simp only [hmv, operationOf, enabled] at h hen
    have hi : s.ipc ≠ .iIdle := by simpa using hen
    rw [exec_ipc_operation (by simpa using hi)] at h
    exact .istep t hi h
  | mstep =>
    simp only [hmv, operationOf, enabled] at h hen
    have hi : s.ipc = .iIdle := by simpa using hen
    rw [exec_mpc_operation (by simpa using hi)] at h
    exact .mstep t hi (mainStep_next h)
  | reset =>
    simp only [hmv, operationOf] at h
    injection h with h; subst h
    exact .reset
  | host =>
    simp only [hmv, operationOf] at h
    split at h
    · rename_i i u hf
      obtain ⟨hs, he⟩ := hostFetch_exec hf
      rw [he] at h
      injection h with h; subst h
      exact .host hs
    · simp [outsideMove] at h
  | transition p =>
    simp only [hmv, operationOf, outsideMove] at h
    split at h <;> (injection h with h; subst h)
    · exact .transition p _
    · exact .transition p (afterMove s).env.pendq
  | serve =>
    simp only [hmv, operationOf, enabled, afterMove_pendq] at h hen
    cases hq : s.env.pendq with
    | nil => simp [hq] at hen
    | cons p rest =>
      simp only [hq, List.isEmpty_cons, Bool.not_false, Bool.true_and] at h hen
      have hm : (afterMove s).mayEnter = true := by
        simpa [enabled] using (enabled_afterMove (.irq p) s).trans hen
      rw [exec_edgeIrq_enter p (by exact hm)] at h
      injection h with h; subst h
      exact .serve p rest hq hen

end Sys2Proof.Machine
end

