-- ==== Sys2Proof/Laws/Progress.lean ====
section
/-! SUPPORT. Laws/Progress.lean: what the premises of R300 are for. Under them, and given the statements
`StepKeepsInvariant` and `AcceptedEventsStreamInOrder`, every accepted event reaches `WIRE`. -/

namespace Sys2Proof.Machine

/-! ### Sequences of numbers -/

/-- A sequence that never falls and stays below a bound is constant from some place on. -/
theorem eventually_constant {f : Nat → Nat} {n b : Nat} (hm : ∀ k, n ≤ k → f k ≤ f (k + 1))
    (hb : ∀ k, n ≤ k → f k ≤ b) : ∃ c, n ≤ c ∧ ∀ k, c ≤ k → f k = f c := by
  have mono : ∀ i j, n ≤ i → i ≤ j → f i ≤ f j := by
    intro i j hi hij
    induction hij with
    | refl => exact Nat.le_refl _
    | step h ih => exact Nat.le_trans ih (hm _ (Nat.le_trans hi h))
  have key : ∀ d i, n ≤ i → b - f i ≤ d → ∃ c, n ≤ c ∧ ∀ k, c ≤ k → f k = f c := by
    intro d
    induction d with
    | zero =>
      intro i hi hd
      refine ⟨i, hi, fun k hk => ?_⟩
      have := mono i k hi hk; have := hb k (Nat.le_trans hi hk); omega
    | succ d ih =>
      intro i hi hd
      by_cases h : ∀ k, i ≤ k → f k = f i
      · exact ⟨i, hi, h⟩
      · obtain ⟨k, hk⟩ := not_forall.mp h
        obtain ⟨hik, hne⟩ := Classical.not_imp.mp hk
        have := mono i k hi hik
        exact ih k (Nat.le_trans hi hik) (by omega)
  exact key _ n (Nat.le_refl _) (Nat.le_refl _)

/-! ### One step -/

/-- A step in which the main loop does not move, and no reset, leaves what the main loop owns. -/
theorem step_not_main {s t : State} (h : step s = .next t) (hm : nextMove s ≠ .mstep) (hr : nextMove s ≠ .reset) :
    t.mpc = s.mpc ∧ t.m = s.m ∧ t.wire = s.wire ∧ t.lastSent = s.lastSent := by
  have := step_next h
  generalize nextMove s = mv at this hm hr
  cases this with
  | tick => simp
  | irq => simp
  | istep t _ hx => rcases irqStep_next hx with ⟨p, _, rfl⟩ | ⟨_, rfl⟩ <;> simp
  | mstep => exact absurd rfl hm
  | reset => exact absurd rfl hr
  | host => simp
  | transition => simp
  | serve => simp

/-- A step of the main loop. -/
theorem step_main {s t : State} (h : step s = .next t) (hm : nextMove s = .mstep) : MainStepped (afterMove s) t := by
  have := step_next h
  rw [hm] at this
  cases this with
  | mstep _ _ hx => exact hx

/-! ### The main loop on its way -/

/-- How many steps the main loop is from its next decision, its next `send`, or the halt's last step. -/
def stepsToTarget (m : MainRegs) : Mpc → Nat
  | .mDecide | .mSubmit | .mHaltQ => 0
  | .mSnapExit | .mHaltIrq => 1
  | .mSnapR | .mHaltCnt => 2
  | .mSnapW => 3
  | .mSnapEnter => 4
  | .mIdle => 5
  | .mGTest => 6
  | .mGR4 => 7
  | .mGR3 => 8
  | .mGR2 => 9
  | .mGR1 => 10
  | .mDrain => 1 + (m.n.toNat - m.k.toNat)

/-- Where that distance is 0. -/
theorem stepsToTarget_eq_zero {m : MainRegs} {p : Mpc} (h : stepsToTarget m p = 0) :
    p = .mDecide ∨ p = .mSubmit ∨ p = .mHaltQ := by
  cases p <;> simp [stepsToTarget] at h ⊢

/-- A step of the main loop that is no decision, no `send` and not the halt's last step brings it nearer to one. -/
theorem MainStepped.nearer {s t : State} (hi : Inv s) (h : MainStepped s t) (hd : 0 < stepsToTarget s.m s.mpc) :
    stepsToTarget t.m t.mpc < stepsToTarget s.m s.mpc := by
  cases h with
  | drained w hm hw hr =>
    have := hi.drainCount hm
    have hk : (s.m.k + 1#5).toNat = s.m.k.toNat + 1 := by
      simp only [Config.chunkSize] at this; rw [BitVec.toNat_add]; simp; omega
    simp only [advanceDrain, serializeWord, BitVec.lt_def, hk, hm, stepsToTarget]
    by_cases hlt : s.m.k.toNat + 1 < s.m.n.toNat <;> simp only [hlt, if_true, if_false] <;> omega
  | clock p hp =>
    have key (c : ClkRegs) (hi : Half) (m : MainRegs) :
        stepsToTarget m (Mpc.ofClk (clkNext hi c p)) < stepsToTarget s.m s.mpc := by
      cases hm : s.mpc <;> simp only [hm, Mpc.clkPhase, reduceCtorEq, Option.some.injEq] at hp <;> subst hp <;>
        simp only [clkNext] <;> (try split) <;> simp [stepsToTarget, Mpc.ofClk]
    exact key _ _ _
  | tested hm => simp only [rangeTest, hm]; split <;> simp [stepsToTarget]
  | decided hm | submitted _ hm | haltQ hm => simp [hm, stepsToTarget] at hd
  | snapEnter hm | snapW hm | snapR hm | snapExit hm | haltCnt hm | haltIrq hm | idled hm =>
    simp [hm, stepsToTarget, enterCritical, snapWrite, snapRead, exitCritical, haltCounters, haltInterrupts, idleStep]

/-- A drain step leads to another or to the `send`. -/
theorem MainStepped.from_drain {s t : State} (h : MainStepped s t) (hm : s.mpc = .mDrain) :
    t.mpc = .mDrain ∨ t.mpc = .mSubmit := by
  cases h with
  | drained => simp only [advanceDrain]; split <;> simp
  | clock p hp => simp [hm, Mpc.clkPhase] at hp
  | decided h | submitted _ h | haltQ h | snapEnter h | snapW h | snapR h | snapExit h | haltCnt h | haltIrq h
  | idled h | tested h => simp [hm] at h

/-- Only the end of the snapshot leads to a decision, and the available count is then the occupancy. -/
theorem MainStepped.to_decide {s t : State} (hi : Inv s) (h : MainStepped s t) (ht : t.mpc = .mDecide) :
    s.mpc = .mSnapExit ∧ t.m.avail = s.occupancy := by
  cases h with
  | snapExit hm => exact ⟨hm, by simp [exitCritical, hi.snapWrite (.inr hm), hi.snapRead hm, State.occupancy]⟩
  | clock p hp =>
    simp only [clkStepM] at ht
    cases hn : clkNext s.cntHi s.m.clk p with
    | none => simp [hn, Mpc.ofClk] at ht
    | some q => cases q <;> simp [hn, Mpc.ofClk] at ht
  | submitted b hm => unfold answerSend at ht; split at ht <;> simp at ht
  | drained w hm hw hr => rcases (MainStepped.drained w hm hw hr).from_drain hm with h | h <;> rw [h] at ht <;> simp at ht
  | decided => simp only [decideFlush] at ht; split at ht <;> simp at ht
  | tested => simp only [rangeTest] at ht; split at ht <;> simp at ht
  | snapEnter | snapW | snapR | haltCnt | haltIrq | haltQ | idled =>
    simp [enterCritical, snapWrite, snapRead, haltCounters, haltInterrupts, resetCursors, idleStep] at ht

/-- A `send` is accepted, and `WIRE` has one packet more, or the main loop stays where it is; no other step of the main
loop writes `WIRE` or `LAST_SENT`. -/
theorem MainStepped.wire {s t : State} (h : MainStepped s t) :
    (s.mpc = .mSubmit ∧ s.env.answer = .accepted ∧ t.wire.length = s.wire.length + 1) ∨
    (t.wire = s.wire ∧ t.lastSent = s.lastSent ∧ (s.mpc = .mSubmit → s.env.answer = .busy ∧ t.mpc = .mSubmit)) := by
  cases h with
  | submitted b hm =>
    unfold answerSend; split
    · rename_i ha; exact .inl ⟨hm, ha, by simp⟩
    · rename_i ha; exact .inr ⟨rfl, rfl, fun _ => ⟨ha, rfl⟩⟩
  | clock p hp => refine .inr ⟨rfl, rfl, fun hm => ?_⟩; simp [hm, Mpc.clkPhase] at hp
  | drained w hm => exact .inr ⟨rfl, rfl, fun h => by simp [hm] at h⟩
  | tested hm => exact .inr ⟨rfl, rfl, fun h => by simp [hm] at h⟩
  | decided hm | haltQ hm | snapEnter hm | snapW hm | snapR hm | snapExit hm | haltCnt hm | haltIrq hm | idled hm =>
    exact .inr ⟨rfl, rfl, fun h => by simp [hm] at h⟩

/-! ### Runs -/

variable {r : Nat → State} {n : Nat}

/-- A step of a run in which the main loop does not move. -/
theorem IsRun.stay (h : IsRun r) {k : Nat} (hm : nextMove (r k) ≠ .mstep) (hr : nextMove (r k) ≠ .reset) :
    (r (k + 1)).mpc = (r k).mpc ∧ (r (k + 1)).m = (r k).m ∧ (r (k + 1)).wire = (r k).wire ∧
    (r (k + 1)).lastSent = (r k).lastSent := by
  obtain ⟨t, ht, _, _, _, _, e⟩ := h k
  have := step_not_main ht hm hr
  rw [e]; exact this

/-- A step of a run in which the main loop moves. -/
theorem IsRun.main (h : IsRun r) {k : Nat} (hm : nextMove (r k) = .mstep) :
    ∃ t e, MainStepped (afterMove (r k)) t ∧ r (k + 1) = { t with env := e } := by
  obtain ⟨t, ht, _, _, _, _, e⟩ := h k
  exact ⟨t, _, step_main ht hm, e⟩

/-- Every state of a run meets the invariant, if the first does. -/
theorem IsRun.inv (hk : Obligations.StepKeepsInvariant) (h : IsRun r) (h0 : Inv (r 0)) : ∀ k, Inv (r k) := by
  intro k
  induction k with
  | zero => exact h0
  | succ k ih =>
    obtain ⟨t, ht, _, _, _, _, e⟩ := h k
    rw [e]; exact (hk _ _ ih ht).setEnv _

/-- Without a reset and before the halt's last step the stream only grows. -/
theorem IsRun.stream_grows (hs : Obligations.AcceptedEventsStreamInOrder) (h : IsRun r) {k : Nat} (hi : Inv (r k))
    (hr : nextMove (r k) ≠ .reset) (hq : (r k).mpc ≠ .mHaltQ) : (r k).stream <+: (r (k + 1)).stream := by
  obtain ⟨t, ht, _, _, _, _, e⟩ := h k
  have he : (r (k + 1)).stream = t.stream := by rw [e]; rfl
  have := hs _ _ hi ht
  rw [he]
  cases hm : nextMove (r k) <;> simp only [hm, if_neg hq] at this
  case reset => exact absurd hm hr
  all_goals (rw [this]; first | done | exact List.prefix_append _ _)

/-- The main loop moves again, and until then keeps its phase and registers. -/
theorem IsRun.next_main (h : IsRun r) (hn : NoResetFrom r n) (hs : MainLoopKeepsBeingScheduled r) (k : Nat)
    (hk : n ≤ k) : ∃ j, k ≤ j ∧ nextMove (r j) = .mstep ∧ (r j).mpc = (r k).mpc ∧ (r j).m = (r k).m := by
  obtain ⟨i, hki, hi⟩ := hs k
  obtain ⟨d, rfl⟩ := Nat.exists_eq_add_of_le hki
  clear hki
  induction d generalizing k with
  | zero => exact ⟨k, Nat.le_refl _, hi, rfl, rfl⟩
  | succ d ih =>
    by_cases hm : nextMove (r k) = .mstep
    · exact ⟨k, Nat.le_refl _, hm, rfl, rfl⟩
    · obtain ⟨e1, e2, _⟩ := h.stay hm (hn k hk)
      obtain ⟨j, hj, a, b, c⟩ := ih (k + 1) (by omega) (by rw [← hi]; congr 2; omega)
      exact ⟨j, by omega, a, b.trans e1, c.trans e2⟩

/-- The main loop comes to a decision, to a `send`, or to the halt's last step. -/
theorem IsRun.reaches_target (h : IsRun r) (hinv : ∀ k, Inv (r k)) (hn : NoResetFrom r n)
    (hs : MainLoopKeepsBeingScheduled r) (d : Nat) : ∀ k, n ≤ k → stepsToTarget (r k).m (r k).mpc ≤ d →
    ∃ j, k ≤ j ∧ nextMove (r j) = .mstep ∧ ((r j).mpc = .mDecide ∨ (r j).mpc = .mSubmit ∨ (r j).mpc = .mHaltQ) := by
  induction d with
  | zero =>
    intro k hk hd
    obtain ⟨j, hj, hm, hp, hr⟩ := h.next_main hn hs k hk
    exact ⟨j, hj, hm, stepsToTarget_eq_zero (m := (r k).m) (by rw [hp]; omega)⟩
  | succ d ih =>
    intro k hk hd
    obtain ⟨j, hj, hm, hp, hr⟩ := h.next_main hn hs k hk
    by_cases h0 : stepsToTarget (r j).m (r j).mpc = 0
    · exact ⟨j, hj, hm, stepsToTarget_eq_zero h0⟩
    · obtain ⟨t, e, ht, he⟩ := h.main hm
      have hlt : stepsToTarget (r (j + 1)).m (r (j + 1)).mpc < stepsToTarget (r j).m (r j).mpc := by
        have := ht.nearer (by rw [afterMove_eq]; exact (hinv j).setEnv _) (by simp; omega)
        rw [he]; simpa using this
      rw [hp, hr] at hlt
      obtain ⟨i, hi, rest⟩ := ih (j + 1) (by omega) (by omega)
      exact ⟨i, by omega, rest⟩

/-- A drain ends in a `send`. -/
theorem IsRun.drain_ends (h : IsRun r) (hinv : ∀ k, Inv (r k)) (hn : NoResetFrom r n)
    (hs : MainLoopKeepsBeingScheduled r) (d : Nat) : ∀ k, n ≤ k → (r k).mpc = .mDrain →
    stepsToTarget (r k).m (r k).mpc ≤ d → ∃ j, k ≤ j ∧ (r j).mpc = .mSubmit := by
  induction d with
  | zero => intro k hk hm hd; simp [hm, stepsToTarget] at hd
  | succ d ih =>
    intro k hk hmp hd
    obtain ⟨j, hj, hm, hp, hr⟩ := h.next_main hn hs k hk
    obtain ⟨t, e, ht, he⟩ := h.main hm
    have hlt : stepsToTarget (r (j + 1)).m (r (j + 1)).mpc < stepsToTarget (r j).m (r j).mpc := by
      have := ht.nearer (by rw [afterMove_eq]; exact (hinv j).setEnv _) (by simp [hp, hmp, stepsToTarget])
      rw [he]; simpa using this
    have hnext : (r (j + 1)).mpc = .mDrain ∨ (r (j + 1)).mpc = .mSubmit := by
      rw [he]; exact ht.from_drain (by simp [hp, hmp])
    rw [hp, hr] at hlt
    rcases hnext with hx | hx
    · obtain ⟨i, hi, rest⟩ := ih (j + 1) (by omega) hx (by omega)
      exact ⟨i, by omega, rest⟩
    · exact ⟨j + 1, by omega, hx⟩

/-- R300: under its premises, every accepted event reaches `WIRE`. -/
theorem accepted_events_reach_the_wire (hkeep : Obligations.StepKeepsInvariant)
    (hstream : Obligations.AcceptedEventsStreamInOrder) (h : IsRun r) (h0 : Inv (r 0)) (hp : ProgressPremises r n) :
    ∃ k, n ≤ k ∧ SentBy r n k := by
  by_contra hno
  have unsent : ∀ k, n ≤ k → ¬ SentBy r n k := fun k hk hs => hno ⟨k, hk, hs⟩
  have hinv := h.inv hkeep h0
  have hnr := hp.noReset
  have noQ : ∀ k, n ≤ k → (r k).mpc ≠ .mHaltQ := fun k hk hm => unsent k hk (hp.guard k hk hm)
  -- the stream grows, so all that is sent of it is a proper part of what was accepted by `n`
  have grow : ∀ k, n ≤ k → (r n).stream <+: (r k).stream := by
    intro k hk
    induction hk with
    | refl => exact List.prefix_refl _
    | @step m hm ih => exact ih.trans (h.stream_grows hstream (hinv m) (hnr m hm) (noQ m hm))
  have short : ∀ k, n ≤ k → (r k).sent.length < (r n).stream.length := by
    intro k hk
    have hs : (r k).sent <+: (r k).stream := by
      unfold State.stream; rw [List.append_assoc]; exact List.prefix_append _ _
    by_contra hge
    exact unsent k hk (List.prefix_of_prefix_length_le (grow k hk) hs (by omega))
  have busy : ∀ k, n ≤ k → (r k).mpc = .mDecide ∨ (r k).mpc = .mSnapExit → (r k).occupancy ≠ 0#32 := by
    intro k hk hm hz
    have : (r k).stream = (r k).sent := by
      rcases hm with hm | hm <;> simp [State.stream, State.inFlight, State.queued, hm, hz]
    exact unsent k hk (by unfold SentBy; rw [← this]; exact grow k hk)
  -- from some step `c` on no packet is accepted
  have packets : ∀ k, (r k).wire.length ≤ (r k).sent.length := by
    intro k
    unfold State.sent
    have := (hinv k).wirePackets
    generalize (r k).wire = ws at this
    induction ws with
    | nil => simp
    | cons p ps ih =>
      have hp' := ih (fun q hq => this q (List.mem_cons_of_mem _ hq))
      obtain ⟨j, h1, _, hl⟩ := this p (List.mem_cons_self ..)
      obtain ⟨ws, hws⟩ := Option.isSome_iff_exists.mp (cutWords_isSome p j hl)
      have := cutWords_length p ws hws
      simp only [List.flatMap_cons, List.length_cons, List.length_append, wordsOf, hws, Option.getD_some]
      omega
  have change : ∀ k, n ≤ k → ((r k).mainTakes .mSubmit ∧ (afterMove (r k)).env.answer = .accepted ∧
        (r (k + 1)).wire.length = (r k).wire.length + 1) ∨
      ((r (k + 1)).wire = (r k).wire ∧ (r (k + 1)).lastSent = (r k).lastSent ∧
        ((r k).mpc = .mSubmit → (r (k + 1)).mpc = .mSubmit ∧
          ((r k).mainTakes .mSubmit → (afterMove (r k)).env.answer = .busy))) := by
    intro k hk
    by_cases hm : nextMove (r k) = .mstep
    · obtain ⟨t, e, ht, he⟩ := h.main hm
      rw [he]
      rcases ht.wire with ⟨a, b, c⟩ | ⟨a, b, c⟩
      · exact .inl ⟨⟨hm, by simpa using a⟩, b, by simpa using c⟩
      · exact .inr ⟨by simpa using a, by simpa using b,
          fun hs => ⟨(c (by simpa using hs)).2, fun _ => (c (by simpa using hs)).1⟩⟩
    · obtain ⟨a, _, c, d⟩ := h.stay hm (hnr k hk)
      exact .inr ⟨c, d, fun hs => ⟨a.trans hs, fun ht => absurd ht.1 hm⟩⟩
  obtain ⟨c, hc, fixed⟩ := eventually_constant (f := fun k => (r k).wire.length) (n := n) (b := (r n).stream.length)
    (fun k hk => by rcases change k hk with ⟨_, _, e⟩ | ⟨e, _⟩ <;> simp only [e] <;> omega)
    (fun k hk => Nat.le_trans (packets k) (Nat.le_of_lt (short k hk)))
  have quiet : ∀ k, c ≤ k → (r (k + 1)).lastSent = (r k).lastSent ∧
      ((r k).mpc = .mSubmit → (r (k + 1)).mpc = .mSubmit) ∧
      ¬ ((r k).mainTakes .mSubmit ∧ (afterMove (r k)).env.answer = .accepted) := by
    intro k hk
    rcases change k (by omega) with ⟨_, _, e⟩ | ⟨_, b, d⟩
    · have := fixed k hk; have := fixed (k + 1) (by omega); omega
    · refine ⟨b, fun hs => (d hs).1, fun ⟨hs, ha⟩ => ?_⟩
      rw [(d hs.2).2 hs] at ha; simp at ha
  have sameSent : ∀ k, c ≤ k → (r k).lastSent = (r c).lastSent := by
    intro k hk
    induction hk with
    | refl => rfl
    | @step m hm ih => exact ((quiet m hm).1).trans ih
  -- so the main loop is never at a `send`
  have noSubmit : ∀ k, c ≤ k → (r k).mpc ≠ .mSubmit := by
    intro k hk hm
    have stays : ∀ j, k ≤ j → (r j).mpc = .mSubmit := by
      intro j hj
      induction hj with
      | refl => exact hm
      | @step m hkm ih => exact (quiet m (Nat.le_trans hk hkm)).2.1 ih
    have often : InfinitelyOften (fun j => (r j).mainTakes .mSubmit) := by
      intro a
      obtain ⟨j, hj, hmv⟩ := hp.scheduled (max a k)
      exact ⟨j, by omega, hmv, stays j (by omega)⟩
    obtain ⟨j, hj, ha⟩ := hp.accepts often c
    exact (quiet j hj).2.2 ha
  -- and decides again and again
  have often : InfinitelyOften (fun k => (r k).mainTakes .mDecide) := by
    intro a
    obtain ⟨j, hj, hmv, ht⟩ := h.reaches_target hinv hnr hp.scheduled _ (max a c) (by omega) (Nat.le_refl _)
    rcases ht with ht | ht | ht
    · exact ⟨j, by omega, hmv, ht⟩
    · exact absurd ht (noSubmit j (by omega))
    · exact absurd ht (noQ j (by omega))
  obtain ⟨d, hd, hdm, hdp⟩ := often c
  -- after one decision, every decision sees the queue's events
  have sees : ∀ k, d + 1 ≤ k → (r k).mpc = .mDecide → (r k).m.avail ≠ 0#32 := by
    intro k hk
    induction hk with
    | refl =>
      intro hm
      obtain ⟨t, e, ht, he⟩ := h.main hdm
      rw [he] at hm
      have := (ht.to_decide (by rw [afterMove_eq]; exact (hinv d).setEnv _) hm).1
      simp [hdp] at this
    | @step m hkm ih =>
      intro hm
      have hkm : d + 1 ≤ m := hkm
      by_cases hmv : nextMove (r m) = .mstep
      · obtain ⟨t, e, ht, he⟩ := h.main hmv
        rw [he] at hm ⊢
        obtain ⟨hx, ha⟩ := ht.to_decide (by rw [afterMove_eq]; exact (hinv m).setEnv _) hm
        have := busy m (by omega) (.inr (by simpa using hx))
        simpa [ha, State.occupancy] using this
      · obtain ⟨a, b, _⟩ := h.stay hmv (hnr m (by omega))
        rw [b]; exact ih (a.symm.trans hm)
  -- and the first one that finds the interval over starts a packet, which ends in a `send`
  obtain ⟨j, hj, ⟨hjm, hjp⟩, htrig⟩ := hp.wallClock often (r c).lastSent (d + 1)
  have havail := sees j hj hjp
  obtain ⟨t, e, ht, he⟩ := h.main hjm
  have hdrain : (r (j + 1)).mpc = .mDrain := by
    rw [he]
    cases ht with
    | decided =>
      have hpos : 0 < toSend (r j).m.avail (afterMove (r j)).env.wall (r j).lastSent := by
        have : (r j).m.avail.toNat ≠ 0 := fun hz => havail (BitVec.eq_of_toNat_eq hz)
        rw [sameSent j (by omega)]
        simp only [toSend, htrig, Bool.or_true, if_true, Config.chunkSize]; omega
      simp [decideFlush, hpos]
    | clock p hx => simp [hjp, Mpc.clkPhase] at hx
    | drained _ hx | submitted _ hx | haltQ hx | snapEnter hx | snapW hx | snapR hx | snapExit hx | haltCnt hx | haltIrq hx
    | idled hx | tested hx => simp [hjp] at hx
  obtain ⟨i, hi, hsub⟩ := h.drain_ends hinv hnr hp.scheduled _ (j + 1) (by omega) hdrain (Nat.le_refl _)
  exact noSubmit i (by omega) hsub

end Sys2Proof.Machine
end

