-- ==== Sys2Proof/Laws/Runs.lean ====
section
/-! SUPPORT. Laws/Runs.lean: runs of several operations, runs of ticks, and the clock read step by step. -/

namespace Sys2Proof.Machine

theorem runOps_append (a b : List Instr) : ∀ s, runOps (a ++ b) s = (runOps a s).bind (runOps b) := by
  induction a with
  | nil => intro s; rfl
  | cons i is ih =>
    intro s
    simp only [List.cons_append, runOps]
    split
    · exact ih _
    · rfl
    · rfl

theorem runOps_cons_of_next {i : Instr} {is : List Instr} {s t : State} (h : exec i s = .next t) :
    runOps (i :: is) s = runOps is t := by
  simp [runOps, h]

/-! ### Ticks -/

theorem exec_cntTick {s : State} (h : s.cntRun = true) : exec .cntTick s = .next (tickCounters s) := by
  simp [exec, execCntTick, h]

/-- A tick changes the two counters and nothing else (R120). -/
theorem tickCounters_eq (s : State) :
    tickCounters s = { s with cntLo := (tickCounters s).cntLo, cntHi := (tickCounters s).cntHi } := by
  unfold tickCounters; split <;> rfl

/-- R39 as arithmetic. -/
theorem clock_toNat (s : State) : s.clock.toNat = s.cntHi.toNat * 65536 + s.cntLo.toNat := ext_toNat _ _

/-- R120's consequence. -/
theorem clock_tickCounters (s : State) : (tickCounters s).clock = s.clock + 1#32 := by
  apply BitVec.eq_of_toNat_eq
  have hlo := s.cntLo.isLt
  have hhi := s.cntHi.isLt
  rw [BitVec.toNat_add, clock_toNat, clock_toNat]
  simp only [tickCounters_cntHi, tickCounters_cntLo]
  split
  · rename_i hl
    rw [hl, BitVec.toNat_add]
    simp
    omega
  · rename_i hl
    have hne : s.cntLo.toNat ≠ 65535 := fun hh => hl (BitVec.eq_of_toNat_eq hh)
    rw [BitVec.toNat_add]
    simp
    omega

/-- A run of ticks while the counters run. -/
theorem runOps_ticks (n : Nat) : ∀ s : State, s.cntRun = true → ∃ t, runOps (ticks n) s = some t ∧
    t = { s with cntLo := t.cntLo, cntHi := t.cntHi } ∧ t.clock = s.clock + BitVec.ofNat 32 n := by
  induction n with
  | zero => intro s _; exact ⟨s, rfl, rfl, by simp⟩
  | succ n ih =>
    intro s h
    obtain ⟨t, h1, h2, h3⟩ := ih (tickCounters s) (by simpa using h)
    refine ⟨t, ?_, ?_, ?_⟩
    · have hc : ticks (n + 1) = .cntTick :: ticks n := rfl
      rw [hc, runOps_cons_of_next (exec_cntTick h)]
      exact h1
    · rw [h2, tickCounters_eq s]
    · rw [h3, clock_tickCounters]
      apply BitVec.eq_of_toNat_eq
      simp
      omega

/-! ### The clock read in either context -/

/-- The state with a context's clock-read registers and phase replaced. -/
def setClk (x : Ctx) (s : State) (c : ClkRegs) (p : Option ClkPhase) : State :=
  match x with
  | .M => { s with m := { s.m with clk := c }, mpc := Mpc.ofClk p }
  | .I => { s with i := { s.i with clk := c }, ipc := Ipc.ofClk p }

/-- R123, R124: a step of `CLK.READ` in the context `x`. -/
theorem exec_clkRead (x : Ctx) (s : State) (p : ClkPhase) (h : s.clkPhase x = some p) :
    exec (.clkRead x) s =
      .next (setClk x s (clkStep s.cntHi s.cntLo (s.clkRegs x) p) (clkNext s.cntHi (s.clkRegs x) p)) := by
  cases x <;> simp only [exec, execClkRead, h] <;> rfl

theorem clkRegs_setClk (x : Ctx) (s : State) (c : ClkRegs) (p : Option ClkPhase) : (setClk x s c p).clkRegs x = c := by
  cases x <;> rfl

theorem clock_setClk (x : Ctx) (s : State) (c : ClkRegs) (p : Option ClkPhase) : (setClk x s c p).clock = s.clock := by
  cases x <;> rfl

theorem clkPhase_setClk (x : Ctx) (s : State) (c : ClkRegs) (p : Option ClkPhase) (q : ClkPhase)
    (h : s.clkPhase x = some q) : (setClk x s c p).clkPhase x = p := by
  cases x with
  | M =>
    simp only [State.clkPhase] at h
    split at h
    · rename_i hi
      rcases p with _ | p
      · simp [setClk, State.clkPhase, hi, Mpc.ofClk, Mpc.clkPhase]
      · cases p <;> simp [setClk, State.clkPhase, hi, Mpc.ofClk, Mpc.clkPhase]
    · simp at h
  | I =>
    rcases p with _ | p
    · simp [setClk, State.clkPhase, Ipc.ofClk, Ipc.clkPhase]
    · cases p <;> simp [setClk, State.clkPhase, Ipc.ofClk, Ipc.clkPhase]

end Sys2Proof.Machine
end

