-- ==== Sys2Proof/Tests/Slice0.lean ====
section
/-! SUPPORT. Tests/Slice0.lean: the model's own tests. Expected values are those of the spec: its examples and the vectors
of 95_test_vectors.md, part 2 (V1 to V11), cited at each test. Then a witness for the hypotheses of each statement. -/

namespace Sys2Proof.Tests

open Sys2Proof.Machine

/-! ### Helpers -/

/-- The state of a result, if it is a next state. -/
def next? : Result → Option State
  | .next s => some s
  | .fault _ => none
  | .refused _ => none

/-- The refusal of a result. -/
def refusal? : Result → Option Refusal
  | .next _ => none
  | .fault _ => none
  | .refused r => some r

/-- The fault of a result. -/
def fault? : Result → Option Fault
  | .next _ => none
  | .fault f => some f
  | .refused _ => none

/-- The environment of the vectors: `p0 -> 0, p1 -> 1, p2 -> 2, p3 -> 3`, and nothing drawn yet. -/
def env0 : Env :=
  { pinMap := [(0, 0#2), (1, 1#2), (2, 2#2), (3, 3#2)], moves := [], levels := [], walls := [], answers := [],
    drawn := 0, pendq := [] }

/-- The reset state in that environment. -/
def s0 : State := { State.reset with env := env0 }

/-- The cursors and the counters at given values. -/
def cursorsAt (w r : Word) (hi lo : Half) : State := { s0 with writeIndex := w, readIndex := r, cntHi := hi, cntLo := lo }

/-- The main loop at a phase. -/
def atM (p : Mpc) : State := { s0 with mpc := p }

/-- A run of pin 2 at a phase, channel 2. -/
def atI (p : Ipc) : State := { s0 with ipc := p, i := { IrqRegs.reset with pin := 2, ch := 2#2 } }

/-- The end of a run of pin 2 at the clock value `t`, the level still to be drawn. -/
def finishing (w r : Word) (t : Word) (b : Bit) : State :=
  { s0 with
    writeIndex := w, readIndex := r, ipc := .iFinish
    i := { IrqRegs.reset with pin := 2, ch := 2#2, clk := { ClkRegs.reset with t := t } }
    env := { env0 with levels := [b] } }

/-- The decision with the given snapshot, last send and wall clock. -/
def deciding (avail last now : Word) : State :=
  { s0 with
    mpc := .mDecide, lastSent := last, m := { MainRegs.reset with avail := avail }, env := { env0 with walls := [now] } }

/-- A drain of slot `a` at the position `k` of `n`, the slot holding `w`. -/
def draining (a : Word) (k n : Count) (w : Word) : State :=
  { s0 with
    writeIndex := a + 1#32, readIndex := a, mpc := .mDrain, pktLen := 4 * k.toNat
    mem := { qmem := [(slot a, w)], pkt := [] }
    m := { MainRegs.reset with n := n, k := k } }

/-- The packet `E8 03 00 C0` waiting for the transport (V8). -/
def submitting (a : Answer) : State :=
  { s0 with
    writeIndex := 1#32, readIndex := 1#32, mpc := .mSubmit, pktLen := 4, lastSent := 3#32
    mem := { qmem := [(0, 0xC00003E8#32)], pkt := [(0, 0xE8#8), (1, 0x03#8), (2, 0x00#8), (3, 0xC0#8)] }
    m := { MainRegs.reset with n := 1#5, k := 1#5, now := 7#32 }
    env := { env0 with answers := [a] } }

/-- The halt's start in V9. -/
def halting (p : Mpc) (run en : Bool) : State :=
  { s0 with
    writeIndex := 40#32, readIndex := 32#32, cntHi := 0x2000#16, cntLo := 3#16, cntRun := run, irqSrcEn := en, mpc := p }

/-- The halted state of V9 at a phase. -/
def haltedAt (p : Mpc) : State :=
  { s0 with cntHi := 0x2000#16, cntLo := 3#16, cntRun := false, irqSrcEn := false, mpc := p }

/-- A state with the given moves to come. -/
def moves (s : State) (ms : List Move) : State := { s with env := { s.env with moves := ms } }

/-! ### Well-formedness: a term that each check refuses -/

theorem test_wf_refuses_empty_packet : (Instr.pkt []).wf = false := by decide
theorem test_wf_refuses_seventeen_words : (Instr.pkt (List.replicate 17 0#32)).wf = false := by decide
theorem test_wf_admits_one_and_sixteen_words :
    (Instr.pkt [0#32]).wf = true ∧ (Instr.pkt (List.replicate 16 0#32)).wf = true := by decide

/-! ### Encodings, written out bit by bit from R90, R99 and R94 (values of V3 and V8) -/

theorem test_decode_fall0 : decodeWord 0b00011111111111111111111111111111#32 = some (.evwFall0 0x1FFFFFFF#29) := by decide
theorem test_decode_fall1 : decodeWord 0b00100000000000000000000000000001#32 = some (.evwFall1 1#29) := by decide
theorem test_decode_fall2 : decodeWord 0b01000000000000000000011111010000#32 = some (.evwFall2 2000#29) := by decide
theorem test_decode_fall3 : decodeWord 0b01110010001101000101011001111000#32 = some (.evwFall3 0x12345678#29) := by decide
theorem test_decode_rise0 : decodeWord 0b10000000000000000000000000000001#32 = some (.evwRise0 1#29) := by decide
theorem test_decode_rise1 : decodeWord 0b10100000000000010000000000000000#32 = some (.evwRise1 0x00010000#29) := by decide
theorem test_decode_rise2 : decodeWord 0b11000000000000000000001111101000#32 = some (.evwRise2 1000#29) := by decide
theorem test_decode_rise3 : decodeWord 0b11111111111111111111111111111111#32 = some (.evwRise3 0x1FFFFFFF#29) := by decide

/-- The row of an event word at the front of a byte stream. -/
def row? (r : Except DecodeError (Instr × List Byte)) : Option (Instr × List Byte) :=
  match r with
  | .ok x => some x
  | .error _ => none

/-- The packet of a byte string, or why there is none. -/
def packet? (r : Except DecodeError Instr) : Option Instr × Option DecodeError :=
  match r with
  | .ok i => (some i, none)
  | .error e => (none, some e)

theorem test_decode_event_bytes :
    row? (decodeEvent [0xE8#8, 0x03#8, 0x00#8, 0xC0#8, 0x55#8]) = some (.evwRise2 1000#29, [0x55#8]) := by decide
theorem test_decode_event_truncated : row? (decodeEvent [0xE8#8, 0x03#8, 0x00#8]) = none := by decide
theorem test_decode_packet :
    packet? (decodePacket [0xE8#8, 0x03#8, 0x00#8, 0xC0#8, 0xD0#8, 0x07#8, 0x00#8, 0x40#8]) =
      (some (.pkt [0xC00003E8#32, 0x400007D0#32]), none) := by decide
theorem test_decode_packet_refusals :
    packet? (decodePacket []) = (none, some .emptyPacket) ∧
    packet? (decodePacket (List.replicate 68 0#8)) = (none, some .packetTooLong) ∧
    packet? (decodePacket (List.replicate 6 0#8)) = (none, some .notWholeWords) := by decide
theorem test_encode :
    encode (.evwRise2 1000#29) = some [0xE8#8, 0x03#8, 0x00#8, 0xC0#8] ∧
    encode (.pkt [0x12345678#32, 0xBFFFFFFE#32]) =
      some [0x78#8, 0x56#8, 0x34#8, 0x12#8, 0xFE#8, 0xFF#8, 0xFF#8, 0xBF#8] := by decide
theorem test_table_word :
    decodeTableWord 32 0xC00003E8 = some (.evwRise2 1000#29) ∧
    decodeTableWord 32 0x72345678 = some (.evwFall3 0x12345678#29) ∧
    decodeTableWord 64 0x400007D0C00003E8 = some (.pkt [0xC00003E8#32, 0x400007D0#32]) ∧
    decodeTableWord 0 0 = none := by decide
theorem test_table_word_runs_first_after_reset :
    (next? (step (State.reset.withFetchWord 32 0xC00003E8))).map (·.host.events) =
      some [{ edge := 1#1, channel := 2#2, timestamp := 1000#32 }] ∧
    (next? (step (State.reset.withFetchWord 64 0x400007D0C00003E8))).map (·.host.inbox) =
      some [0xC00003E8#32, 0x400007D0#32] := by decide
theorem test_masks_of_the_rows_are_disjoint :
    (List.map (fun k => (BitVec.ofNat 32 (k * 2 ^ 29) &&& tagMask)) (List.range 8)).Nodup := by decide

/-- R11: the relations the parameters keep. -/
theorem test_parameters :
    Config.queueCapacity = 2 ^ 10 ∧ 2 ^ 32 % Config.queueCapacity = 0 ∧
    Config.tsBits + Config.chBits + 1 = Config.wordBits ∧ 2 * Config.cntBits = Config.wordBits ∧
    Config.rangeLimit = 2 ^ Config.tsBits ∧ Config.chunkSize ≤ Config.queueCapacity ∧
    Config.pktMaxBytes = 4 * Config.chunkSize ∧ Config.nChannels = 2 ^ Config.chBits := by decide

/-! ### Formats -/

/-- The events the receiver has after an instruction. -/
def events? (i : Instr) : Option (List Event) := (next? (exec i s0)).map (·.host.events)

theorem test_evw_fall0 : events? (.evwFall0 0x1FFFFFFF#29) = some [⟨0#1, 0#2, 0x1FFFFFFF#32⟩] := by decide
theorem test_evw_fall1 : events? (.evwFall1 1#29) = some [⟨0#1, 1#2, 1#32⟩] := by decide
theorem test_evw_fall2 : events? (.evwFall2 2000#29) = some [⟨0#1, 2#2, 2000#32⟩] := by decide
theorem test_evw_fall3 : events? (.evwFall3 0x12345678#29) = some [⟨0#1, 3#2, 0x12345678#32⟩] := by decide
theorem test_evw_rise0 : events? (.evwRise0 0#29) = some [⟨1#1, 0#2, 0#32⟩] := by decide
theorem test_evw_rise1 : events? (.evwRise1 0x10000#29) = some [⟨1#1, 1#2, 0x10000#32⟩] := by decide
theorem test_evw_rise2 : events? (.evwRise2 1000#29) = some [⟨1#1, 2#2, 1000#32⟩] := by decide
theorem test_evw_rise3 : events? (.evwRise3 0x1FFFFFFF#29) = some [⟨1#1, 3#2, 0x1FFFFFFF#32⟩] := by decide
theorem test_pkt : (next? (exec (.pkt [0xC00003E8#32, 0x400007D0#32]) s0)).map (·.host.inbox) =
    some [0xC00003E8#32, 0x400007D0#32] := by decide
theorem test_pkt_empty : refusal? (exec (.pkt []) s0) = some .notAPacket := by decide

/-! ### The clock (V1, V2) -/

theorem test_tick_rollover :
    (next? (exec .cntTick (cursorsAt 0#32 0#32 0x0001#16 0xFFFF#16))).map (fun s => (s.cntHi, s.cntLo)) =
      some (0x0002#16, 0x0000#16) := by decide
theorem test_tick_wrap :
    (next? (exec .cntTick (cursorsAt 0#32 0#32 0xFFFF#16 0xFFFF#16))).map (·.clock) = some 0#32 := by decide
theorem test_clk_read_branch_a :
    (next? (exec (.clkRead .M) { cursorsAt 0#32 0#32 0x0001#16 0xFFFF#16 with
      mpc := .mGR3, m := { MainRegs.reset with clk := ⟨0x0001#16, 0xFFFF#16, 0#16, 0#32⟩ } })).map
        (fun s => (s.m.clk.t, s.mpc)) = some (0x0001FFFF#32, .mGTest) := by decide
theorem test_clk_read_branch_b :
    (next? (exec (.clkRead .I) { cursorsAt 0#32 0#32 0x0002#16 0x0005#16 with
      ipc := .iR4, i := { IrqRegs.reset with clk := ⟨0x0001#16, 0xFFFF#16, 0x0002#16, 0#32⟩ } })).map
        (fun s => (s.i.clk.t, s.i.clk.l, s.ipc)) = some (0x00020005#32, 0x0005#16, .iFinish) := by decide

/-! ### Events (V3, V10) -/

theorem test_pack : (next? (exec (.evPack 1#1 2#2 0x000003E8#32) s0)).map (·.i.word) = some 0xC00003E8#32 := by decide
theorem test_pack_truncates :
    (next? (exec (.evPack 1#1 1#2 0x20000005#32) s0)).map (·.i.word) = some 0xA0000005#32 := by decide
theorem test_unpack : events? (.evUnpack 0x72345678#32) = some [⟨0#1, 3#2, 0x12345678#32⟩] := by decide
theorem test_edge_unmonitored : next? (exec (.edgeIrq 9) s0) = some s0 := by decide
theorem test_edge_finish :
    (next? (exec (.edgeIrq 2) (finishing 0#32 0#32 0x3E8#32 1#1))).map
      (fun s => (s.mem.qmem, s.writeIndex, s.ipc, s.i.ok)) = some ([(0, 0xC00003E8#32)], 1#32, .iIdle, true) := by decide

/-! ### The queue (V4, V5, V6) -/

theorem test_push_last_free_slot :
    (next? (exec (.qPush 0xC00003E8#32) (finishing 1023#32 0#32 0#32 0#1))).map
      (fun s => (s.mem.qmem, s.writeIndex, s.i.ok)) = some ([(1023, 0xC00003E8#32)], 1024#32, true) := by decide
theorem test_push_full_across_the_wrap :
    (next? (exec (.qPush 1#32) (finishing 0x3FF#32 0xFFFFFFFF#32 0#32 0#1))).map
      (fun s => (s.mem.qmem, s.writeIndex, s.readIndex, s.i.ok)) =
        some ([], 0x3FF#32, 0xFFFFFFFF#32, false) := by decide
theorem test_crit_enter : (next? (exec .critEnter (atM .mSnapEnter))).map (fun s => (s.irqMask, s.mpc)) =
    some (true, .mSnapW) := by decide
theorem test_crit_exit :
    (next? (exec .critExit { atM .mSnapExit with
      irqMask := true, irqSrcEn := false, m := { MainRegs.reset with w := 5#32, r := 0xFFFFFFFE#32 } })).map
        (fun s => (s.irqMask, s.irqSrcEn, s.m.avail)) = some (false, false, 7#32) := by decide
theorem test_snapshot :
    (next? (exec .qSnapshot { cursorsAt 40#32 24#32 0#16 0#16 with mpc := .mSnapW, irqMask := true })).map
      (fun s => (s.m.w, s.mpc)) = some (40#32, .mSnapR) := by decide
theorem test_drain_slot_1023 :
    (next? (exec .qDrain (draining 1023#32 1#5 3#5 0x12345678#32))).map
      (fun s => (s.readIndex, s.m.k, s.mpc, s.mem.pkt)) =
        some (1024#32, 2#5, .mDrain, [(4, 0x78#8), (5, 0x56#8), (6, 0x34#8), (7, 0x12#8)]) := by decide
theorem test_drain_unwritten_slot :
    fault? (exec .qDrain { draining 5#32 0#5 1#5 0#32 with mem := Memory.reset }) = some (.slotUnwritten 5) := by decide
theorem test_queue_reset :
    (next? (exec .qReset (halting .mHaltQ false false))).map (fun s => (s.writeIndex, s.readIndex, s.mpc)) =
      some (0#32, 0#32, .mIdle) := by decide

/-! ### The transmitter (V7, V8) -/

theorem test_decide_time_trigger_across_the_wrap :
    (next? (exec .txDecide (deciding 1#32 0xFFFFFFFF#32 1#32))).map (fun s => (s.m.n, s.mpc)) =
      some (1#5, .mDrain) := by decide
theorem test_decide_neither_trigger :
    (next? (exec .txDecide (deciding 15#32 100#32 101#32))).map (fun s => (s.m.n, s.mpc)) =
      some (0#5, .mGR1) := by decide
theorem test_serialize :
    (next? (exec (.txSerialize 0xBFFFFFFE#32) (draining 0#32 1#5 2#5 0#32))).map (fun s => (s.mem.pkt, s.pktLen)) =
      some ([(4, 0xFE#8), (5, 0xFF#8), (6, 0xFF#8), (7, 0xBF#8)], 8) := by decide
theorem test_submit_accepted :
    (next? (exec .txSubmit (submitting .accepted))).map (fun s => (s.wire, s.lastSent, s.mpc)) =
      some ([[0xE8#8, 0x03#8, 0x00#8, 0xC0#8]], 7#32, .mGR1) := by decide
theorem test_submit_busy :
    (next? (exec .txSubmit (submitting .busy))).map (fun s => (s.wire, s.lastSent, s.mpc, s.pktLen)) =
      some ([], 3#32, .mSubmit, 4) := by decide
theorem test_tx_step : next? (exec .txStep (deciding 16#32 100#32 100#32)) =
    next? (exec .txDecide (deciding 16#32 100#32 100#32)) := by decide
theorem test_tx_step_outside : refusal? (exec .txStep (atM .mGTest)) = some .notEnabled := by decide

/-! ### The guard and the main loop (V9) -/

/-- The test of the guard on a clock value. -/
def guard? (t : Word) : Option Mpc :=
  (next? (exec .guardStep { atM .mGTest with m := { MainRegs.reset with clk := ⟨0#16, 0#16, 0#16, t⟩ } })).map (·.mpc)

theorem test_guard_below : guard? 0x1FFFFFFF#32 = some .mIdle := by decide
theorem test_guard_at_and_above :
    guard? 0x20000000#32 = some .mHaltCnt ∧ guard? 0xFFFFFFFF#32 = some .mHaltCnt := by decide
theorem test_halt_counters :
    (next? (exec .guardHalt (halting .mHaltCnt true true))).map
      (fun s => (s.cntRun, s.irqSrcEn, s.writeIndex, s.cntHi, s.cntLo, s.mpc)) =
        some (false, true, 40#32, 0x2000#16, 3#16, .mHaltIrq) := by decide
theorem test_halt_interrupts :
    (next? (exec .guardHalt (halting .mHaltIrq false true))).map (fun s => (s.cntRun, s.irqSrcEn, s.mpc)) =
      some (false, false, .mHaltQ) := by decide
theorem test_main_idle : (next? (exec .mainIter (atM .mIdle))).map (·.mpc) = some .mSnapEnter := by decide
theorem test_main_waits_for_a_run : refusal? (exec .mainIter (atI .iR2)) = some .notEnabled := by decide

/-! ### Reset and the step relation (V11) -/

theorem test_reset :
    (next? (exec .sysReset (haltedAt .mGR1))).map
      (fun s => (s.writeIndex, s.irqSrcEn, s.irqMask, s.cntRun, s.clock, s.mpc)) =
        some (0#32, true, false, true, 0#32, .mSnapEnter) := by decide

/-- Which of `tick`, `irq 0`, `istep` and `mstep` a state enables. -/
def legal (s : State) : Bool × Bool × Bool × Bool :=
  (enabled .tick s, enabled (.irq 0) s, enabled .istep s, enabled .mstep s)

theorem test_step_relation :
    legal s0 = (true, true, false, true) ∧
    legal (atI .iR2) = (true, false, true, false) ∧
    legal { atM .mSnapR with irqMask := true } = (true, false, false, true) ∧
    legal (halting .mHaltIrq false true) = (false, true, false, true) ∧
    legal (haltedAt .mIdle) = (false, false, false, true) := by decide
theorem test_step_runs_a_trace_line :
    (next? (step (moves s0 [.irq 2]))).map (fun s => (s.ipc, s.i.ch, s.env.moves)) = some (.iR1, 2#2, []) ∧
    refusal? (step (moves s0 [.istep])) = some .notEnabled := by decide

/-! ### Witnesses: states and operands that meet the hypotheses of each statement

Each theorem names the statement it is for; where the statement has several clauses it gives one case for each, at the
boundary of its range. -/

theorem witness_UnpackInvertsPack : (0x1FFFFFFF#32).toNat < 2 ^ 29 := by decide

theorem witness_PacketReachesTheReceiver :
    (1 ≤ [0#32].length ∧ [0#32].length ≤ 16) ∧
    (1 ≤ (List.replicate 16 0#32).length ∧ (List.replicate 16 0#32).length ≤ 16) ∧
    (([] : List Word).length = 0 ∨ 16 < ([] : List Word).length) ∧
    ((List.replicate 17 0#32).length = 0 ∨ 16 < (List.replicate 17 0#32).length) := by decide

theorem witness_DecodeOfEncodeIsIdentity :
    ((Instr.evwRise3 0x1FFFFFFF#29).wf = true ∧ encode (.evwRise3 0x1FFFFFFF#29) = some (leBytes 0xFFFFFFFF#32)) ∧
    ((Instr.pkt (List.replicate 16 1#32)).wf = true ∧
      encode (.pkt (List.replicate 16 1#32)) = some (packetBytes (List.replicate 16 1#32))) := by decide

theorem witness_EveryWordIsOneEvent : encode (.evwFall0 0#29) = some (leBytes 0#32) := by decide

theorem witness_PacketLayoutIsLittleEndian :
    packetWf [0xC00003E8#32] = true ∧ packetWf (List.replicate 16 0xC00003E8#32) = true ∧
    (List.replicate 16 0xC00003E8#32)[15]? = some 0xC00003E8#32 := by decide

theorem witness_TickAdvancesTheExtendedClock :
    (cursorsAt 0#32 0#32 0xFFFF#16 0xFFFF#16).cntRun = true ∧ (haltedAt .mIdle).cntRun = false := by decide

theorem witness_OnlyTickAndResetWriteTheCounters :
    exec .critEnter s0 = .next (enterCritical s0) ∧ Instr.critEnter ≠ .sysReset ∧ Instr.critEnter ≠ .cntTick :=
  ⟨rfl, by decide, by decide⟩

theorem witness_ClockReadInTheInterruptContext :
    (atI .iR1).ipc = .iR1 ∧ (atI .iR2).ipc = .iR2 ∧
    ((atI .iR3).ipc = .iR3 ∧ (atI .iR3).i.clk.h1 = (atI .iR3).cntHi) ∧
    ({ atI .iR3 with cntHi := 1#16 }.ipc = .iR3 ∧
      { atI .iR3 with cntHi := 1#16 }.i.clk.h1 ≠ { atI .iR3 with cntHi := 1#16 }.cntHi) ∧
    (atI .iR4).ipc = .iR4 ∧ (atI .iIdle).ipc = .iIdle ∧ (atI .iFinish).ipc = .iFinish := by decide

theorem witness_ClockReadInTheMainLoop :
    (atM .mGR1).ipc = .iIdle ∧ (atM .mGR1).mpc = .mGR1 ∧ (atM .mGR2).mpc = .mGR2 ∧
    ((atM .mGR3).mpc = .mGR3 ∧ (atM .mGR3).m.clk.h1 = (atM .mGR3).cntHi) ∧
    ({ atM .mGR3 with cntHi := 1#16 }.mpc = .mGR3 ∧
      { atM .mGR3 with cntHi := 1#16 }.m.clk.h1 ≠ { atM .mGR3 with cntHi := 1#16 }.cntHi) ∧
    (atM .mGR4).mpc = .mGR4 ∧ (atI .iR1).ipc ≠ .iIdle ∧ (atM .mGTest).mpc ≠ .mGR4 := by decide

/-- Branch B in the interrupt context (V2, row e), branch A in the main loop at the last clock value, and a clock stopped
under a run and under the guard. -/
theorem witness_ClockReadIsBracketed :
    ({ atI .iR1 with cntHi := 1#16, cntLo := 0xFFFF#16 }.clkPhase .I = some .r1 ∧
      { atI .iR1 with cntHi := 1#16, cntLo := 0xFFFF#16 }.cntRun = true ∧
      { atI .iR1 with cntHi := 1#16, cntLo := 0xFFFF#16 }.clock.toNat + 0 + 1 + 65539 < 2 ^ 32) ∧
    ({ atM .mGR1 with cntHi := 0xFFFF#16, cntLo := 0xFFFF#16 }.clkPhase .M = some .r1 ∧
      { atM .mGR1 with cntHi := 0xFFFF#16, cntLo := 0xFFFF#16 }.clock.toNat + 0 + 0 + 0 < 2 ^ 32) ∧
    ({ atI .iR1 with cntRun := false, cntHi := 0x2000#16, mpc := .mHaltIrq }.clkPhase .I = some .r1 ∧
      (haltedAt .mGR1).clkPhase .M = some .r1 ∧ (haltedAt .mGR1).cntRun = false) := by decide

theorem witness_EdgeEntryMapsThePin :
    s0.ipc = .iIdle ∧ s0.irqSrcEn = true ∧ s0.irqMask = false ∧ chanOfPin s0.env.pinMap 3 = some 3#2 ∧
    chanOfPin s0.env.pinMap 4 = none ∧ { s0 with irqMask := true }.irqMask = true ∧
    (haltedAt .mIdle).irqSrcEn = false := by decide

theorem witness_EdgeRunTakesBoundedSteps :
    (atI .iR4).ipc ≠ .iIdle ∧ (atI .iR4).ipc ≠ .iFinish ∧ (0 : Pin) ≠ (atI .iR4).i.pin := by decide

/-- Occupancy 1023, across the wrap of the cursor (V4). -/
theorem witness_EdgeFinishStoresTheEvent :
    (finishing 0x3FE#32 0xFFFFFFFF#32 0#32 1#1).ipc = .iFinish ∧
    ((finishing 0x3FE#32 0xFFFFFFFF#32 0#32 1#1).writeIndex + 1#32 -
      (finishing 0x3FE#32 0xFFFFFFFF#32 0#32 1#1).readIndex).toNat ≤ 1024 := by decide

/-- Occupancy 1024 (V4). -/
theorem witness_EdgeFinishDropsWhenFull :
    (finishing 1024#32 0#32 0#32 1#1).ipc = .iFinish ∧
    1024 < ((finishing 1024#32 0#32 0#32 1#1).writeIndex + 1#32 -
      (finishing 1024#32 0#32 0#32 1#1).readIndex).toNat := by decide

/-- Occupancy 1023 and 1024. -/
theorem witness_PushStoresOrRejects :
    ((finishing 1024#32 0#32 0#32 1#1).writeIndex - (finishing 1024#32 0#32 0#32 1#1).readIndex).toNat ≤ 1024 ∧
    (finishing 1023#32 0#32 0#32 1#1).ipc = .iFinish ∧
    ((finishing 1023#32 0#32 0#32 1#1).writeIndex + 1#32 - (finishing 1023#32 0#32 0#32 1#1).readIndex).toNat ≤ 1024 ∧
    (finishing 1024#32 0#32 0#32 1#1).ipc = .iFinish ∧
    1024 < ((finishing 1024#32 0#32 0#32 1#1).writeIndex + 1#32 -
      (finishing 1024#32 0#32 0#32 1#1).readIndex).toNat := by decide

theorem witness_CritEnterSetsTheMask : (atM .mSnapEnter).ipc = .iIdle ∧ (atM .mSnapEnter).mpc = .mSnapEnter := by decide

theorem witness_CritExitClearsTheMask : (atM .mSnapExit).ipc = .iIdle ∧ (atM .mSnapExit).mpc = .mSnapExit := by decide

theorem witness_SnapshotReadsTheCursors :
    (atM .mSnapW).ipc = .iIdle ∧ (atM .mSnapW).mpc = .mSnapW ∧ (atM .mSnapR).ipc = .iIdle ∧
    (atM .mSnapR).mpc = .mSnapR := by decide

theorem witness_SnapshotEqualsOneAtomicRead :
    (atM .mSnapEnter).ipc = .iIdle ∧ (atM .mSnapEnter).mpc = .mSnapEnter ∧ (atM .mSnapEnter).cntRun = true := by decide

/-- The last position of the packet and the last slot of the queue. -/
theorem witness_DrainConsumesTheOldestWord :
    (draining 1023#32 15#5 16#5 7#32).ipc = .iIdle ∧ (draining 1023#32 15#5 16#5 7#32).mpc = .mDrain ∧
    (draining 1023#32 15#5 16#5 7#32).m.k.toNat < 16 ∧
    (draining 1023#32 15#5 16#5 7#32).mem.readSlot (slot (draining 1023#32 15#5 16#5 7#32).readIndex) = some 7#32 := by
  decide

/-- Three words from slot 1022 on (V6). -/
def drainThree : State :=
  { draining 1022#32 0#5 3#5 0#32 with
    writeIndex := 1025#32, mem := { qmem := [(0, 9#32), (1022, 7#32), (1023, 8#32)], pkt := [] } }

theorem witness_DrainsReadInQueueOrder :
    drainThree.ipc = .iIdle ∧ drainThree.mpc = .mDrain ∧ 1 ≤ 3 ∧ drainThree.m.k.toNat + 3 ≤ drainThree.m.n.toNat ∧
    drainThree.m.n.toNat ≤ 16 ∧ ∀ j, j < 3 → (drainThree.mem.readSlot (drainThree.slotAt j)).isSome = true := by decide

theorem witness_SerializeWritesFourBytes :
    (draining 0#32 15#5 16#5 7#32).ipc = .iIdle ∧ (draining 0#32 15#5 16#5 7#32).mpc = .mDrain ∧
    (draining 0#32 15#5 16#5 7#32).m.k.toNat < 16 ∧ 16 ≤ (draining 0#32 16#5 16#5 7#32).m.k.toNat := by decide

theorem witness_CursorResetIsJoint :
    (halting .mHaltQ false false).ipc = .iIdle ∧ (halting .mHaltQ false false).mpc = .mHaltQ := by decide

/-- The size trigger at 16, the time trigger at 2 ms, and neither at 15 and 1 ms (V7). -/
theorem witness_DecideFollowsTheDualTrigger :
    (deciding 16#32 100#32 100#32).ipc = .iIdle ∧ (deciding 16#32 100#32 100#32).mpc = .mDecide ∧
    16 ≤ (deciding 16#32 100#32 100#32).m.avail.toNat ∧
    2 ≤ ((deciding 3#32 100#32 102#32).env.wall - (deciding 3#32 100#32 102#32).lastSent).toNat ∧
    (deciding 15#32 100#32 101#32).m.avail.toNat < 16 ∧
    ((deciding 15#32 100#32 101#32).env.wall - (deciding 15#32 100#32 101#32).lastSent).toNat < 2 := by decide

theorem witness_SubmitSendsOrRetries :
    (submitting .accepted).ipc = .iIdle ∧ (submitting .accepted).mpc = .mSubmit ∧
    (submitting .accepted).packet = some [0xE8#8, 0x03#8, 0x00#8, 0xC0#8] ∧
    (submitting .accepted).env.answer = .accepted ∧ (submitting .busy).packet = some [0xE8#8, 0x03#8, 0x00#8, 0xC0#8] ∧
    (submitting .busy).env.answer = .busy := by decide

theorem witness_BusyTransportStallsTheMainLoop :
    (submitting .busy).ipc = .iIdle ∧ (submitting .busy).mpc = .mSubmit ∧
    (submitting .busy).packet = some [0xE8#8, 0x03#8, 0x00#8, 0xC0#8] ∧
    (submitting .busy).env.answers = List.replicate 1 .busy ++ [] := by decide

theorem witness_RangeTestComparesWithTheLimit :
    (atM .mGTest).ipc = .iIdle ∧ (atM .mGTest).mpc = .mGTest ∧ (0x1FFFFFFF#32).toNat < 0x20000000 ∧
    0x20000000 ≤ (0x20000000#32).toNat := by decide

theorem witness_HaltStopsThenDisables :
    (halting .mHaltCnt true true).ipc = .iIdle ∧ (halting .mHaltCnt true true).mpc = .mHaltCnt ∧
    (halting .mHaltIrq false true).ipc = .iIdle ∧ (halting .mHaltIrq false true).mpc = .mHaltIrq := by decide

theorem drain_mainReady : (draining 1023#32 15#5 16#5 7#32).mainReady :=
  ⟨fun _ => by decide, fun h => by simp [draining] at h⟩

theorem submit_mainReady : (submitting .busy).mainReady :=
  ⟨fun h => by simp [submitting] at h, fun _ => by decide⟩

theorem atM_mainReady {p : Mpc} (h : p ≠ .mDrain ∧ p ≠ .mSubmit) : (atM p).mainReady :=
  ⟨fun hp => absurd hp h.1, fun hp => absurd hp h.2⟩

theorem witness_MainLoopFollowsItsTable :
    ((draining 1023#32 15#5 16#5 7#32).ipc = .iIdle ∧ (draining 1023#32 15#5 16#5 7#32).mainReady) ∧
    ((submitting .busy).ipc = .iIdle ∧ (submitting .busy).mainReady) ∧
    ((atM .mIdle).ipc = .iIdle ∧ (atM .mIdle).mainReady ∧ (atM .mIdle).mpc = .mIdle) :=
  ⟨⟨rfl, drain_mainReady⟩, ⟨rfl, submit_mainReady⟩, rfl, atM_mainReady (by decide), rfl⟩

theorem witness_CompositeOperationsTakeTheirPhases :
    ((draining 1023#32 15#5 16#5 7#32).mainReady ∧ (draining 1023#32 15#5 16#5 7#32).mpc.inTx = true ∧
      (draining 1023#32 15#5 16#5 7#32).mpc.inGuard = false ∧ (draining 1023#32 15#5 16#5 7#32).mpc.inHalt = false ∧
      (draining 1023#32 15#5 16#5 7#32).mpc.inSnapshot = false) ∧
    ((atM .mHaltQ).ipc = .iIdle ∧ (atM .mHaltQ).mainReady ∧ (atM .mHaltQ).mpc.inGuard = true ∧
      (atM .mHaltQ).mpc.inHalt = true ∧ (atM .mHaltQ).mpc.inTx = false) ∧
    ((atM .mSnapExit).mainReady ∧ (atM .mSnapExit).mpc.inSnapshot = true) :=
  ⟨⟨drain_mainReady, by decide⟩, ⟨rfl, atM_mainReady (by decide), by decide⟩, atM_mainReady (by decide), by decide⟩

/-- The halted state at the range limit itself. -/
theorem witness_GuardAfterHaltChangesNothing :
    { haltedAt .mGR1 with cntLo := 0#16 }.ipc = .iIdle ∧ { haltedAt .mGR1 with cntLo := 0#16 }.mpc = .mGR1 ∧
    { haltedAt .mGR1 with cntLo := 0#16 }.halted = true ∧
    0x20000000 ≤ { haltedAt .mGR1 with cntLo := 0#16 }.clock.toNat ∧
    { haltedAt .mGR1 with cntLo := 0#16 }.env.pendq = [] := by decide

theorem witness_StepRunsTheSelectedOperation :
    ((moves s0 [.tick]).env.moves = [.tick] ∧ (moves s0 [.tick]).cntRun = true) ∧
    ((moves s0 [.irq 2]).env.moves = [.irq 2] ∧ (moves s0 [.irq 2]).ipc = .iIdle ∧
      (moves s0 [.irq 2]).irqSrcEn = true ∧ (moves s0 [.irq 2]).irqMask = false) ∧
    ((moves (atI .iR1) [.istep]).env.moves = [.istep] ∧ (moves (atI .iR1) [.istep]).ipc ≠ .iIdle) ∧
    ((moves s0 [.mstep]).env.moves = [.mstep] ∧ (moves s0 [.mstep]).ipc = .iIdle) ∧
    (moves s0 [.reset]).env.moves = [.reset] ∧
    ((moves s0 [.istep]).env.moves = [.istep] ∧ enabled .istep (moves s0 [.istep]) = false) := by decide

/-- The receiver with one packet on the wire and nothing to decode. -/
def receiving : State := { moves s0 [.host] with wire := [[0xE8#8, 0x03#8, 0x00#8, 0xC0#8]] }

theorem witness_StepRunsTheDecodedInstruction :
    (receiving.env.moves = [.host] ∧ receiving.host.inbox = [] ∧
      receiving.wire[receiving.host.taken]? = some [0xE8#8, 0x03#8, 0x00#8, 0xC0#8] ∧
      packet? (decodePacket [0xE8#8, 0x03#8, 0x00#8, 0xC0#8]) = (some (.pkt [0xC00003E8#32]), none)) ∧
    ({ receiving with host := ⟨1, [0xC00003E8#32], []⟩ }.host.inbox = 0xC00003E8#32 :: [] ∧
      row? (decodeEvent (leBytes 0xC00003E8#32)) = some (.evwRise2 1000#29, [])) := by decide

theorem witness_ExactlyOneContextMayStep : enabled .mstep s0 = true ∧ enabled .istep (atI .iR1) = true := by decide

theorem witness_ReferenceSourceQueuesTransitions :
    ((moves s0 [.transition 1]).env.moves = [.transition 1] ∧
      chanOfPin (moves s0 [.transition 1]).env.pinMap 1 = some 1#2) ∧
    ({ s0 with env := { env0 with moves := [.serve], pendq := [1, 2] } }.env.pendq = 1 :: [2] ∧
      { s0 with env := { env0 with moves := [.serve], pendq := [1, 2] } }.mayEnter = true) := by decide

theorem witness_NoRunStartsMaskedOrDisabled :
    (moves { atM .mSnapW with irqMask := true } [.mstep]).ipc = .iIdle ∧
    (moves { atM .mSnapW with irqMask := true } [.mstep]).irqMask = true ∧
    step (moves { atM .mSnapW with irqMask := true } [.mstep]) = .next (snapWrite { atM .mSnapW with irqMask := true }) :=
  ⟨rfl, rfl, rfl⟩

theorem witness_DisciplineIsEnforced :
    s0.ipc ≠ .iFinish ∧ (atI .iR1).ipc ≠ .iIdle ∧ (atM .mGTest).mpc ≠ .mSnapEnter ∧ (atM .mGTest).mpc ≠ .mSnapExit ∧
    (atM .mGTest).mpc ≠ .mDecide ∧ (atM .mGTest).mpc ≠ .mDrain ∧ (atM .mGTest).mpc ≠ .mSubmit ∧
    (atM .mGTest).mpc ≠ .mHaltQ := by decide

theorem witness_StorageStopsAreNamed :
    ({ draining 5#32 0#5 1#5 0#32 with mem := Memory.reset }.mpc = .mDrain ∧
      { draining 5#32 0#5 1#5 0#32 with mem := Memory.reset }.mem.readSlot
        (slot { draining 5#32 0#5 1#5 0#32 with mem := Memory.reset }.readIndex) = none) ∧
    ((draining 5#32 16#5 16#5 0#32).mpc = .mDrain ∧
      ((draining 5#32 16#5 16#5 0#32).mem.readSlot (slot (draining 5#32 16#5 16#5 0#32).readIndex)).isSome = true ∧
      16 ≤ (draining 5#32 16#5 16#5 0#32).m.k.toNat) ∧
    ({ submitting .busy with mem := Memory.reset }.mpc = .mSubmit ∧
      { submitting .busy with mem := Memory.reset }.packet = none) := by decide

theorem witness_InterruptContextWritesItsOwnState :
    exec (.clkRead .I) (atI .iR1) = .next (clkStepI .r1 (atI .iR1)) ∧ (atI .iR1).ipc ≠ .iIdle ∧
    Instr.clkRead .I ≠ .sysReset ∧ Instr.clkRead .I ≠ .cntTick :=
  ⟨rfl, by decide, by decide, by decide⟩

theorem witness_MainLoopWritesItsOwnState :
    exec .qReset (halting .mHaltQ false false) = .next (resetCursors (halting .mHaltQ false false)) ∧
    (halting .mHaltQ false false).ipc = .iIdle ∧ Instr.qReset ≠ .sysReset ∧ (∀ p, Instr.qReset ≠ .edgeIrq p) ∧
    (∀ e c v, Instr.qReset ≠ .evPack e c v) ∧
    exec .qDrain (draining 1023#32 15#5 16#5 7#32) =
      .next (advanceDrain (serializeWord 7#32 (draining 1023#32 15#5 16#5 7#32))) :=
  ⟨rfl, rfl, by decide, fun _ h => by simp at h, fun _ _ _ h => by simp at h, rfl⟩

theorem witness_OnlyAnAcceptedSendReachesTheWire :
    exec .txSubmit (submitting .accepted) =
      .next (answerSend [0xE8#8, 0x03#8, 0x00#8, 0xC0#8] (submitting .accepted)) ∧ Instr.txSubmit ≠ .sysReset :=
  ⟨rfl, by decide⟩

theorem witness_ControlBitsOnlyFall :
    exec .guardHalt (halting .mHaltCnt true true) = .next (haltCounters (halting .mHaltCnt true true)) ∧
    Instr.guardHalt ≠ .sysReset ∧ (haltedAt .mIdle).cntRun = false ∧ (haltedAt .mIdle).irqSrcEn = false :=
  ⟨rfl, by decide, rfl, rfl⟩

theorem witness_MaskFollowsTheCriticalSection :
    exec .critEnter s0 = .next (enterCritical s0) ∧ Instr.critEnter ≠ .sysReset ∧
    (enterCritical s0).irqMask ≠ s0.irqMask :=
  ⟨rfl, by decide, by decide⟩

theorem witness_ReceiverHasNoMoveOnTheBlock :
    (encode (.evwFall0 0#29)).isSome = true ∧
    exec (.evwFall0 0#29) s0 = .next (hostEvent ⟨0#1, 0#2, 0#32⟩ s0) ∧
    exec (.evUnpack 0#32) s0 = .next (hostEvent ⟨0#1, 0#2, 0#32⟩ s0) :=
  ⟨rfl, rfl, rfl⟩

theorem witness_MemoryStaysCanonical :
    exec .qDrain (draining 1023#32 15#5 16#5 7#32) =
      .next (advanceDrain (serializeWord 7#32 (draining 1023#32 15#5 16#5 7#32))) ∧
    (draining 1023#32 15#5 16#5 7#32).mem.wf = true :=
  ⟨rfl, by decide⟩

/-! ### Witnesses for the invariant and the headline results -/

/-- Two events accepted, the first of them drained into a packet of two. -/
def midDrain : State :=
  { s0 with
    writeIndex := 2#32, readIndex := 1#32, mpc := .mDrain, pktLen := 4, cntLo := 2000#16
    mem := { qmem := [(0, 0xC00003E8#32), (1, 0x400007D0#32)], pkt := [(0, 0xE8#8), (1, 0x03#8), (2, 0x00#8), (3, 0xC0#8)] }
    m := { MainRegs.reset with n := 2#5, k := 1#5 } }

theorem midDrain_inv : Inv midDrain where
  memWf := by decide
  occupancyBound := by decide
  committed := by decide
  maskPhase := by decide
  runUnmasked := by decide
  snapWrite := by decide
  snapRead := by decide
  availBound := by decide
  drainCount := by decide
  submitCount := by decide
  packetWritten := by decide
  haltStops := by decide
  haltDisables := by decide
  disabledHalts := by decide
  wirePackets := fun p hp => by simp [midDrain, s0, State.reset] at hp

/-- A run at its end while that packet is being drained; the clock has gone on to 2001. -/
def midRun : State :=
  { midDrain with
    ipc := .iFinish, cntLo := 2001#16
    i := { IrqRegs.reset with pin := 2, ch := 2#2, clk := ⟨0#16, 2001#16, 0#16, 2001#32⟩ }
    env := { env0 with levels := [1#1], moves := [.istep] } }

theorem midRun_inv : Inv midRun where
  memWf := by decide
  occupancyBound := by decide
  committed := by decide
  maskPhase := by decide
  runUnmasked := by decide
  snapWrite := by decide
  snapRead := by decide
  availBound := by decide
  drainCount := by decide
  submitCount := by decide
  packetWritten := by decide
  haltStops := by decide
  haltDisables := by decide
  disabledHalts := by decide
  wirePackets := fun p hp => by simp [midRun, midDrain, s0, State.reset] at hp

theorem midRun_clock : midRun.clock.toNat = 2001 := rfl

theorem midRun_stream : midRun.stream = [0xC00003E8#32, 0x400007D0#32] := by decide

theorem midRun_below : ∀ w, w ∈ midRun.stream → stampOf w ≤ 2001 := by
  rw [midRun_stream]
  simp [stampOf, unpackEvent]

theorem midRun_stamps : StampsInOrder midRun where
  ordered := by decide
  pastClock := by rw [midRun_clock]; exact midRun_below
  atR2 := by decide
  atR3 := by decide
  atR4 := by decide
  atFinish := fun _ => ⟨Nat.le_refl _, midRun_below⟩

theorem midRun_step : step midRun = .next (edgeFinish { midRun with env := { env0 with levels := [1#1] } }) := rfl

theorem witness_StepKeepsInvariant : Inv midRun ∧ ∃ t, step midRun = .next t := ⟨midRun_inv, _, midRun_step⟩

theorem witness_StepNeverFaults : Inv midDrain ∧ Inv midRun := ⟨midDrain_inv, midRun_inv⟩

theorem witness_FreeChoiceAlwaysSteps : Inv midDrain ∧ midDrain.env.moves = [] := ⟨midDrain_inv, rfl⟩

/-- The halted state, the main loop about to read the stopped clock. -/
def haltedRun : State := moves (haltedAt .mGR1) [.mstep]

theorem haltedRun_inv : Inv haltedRun where
  memWf := by decide
  occupancyBound := by decide
  committed := by decide
  maskPhase := by decide
  runUnmasked := by decide
  snapWrite := by decide
  snapRead := by decide
  availBound := by decide
  drainCount := by decide
  submitCount := by decide
  packetWritten := by decide
  haltStops := by decide
  haltDisables := by decide
  disabledHalts := by decide
  wirePackets := fun p hp => by simp [haltedRun, moves, haltedAt, s0, State.reset] at hp

theorem witness_HaltIsIrreversible :
    Inv haltedRun ∧ haltedRun.halted = true ∧ step haltedRun = .next (clkStepM .r1 (haltedAt .mGR1)) ∧
    nextMove haltedRun ≠ .reset :=
  ⟨haltedRun_inv, by decide, rfl, by decide⟩

/-- The run's end appends its event (R145 to R147): the words 1000, 2000 and 2001 of channel 2 are the stream. -/
theorem witness_AcceptedEventsStreamInOrder :
    Inv midRun ∧ (∃ t, step midRun = .next t) ∧ midRun.stream = [0xC00003E8#32, 0x400007D0#32] :=
  ⟨midRun_inv, ⟨_, midRun_step⟩, midRun_stream⟩

/-- The last legal timestamp, read at the last clock value below the limit and about to be pushed. -/
def lastStamp : State :=
  { midRun with
    cntHi := 0x1FFF#16, cntLo := 0xFFFF#16
    i := { midRun.i with clk := ⟨0x1FFF#16, 0xFFFF#16, 0x1FFF#16, 0x1FFFFFFF#32⟩ } }

theorem lastStamp_inv : Inv lastStamp := (midRun_inv.setCounters _ _).setIrq _ _ (fun _ => ⟨rfl, rfl⟩)

theorem lastStamp_below : ∀ w, w ∈ lastStamp.stream → stampOf w ≤ 0x1FFFFFFF :=
  fun w hw => Nat.le_trans (midRun_below w hw) (by decide)

theorem lastStamp_clock : lastStamp.clock.toNat = 0x1FFFFFFF := rfl

theorem lastStamp_stamps : StampsInOrder lastStamp where
  ordered := midRun_stamps.ordered
  pastClock := by rw [lastStamp_clock]; exact lastStamp_below
  atR2 := by decide
  atR3 := by decide
  atR4 := by decide
  atFinish := fun _ => ⟨Nat.le_refl _, lastStamp_below⟩

/-- In the middle of the range, and at its end, where the run stores 0x1FFFFFFF. -/
theorem witness_TimestampsStayInOrder :
    (Inv midRun ∧ StampsInOrder midRun ∧ midRun.clock.toNat < 2 ^ 29 ∧ ∃ t, step midRun = .next t) ∧
    (Inv lastStamp ∧ StampsInOrder lastStamp ∧ lastStamp.clock.toNat < 2 ^ 29 ∧ ∃ t, step lastStamp = .next t) :=
  ⟨⟨midRun_inv, midRun_stamps, by decide, _, midRun_step⟩,
    ⟨lastStamp_inv, lastStamp_stamps, by rw [lastStamp_clock]; decide, _, rfl⟩⟩

/-- Two states that differ in a register that no step will read. -/
theorem witness_DeadWorkingRegistersAreUnobservable :
    s0 ≠ { s0 with m := { MainRegs.reset with avail := 5#32 } } ∧
    s0.forgetDead = State.forgetDead { s0 with m := { MainRegs.reset with avail := 5#32 } } := by decide

/-! ### A run that meets the premises of R300

It starts with one event queued. The main loop alone moves, half of the wall clock's range passes from one decision to
the next, and the transport accepts: after 12 steps the event is sent, and iterations that find nothing follow. -/

/-- One step, after which the environment places the next move and draws. -/
def goOn (s : State) : State :=
  match step s with
  | .next t =>
    { t with env := { t.env with
      moves := [.mstep], levels := [], walls := [t.m.now + 0x80000000#32], answers := [.accepted] } }
  | .fault _ => s
  | .refused _ => s

/-- The run. -/
def fairRun : Nat → State
  | 0 => { s0 with
      writeIndex := 1#32
      mem := { qmem := [(0, 0xC00003E8#32)], pkt := [] }
      env := { env0 with moves := [.mstep], walls := [0x80000000#32], answers := [.accepted] } }
  | k + 1 => goOn (fairRun k)

/-- A state of the run in which the event is sent. -/
def idling (p : Mpc) (mask : Bool) (len : Nat) (m : MainRegs) : State :=
  { s0 with
    mpc := p
    irqMask := mask
    writeIndex := 1#32
    readIndex := 1#32
    lastSent := 0x80000000#32
    mem := { qmem := [(0, 0xC00003E8#32)], pkt := [(0, 0xE8#8), (1, 0x03#8), (2, 0x00#8), (3, 0xC0#8)] }
    pktLen := len
    wire := [[0xE8#8, 0x03#8, 0x00#8, 0xC0#8]]
    m := m
    env := { env0 with moves := [.mstep], walls := [m.now + 0x80000000#32], answers := [.accepted] } }

/-- The main loop takes its step, and it is not the halt's last. -/
def movesOn (s : State) : Prop :=
  nextMove s = .mstep ∧ s.mpc ≠ .mHaltQ ∧ (next? (step s)).isSome = true

/-- With nothing available nothing is sent, whatever the wall clock. -/
theorem toSend_none (now last : Word) : toSend 0#32 now last = 0 := by
  unfold toSend; split <;> rfl

/-- A step of the run. -/
theorem goOn_eq {s t : State} (h : step s = .next t) : goOn s = { t with env := { t.env with
    moves := [.mstep], levels := [], walls := [t.m.now + 0x80000000#32], answers := [.accepted] } } := by
  unfold goOn; rw [h]

/-- The registers after a decision with nothing available. -/
def restRegs (m : MainRegs) : MainRegs := { m with now := m.now + 0x80000000#32, n := 0#5, k := 0#5 }

theorem idling_decides (m : MainRegs) (len : Nat) (h : m.avail = 0#32) :
    step (idling .mDecide false len m) = .next { idling .mGR1 false 0 (restRegs m) with
      env := { env0 with answers := [.accepted] } } := by
  obtain ⟨c, w, r, av, now, n, k⟩ := m
  subst h
  have h0 := toSend_none (now + 0x80000000#32) 0x80000000#32
  have : decideFlush (afterMove (idling .mDecide false len ⟨c, w, r, 0#32, now, n, k⟩)) =
      { idling .mGR1 false 0 (restRegs ⟨c, w, r, 0#32, now, n, k⟩) with env := { env0 with answers := [.accepted] } } := by
    unfold decideFlush
    rw [show toSend (afterMove (idling .mDecide false len ⟨c, w, r, 0#32, now, n, k⟩)).m.avail
      (afterMove (idling .mDecide false len ⟨c, w, r, 0#32, now, n, k⟩)).env.wall
      (afterMove (idling .mDecide false len ⟨c, w, r, 0#32, now, n, k⟩)).lastSent = 0 from h0]
    rfl
  rw [← this]; rfl

/-- The registers once both cursors are read, and once the stopped or idle clock is read. -/
def snapRegs (m : MainRegs) : MainRegs := { m with w := 1#32, r := 1#32, avail := 1#32 - 1#32 }

/-- The registers once the clock, at 0, is read. -/
def clockRegs (m : MainRegs) : MainRegs := { restRegs (snapRegs m) with clk := ⟨0#16, 0#16, 0#16, ext 0#16 0#16⟩ }

/-- The states of an iteration that finds nothing, by the steps from its start. -/
def roundState (m : MainRegs) (len : Nat) : Nat → State
  | 0 => idling .mSnapEnter false len m
  | 1 => idling .mSnapW true len m
  | 2 => idling .mSnapR true len { m with w := 1#32 }
  | 3 => idling .mSnapExit true len { m with w := 1#32, r := 1#32 }
  | 4 => idling .mDecide false len (snapRegs m)
  | 5 => idling .mGR1 false 0 (restRegs (snapRegs m))
  | 6 => idling .mGR2 false 0 { restRegs (snapRegs m) with clk := { m.clk with h1 := 0#16 } }
  | 7 => idling .mGR3 false 0 { restRegs (snapRegs m) with clk := { m.clk with h1 := 0#16, l := 0#16 } }
  | 8 => idling .mGTest false 0 (clockRegs m)
  | 9 => idling .mIdle false 0 (clockRegs m)
  | _ => idling .mSnapEnter false 0 (clockRegs m)

theorem goOn_roundState (m : MainRegs) (len j : Nat) (hj : j < 10) :
    goOn (roundState m len j) = roundState m len (j + 1) ∧ movesOn (roundState m len j) ∧
    (roundState m len j).mpc ≠ .mSubmit := by
  by_cases h4 : j = 4
  · subst h4
    have := idling_decides (snapRegs m) len rfl
    exact ⟨by rw [roundState, goOn_eq this]; rfl, ⟨rfl, by simp [roundState, idling], by rw [roundState, this]; rfl⟩,
      by simp [roundState, idling]⟩
  · interval_cases j <;> first
      | exact absurd rfl h4
      | exact ⟨rfl, ⟨rfl, by simp [roundState, idling], rfl⟩, by simp [roundState, idling]⟩

theorem fairRun_inv : Inv (fairRun 0) where
  memWf := by decide
  occupancyBound := by decide
  committed := by decide
  maskPhase := by decide
  runUnmasked := by decide
  snapWrite := by decide
  snapRead := by decide
  availBound := by decide
  drainCount := by decide
  submitCount := by decide
  packetWritten := by decide
  haltStops := by decide
  haltDisables := by decide
  disabledHalts := by decide
  wirePackets := fun p hp => by simp [fairRun, s0, State.reset] at hp

/-- An iteration of the run that finds nothing. -/
theorem fairRun_round {k : Nat} {m : MainRegs} {len : Nat} (h : fairRun k = roundState m len 0) :
    ∀ j, j ≤ 10 → fairRun (k + j) = roundState m len j := by
  intro j
  induction j with
  | zero => intro _; exact h
  | succ j ih =>
    intro hj
    have := (goOn_roundState m len j (by omega)).1
    rw [← this, ← ih (by omega)]; rfl

/-- After the event is sent one iteration that finds nothing follows another. -/
theorem fairRun_rounds : ∀ i, ∃ m len, fairRun (12 + 10 * i) = roundState m len 0 := by
  intro i
  induction i with
  | zero => exact ⟨(fairRun 12).m, 4, by decide⟩
  | succ i ih =>
    obtain ⟨m, len, hr⟩ := ih
    exact ⟨clockRegs m, 0, fairRun_round hr 10 (Nat.le_refl _)⟩

/-- Two decisions in a row, the wall clock half its range later at the second. -/
theorem fairRun_decides (i : Nat) : ∃ v,
    ((fairRun (16 + 10 * i)).mainTakes .mDecide ∧ (afterMove (fairRun (16 + 10 * i))).env.wall = v) ∧
    ((fairRun (26 + 10 * i)).mainTakes .mDecide ∧
      (afterMove (fairRun (26 + 10 * i))).env.wall = v + 0x80000000#32) := by
  obtain ⟨m, len, hr⟩ := fairRun_rounds i
  have h1 := fairRun_round hr 4 (by omega)
  have h2 := fairRun_round (m := clockRegs m) (len := 0) (fairRun_round hr 10 (Nat.le_refl _)) 4 (by omega)
  rw [show 12 + 10 * i + 4 = 16 + 10 * i by omega] at h1
  rw [show 12 + 10 * i + 10 + 4 = 26 + 10 * i by omega] at h2
  rw [h1, h2]
  exact ⟨m.now + 0x80000000#32, ⟨⟨rfl, rfl⟩, rfl⟩, ⟨rfl, rfl⟩, rfl⟩

theorem fairRun_first : ∀ k, k < 12 → movesOn (fairRun k) := by
  intro k hk
  unfold movesOn
  interval_cases k <;> decide

theorem fairRun_later (k : Nat) (hk : 12 ≤ k) : movesOn (fairRun k) ∧ (fairRun k).mpc ≠ .mSubmit := by
  obtain ⟨m, len, hr⟩ := fairRun_rounds ((k - 12) / 10)
  have := fairRun_round hr ((k - 12) % 10) (by omega)
  rw [show 12 + 10 * ((k - 12) / 10) + (k - 12) % 10 = k by omega] at this
  rw [this]
  exact (goOn_roundState m len _ (by omega)).2

theorem fairRun_movesOn (k : Nat) : movesOn (fairRun k) :=
  if h : k < 12 then fairRun_first k h else (fairRun_later k (by omega)).1

theorem fairRun_isRun : IsRun fairRun := by
  intro k
  have := (fairRun_movesOn k).2.2
  cases hs : step (fairRun k) with
  | next t => exact ⟨t, rfl, _, _, _, _, goOn_eq hs⟩
  | fault => simp [hs, next?] at this
  | refused => simp [hs, next?] at this

theorem fairRun_stream : (fairRun 0).stream = [0xC00003E8#32] := by decide

theorem fairRun_wallClock : WallClockGoesOn fairRun := by
  intro _ since n
  obtain ⟨v, ⟨d1, w1⟩, d2, w2⟩ := fairRun_decides n
  by_cases h : timeTrigger v since = true
  · exact ⟨16 + 10 * n, by omega, d1, by rw [w1]; exact h⟩
  · refine ⟨26 + 10 * n, by omega, d2, ?_⟩
    rw [w2]
    have hv : (v + 0x80000000#32 - since).toNat = (v - since).toNat + 2 ^ 31 ∨
        (v + 0x80000000#32 - since).toNat + 2 ^ 31 = (v - since).toNat := by
      have := since.isLt; have := v.isLt
      rw [BitVec.toNat_sub, BitVec.toNat_sub, BitVec.toNat_add, BitVec.toNat_ofNat]
      omega
    simp only [timeTrigger, decide_eq_true_eq, Config.sendIntervalMs] at h ⊢
    omega

/-- The premises of R300 hold, from its first step on, of a run with an event queued. -/
theorem witness_ProgressPremises :
    IsRun fairRun ∧ Inv (fairRun 0) ∧ ProgressPremises fairRun 0 ∧ (fairRun 0).stream = [0xC00003E8#32] :=
  ⟨fairRun_isRun, fairRun_inv,
    { scheduled := fun n => ⟨n, Nat.le_refl _, (fairRun_movesOn n).1⟩
      accepts := fun h => let ⟨k, hk, hs⟩ := h 12; absurd hs.2 (fairRun_later k hk).2
      guard := fun k _ h => absurd h (fairRun_movesOn k).2.1
      wallClock := fairRun_wallClock
      noReset := fun k _ h => by rw [(fairRun_movesOn k).1] at h; cases h },
    fairRun_stream⟩

end Sys2Proof.Tests
end

section
/-! A step whose move is listed in the trace (R9, R35, R98), as equations of `step`. -/

namespace Sys2Proof.Machine

theorem nextMove_of_listed {s : State} {mv : Move} {rest : List Move} (h : s.env.moves = mv :: rest) :
    nextMove s = mv := by
  simp [nextMove, h]

theorem afterMove_of_listed {s : State} {mv : Move} {rest : List Move} (h : s.env.moves = mv :: rest) :
    afterMove s = { s with env := { s.env with moves := rest } } := by
  simp [afterMove, h]

/-- An enabled move runs its operation, in the state that `operationOf` names (R35, R95). -/
theorem step_eq_exec {s t : State} {i : Instr} (hen : enabled (nextMove s) s = true)
    (hop : operationOf (nextMove s) (afterMove s) = some (i, t)) : step s = exec i t := by
  simp [step, hen, hop]

/-- A move that is not enabled is no step of the machine (R98, log 2). -/
theorem step_eq_refused {s : State} (hen : enabled (nextMove s) s = false) : step s = .refused .notEnabled := by
  simp [step, hen]

/-- Settles O39: the next move is the listed one, so each of R35's moves, enabled by its clause's premises, runs the
operation `operationOf` gives it. -/
theorem stepRunsTheSelectedOperation : Obligations.StepRunsTheSelectedOperation := by
  rintro s mv rest u hmoves rfl
  have hnext := nextMove_of_listed hmoves
  have hafter := afterMove_of_listed hmoves
  have hrun : ∀ {i t}, enabled mv s = true →
      operationOf mv { s with env := { s.env with moves := rest } } = some (i, t) → step s = exec i t :=
    fun hen hop => step_eq_exec (by rwa [hnext]) (by rwa [hnext, hafter])
  refine ⟨?tick, ?irq, ?istep, ?mstep, ?reset, ?disabled⟩
  case tick =>
    rintro rfl hcnt
    exact hrun hcnt rfl
  case irq =>
    rintro p rfl hidle hsrc hmask
    exact hrun ((mayEnter_iff s).mpr ⟨hsrc, hmask, hidle⟩) rfl
  case istep =>
    rintro rfl hbusy
    exact hrun (decide_eq_true hbusy) rfl
  case mstep =>
    rintro rfl hidle
    exact hrun (decide_eq_true hidle) rfl
  case reset =>
    rintro rfl
    exact hrun rfl rfl
  case disabled =>
    intro hen
    exact step_eq_refused (by rwa [hnext])

end Sys2Proof.Machine
end

section
/-! The invariant of the block (R41, R71, R165 to R169, R223 to R225): it holds after reset and every step keeps it. -/

namespace Sys2Proof.Machine

/-! ### Updates that every phase allows -/

/-- `WIRE` may hold packets of 1 to 16 whole words (R97 (b)); nothing is said of `LAST_SENT`. -/
theorem Inv.setWire {s : State} (h : Inv s) (wire : List (List Byte)) (sent : Word)
    (hw : ∀ p, p ∈ wire → ∃ k, 1 ≤ k ∧ k ≤ Config.chunkSize ∧ p.length = 4 * k) :
    Inv { s with wire := wire, lastSent := sent } :=
  { h with wirePackets := hw }

theorem Inv.tickCounters {s : State} (h : Inv s) : Inv (tickCounters s) := by
  rw [tickCounters_eq]
  exact h.setCounters _ _

theorem Inv.enterIrq {s : State} (h : Inv s) (p : Pin) (he : s.mayEnter = true) : Inv (enterIrq p s) := by
  obtain ⟨hsrc, hmask, -⟩ := (mayEnter_iff s).mp he
  unfold Machine.enterIrq
  split
  · exact h
  · exact h.setIrq _ _ fun _ => ⟨hmask, hsrc⟩

/-! ### The end of a run -/

theorem occupancy_push {s t : State} (ho : s.occupancy.toNat < 1024) (hw : t.writeIndex = s.writeIndex + 1#32)
    (hr : t.readIndex = s.readIndex) : t.occupancy.toNat = s.occupancy.toNat + 1 := by
  unfold State.occupancy
  rw [hw, hr, next_sub_readIndex s (Nat.le_of_lt ho)]
  rfl

/-- R41, R160: with the pushed word in its slot, every stored event is in its slot. -/
theorem Inv.committed_push {s : State} (h : Inv s) (w : Word) (j : Nat) (hj : j < s.occupancy.toNat + 1) :
    ((s.mem.writeSlot (slot s.writeIndex) w).readSlot (s.slotAt j)).isSome = true := by
  rw [Memory.readSlot_writeSlot]
  split
  · rfl
  · rename_i hne
    refine h.committed j (Nat.lt_of_le_of_ne (Nat.le_of_lt_succ hj) ?_)
    rintro rfl
    exact hne (slotAt_occupancy s)

/-- R71: while unmasked the main loop has no part of a snapshot. -/
theorem Inv.no_snapshot_of_unmasked {s : State} (h : Inv s) (hmask : s.irqMask = false) :
    ¬ (s.mpc = .mSnapR ∨ s.mpc = .mSnapExit) := by
  rw [h.maskPhase] at hmask
  rintro (hm | hm) <;> simp [hm, Mpc.inCritical] at hmask

/-- An accepted push outside the critical section with the sources enabled (R160, R161). -/
theorem Inv.push {s : State} (h : Inv s) (w : Word) (ho : s.occupancy.toNat < 1024) (hmask : s.irqMask = false)
    (hsrc : s.irqSrcEn = true) :
    Inv { s with mem := s.mem.writeSlot (slot s.writeIndex) w, writeIndex := s.writeIndex + 1#32 } := by
  have hocc := occupancy_push
    (t := { s with mem := s.mem.writeSlot (slot s.writeIndex) w, writeIndex := s.writeIndex + 1#32 }) ho rfl rfl
  exact
  { h with
    memWf := Memory.wf_writeSlot _ _ _ (slot_lt _) h.memWf
    occupancyBound := by rw [hocc]; exact ho
    committed := fun j hj => h.committed_push w j (hocc ▸ hj)
    snapWrite := fun hm => absurd hm (h.no_snapshot_of_unmasked hmask)
    availBound := fun hm => by rw [hocc]; exact Nat.le_succ_of_le (h.availBound hm)
    drainCount := fun hm => by
      obtain ⟨hk, hn, hstored, hlen⟩ := h.drainCount hm
      exact ⟨hk, hn, by rw [hocc]; exact Nat.le_succ_of_le hstored, hlen⟩
    disabledHalts := fun he => by simp [hsrc] at he }

/-- `I_FINISH` (R149): the push, where it fits, and the return. -/
theorem Inv.edgeFinish {s : State} (h : Inv s) (hr : s.ipc ≠ .iIdle) : Inv (edgeFinish s) := by
  obtain ⟨hmask, hsrc⟩ := h.runUnmasked hr
  unfold Machine.edgeFinish pushWord
  split
  · rename_i hf
    have ho := (pushFits_iff s h.occupancyBound).mp hf
    exact ((h.push (edgeWord s) ho hmask hsrc).setEnv s.env.afterLevel).setIrq _ .iIdle (absurd rfl)
  · exact (h.setEnv s.env.afterLevel).setIrq _ .iIdle (absurd rfl)

/-- Every step of a run in progress keeps the invariant (R34). -/
theorem Inv.irqStep {s t : State} (h : Inv s) (hr : s.ipc ≠ .iIdle) (ht : irqStep s = .next t) : Inv t := by
  rcases irqStep_next ht with ⟨p, -, rfl⟩ | ⟨-, rfl⟩
  · exact h.setIrq _ _ fun _ => h.runUnmasked hr
  · exact h.edgeFinish hr

/-! ### The main loop's phases -/

/-- What the invariant says at a phase of the main loop (R164, R165, R167, R194, R223, R224). -/
def PhaseClause (s : State) : Mpc → Prop
  | .mSnapR => s.m.w = s.writeIndex
  | .mSnapExit => s.m.w = s.writeIndex ∧ s.m.r = s.readIndex
  | .mDecide => s.m.avail.toNat ≤ s.occupancy.toNat
  | .mDrain =>
    (s.m.k.toNat < s.m.n.toNat ∧ s.m.n.toNat ≤ Config.chunkSize ∧
      s.m.n.toNat ≤ s.m.k.toNat + s.occupancy.toNat ∧ s.pktLen = 4 * s.m.k.toNat) ∧
    (∀ j, j < s.pktLen → (s.mem.readByte j).isSome = true) ∧ s.irqSrcEn = true
  | .mSubmit =>
    (1 ≤ s.m.n.toNat ∧ s.m.n.toNat ≤ Config.chunkSize ∧ s.pktLen = 4 * s.m.n.toNat) ∧
    (∀ j, j < s.pktLen → (s.mem.readByte j).isSome = true) ∧ s.irqSrcEn = true
  | .mHaltIrq => s.cntRun = false
  | .mHaltQ => s.cntRun = false ∧ s.irqSrcEn = false
  | .mSnapEnter | .mSnapW | .mGR1 | .mGR2 | .mGR3 | .mGR4 | .mGTest | .mHaltCnt | .mIdle => True

/-- The invariant, from its clauses about every phase and the clause of the phase the main loop is at. -/
theorem Inv.of_phaseClause {s : State} (hmem : s.mem.wf = true) (hocc : s.occupancy.toNat ≤ Config.queueCapacity)
    (hstored : ∀ j, j < s.occupancy.toNat → (s.mem.readSlot (s.slotAt j)).isSome = true)
    (hmask : s.irqMask = s.mpc.inCritical) (hrun : s.ipc ≠ .iIdle → s.irqMask = false ∧ s.irqSrcEn = true)
    (hdis : s.mpc ≠ .mHaltQ → s.irqSrcEn = false → s.cntRun = false ∧ s.writeIndex = 0#32 ∧ s.readIndex = 0#32)
    (hwire : ∀ p, p ∈ s.wire → ∃ k, 1 ≤ k ∧ k ≤ Config.chunkSize ∧ p.length = 4 * k)
    (hc : PhaseClause s s.mpc) : Inv s where
  memWf := hmem
  occupancyBound := hocc
  committed := hstored
  maskPhase := hmask
  runUnmasked := hrun
  snapWrite hm := by
    rcases hm with hm | hm <;> rw [hm] at hc
    · exact hc
    · exact hc.1
  snapRead hm := by rw [hm] at hc; exact hc.2
  availBound hm := by rw [hm] at hc; exact hc
  drainCount hm := by rw [hm] at hc; exact hc.1
  submitCount hm := by rw [hm] at hc; exact hc.1
  packetWritten hm := by rcases hm with hm | hm <;> rw [hm] at hc <;> exact hc.2.1
  haltStops hm := by
    rcases hm with hm | hm <;> rw [hm] at hc
    · exact hc
    · exact hc.1
  haltDisables hm := by rw [hm] at hc; exact hc.2
  disabledHalts he := by
    by_cases hq : s.mpc = .mHaltQ
    · rw [hq] at hc
      exact ⟨hc.1, by simp [hq], by simp [hq], .inl hq⟩
    · obtain ⟨hstop, hcur⟩ := hdis hq he
      refine ⟨hstop, fun hm => ?_, fun hm => ?_, .inr hcur⟩ <;> rw [hm] at hc <;> simp [hc.2.2] at he
  wirePackets := hwire

/-- Disabled sources before the halt's last step (R225, R228). -/
theorem Inv.halted_of_disabled {s : State} (h : Inv s) (hq : s.mpc ≠ .mHaltQ) (he : s.irqSrcEn = false) :
    s.cntRun = false ∧ s.writeIndex = 0#32 ∧ s.readIndex = 0#32 :=
  let ⟨hrun, _, _, hcur⟩ := h.disabledHalts he
  ⟨hrun, hcur.resolve_left hq⟩

/-- A step of the main loop that writes neither memory nor a cursor nor `WIRE` (R33). -/
theorem Inv.toPhase {s t : State} (h : Inv s) (hmem : t.mem = s.mem) (hw : t.writeIndex = s.writeIndex)
    (hr : t.readIndex = s.readIndex) (hwire : t.wire = s.wire) (hi : t.ipc = .iIdle)
    (hmask : t.irqMask = t.mpc.inCritical)
    (hdis : t.mpc ≠ .mHaltQ → t.irqSrcEn = false → t.cntRun = false ∧ t.writeIndex = 0#32 ∧ t.readIndex = 0#32)
    (hc : PhaseClause t t.mpc) : Inv t := by
  have hocc : t.occupancy = s.occupancy := by simp only [State.occupancy, hw, hr]
  have hslot : t.slotAt = s.slotAt := by funext j; simp only [State.slotAt, hr]
  exact .of_phaseClause (by rw [hmem]; exact h.memWf) (by rw [hocc]; exact h.occupancyBound)
    (by rw [hocc, hmem, hslot]; exact h.committed) hmask (absurd hi) hdis (by rw [hwire]; exact h.wirePackets) hc

/-- Sources are enabled where a packet is in progress (R225, R228). -/
theorem Inv.enabled_of_packet {s : State} (h : Inv s) (hm : s.mpc = .mDrain ∨ s.mpc = .mSubmit) :
    s.irqSrcEn = true := by
  by_contra he
  obtain ⟨-, hdrain, hsubmit, -⟩ := h.disabledHalts (by simpa using he)
  exact hm.elim hdrain hsubmit

/-! ### The flush -/

theorem toSend_le_avail (avail now lastSent : Word) : toSend avail now lastSent ≤ avail.toNat := by
  rw [toSend_eq]
  split <;> omega

/-- R191, R192: a decision to send finds its words stored, and starts an empty packet. -/
theorem Inv.decideFlush {s : State} (h : Inv s) (hi : s.ipc = .iIdle) (hm : s.mpc = .mDecide) :
    Inv (decideFlush s) := by
  have hmask : s.irqMask = false := h.maskPhase.trans (by rw [hm]; rfl)
  have hstop := h.halted_of_disabled (by simp [hm])
  refine h.toPhase rfl rfl rfl rfl hi ?_ (fun _ => hstop) ?_ <;> rw [decideFlush_mpc] <;> split
  · exact hmask
  · exact hmask
  · rename_i hpos
    have hstored := (toSend_le_avail s.m.avail s.env.wall s.lastSent).trans (h.availBound hm)
    have hcap := toSend_le s.m.avail s.env.wall s.lastSent
    have hn : (Machine.decideFlush s).m.n.toNat = toSend s.m.avail s.env.wall s.lastSent := by
      rw [decideFlush_m, BitVec.toNat_ofNat]
      exact Nat.mod_eq_of_lt (by omega)
    refine ⟨⟨?_, ?_, ?_, rfl⟩, nofun, ?_⟩
    · rw [hn]; exact hpos
    · rw [hn]; exact hcap
    · rw [hn]; exact hstored.trans (Nat.le_add_left _ _)
    · by_contra he
      obtain ⟨-, hw, hr⟩ := hstop (by simpa using he)
      simp only [State.occupancy, hw, hr, BitVec.sub_self, BitVec.toNat_zero] at hstored
      omega
  · trivial

/-! ### The drain -/

theorem occupancy_drain {s t : State} (ho : 0 < s.occupancy.toNat) (hw : t.writeIndex = s.writeIndex)
    (hr : t.readIndex = s.readIndex + 1#32) : t.occupancy.toNat + 1 = s.occupancy.toNat := by
  have ht : t.occupancy = s.occupancy - 1#32 := by
    unfold State.occupancy
    rw [hw, hr]
    bv_omega
  rw [ht]
  bv_omega

/-- R194: after a serialization the packet's bytes are written, four more than before. -/
theorem packetWritten_serializeWord {s : State} (w : Word) (hk : s.m.k.toNat < 16) (hlen : s.pktLen = 4 * s.m.k.toNat)
    (hb : ∀ j, j < s.pktLen → (s.mem.readByte j).isSome = true) (j : Nat) (hj : j < s.pktLen + 4) :
    ((serializeWord w s).mem.readByte j).isSome = true := by
  rw [readByte_serializeWord w s hk]
  split
  · rw [List.getElem?_eq_getElem (by rw [leBytes_length]; omega)]
    rfl
  · exact hb j (by omega)

/-- R167, R194: a drained word leaves the queue and is four bytes of the packet. -/
theorem Inv.drained {s : State} (h : Inv s) (hi : s.ipc = .iIdle) (hm : s.mpc = .mDrain) (w : Word) :
    Inv (advanceDrain (serializeWord w s)) := by
  obtain ⟨hkn, hn, hstored, hlen⟩ := h.drainCount hm
  simp only [Config.chunkSize] at hn
  have hk : s.m.k.toNat < 16 := by omega
  have hsrc := h.enabled_of_packet (.inl hm)
  have hmask : s.irqMask = false := h.maskPhase.trans (by rw [hm]; rfl)
  have hocc := occupancy_drain (t := advanceDrain (serializeWord w s)) (s := s) (by omega) rfl rfl
  have hnext : (s.m.k + 1#5).toNat = s.m.k.toNat + 1 := by
    rw [BitVec.toNat_add]; simp; omega
  have hbytes := packetWritten_serializeWord w hk hlen (h.packetWritten (.inl hm))
  refine .of_phaseClause ?_ ?_ ?_ ?_ (absurd hi) (fun _ he => ?_) h.wirePackets ?_
  · exact Memory.wf_writeBytes _ _ _ (by simp only [leBytes_length, Config.pktMaxBytes]; omega) h.memWf
  · exact (Nat.le_of_lt_succ (by omega)).trans h.occupancyBound
  · intro j hj
    rw [slotAt_succ (s := s) rfl, advanceDrain_mem, serializeWord_mem, Memory.readSlot_writeBytes]
    exact h.committed _ (by omega)
  · rw [advanceDrain_mpc]
    split <;> exact hmask
  · exact absurd (hsrc.symm.trans he) (by decide)
  · rw [advanceDrain_mpc, serializeWord_m]
    split
    · rename_i hlt
      rw [BitVec.lt_def, hnext] at hlt
      refine ⟨⟨?_, hn, ?_, ?_⟩, hbytes, hsrc⟩ <;> simp only [advanceDrain_m, serializeWord_m, advanceDrain_pktLen,
        serializeWord_pktLen, hnext] <;> omega
    · rename_i hge
      rw [BitVec.lt_def, hnext] at hge
      refine ⟨⟨?_, hn, ?_⟩, hbytes, hsrc⟩ <;> simp only [advanceDrain_m, serializeWord_m, advanceDrain_pktLen,
        serializeWord_pktLen] <;> omega

/-! ### The send -/

/-- R196, R197: a packet handed to the transport is 1 to 16 whole words, and a busy answer keeps it. -/
theorem Inv.answerSend {s : State} (h : Inv s) (hi : s.ipc = .iIdle) (hm : s.mpc = .mSubmit) {bytes : List Byte}
    (hb : s.packet = some bytes) : Inv (answerSend bytes s) := by
  unfold Machine.answerSend
  split
  · obtain ⟨h1, h16, hlen⟩ := h.submitCount hm
    have hbytes : ∃ k, 1 ≤ k ∧ k ≤ Config.chunkSize ∧ bytes.length = 4 * k :=
      ⟨_, h1, h16, (Memory.readBytes_length _ _ _ _ hb).trans hlen⟩
    have hsent := (h.setWire (s.wire ++ [bytes]) s.m.now fun p hp => by
      rcases List.mem_append.mp hp with hp | hp
      · exact h.wirePackets p hp
      · rwa [List.mem_singleton.mp hp]).setEnv s.env.afterAnswer
    exact hsent.toPhase rfl rfl rfl rfl hi (h.maskPhase.trans (by rw [hm]; rfl))
      (fun _ => h.halted_of_disabled (by simp [hm])) trivial
  · rw [← hm]
    exact h.setEnv _

/-! ### Every step -/

/-- The phases after a step of a clock read (R33). -/
theorem phaseClause_ofClk (s : State) (p : Option ClkPhase) :
    PhaseClause s (Mpc.ofClk p) ∧ (Mpc.ofClk p).inCritical = false := by
  rcases p with _ | p
  · exact ⟨trivial, rfl⟩
  · cases p <;> exact ⟨trivial, rfl⟩

/-- R170, R225: with both cursors 0 nothing is stored. -/
theorem Inv.resetCursors {s : State} (h : Inv s) (hi : s.ipc = .iIdle) (hm : s.mpc = .mHaltQ) :
    Inv (resetCursors s) :=
  have hocc : (Machine.resetCursors s).occupancy.toNat = 0 := by simp [State.occupancy]
  .of_phaseClause h.memWf (hocc ▸ Nat.zero_le _) (fun j hj => absurd (hocc ▸ hj) (Nat.not_lt_zero j))
    (h.maskPhase.trans (by rw [hm]; rfl)) (absurd hi) (fun _ _ => ⟨h.haltStops (.inr hm), rfl, rfl⟩) h.wirePackets trivial

/-- Every step of the main loop keeps the invariant (R33). -/
theorem Inv.mainStepped {s t : State} (h : Inv s) (hi : s.ipc = .iIdle) (ht : MainStepped s t) : Inv t := by
  have hmask := h.maskPhase
  have hstop := h.halted_of_disabled
  cases ht with
  | drained w hm => exact h.drained hi hm w
  | submitted bytes hm hb => exact h.answerSend hi hm hb
  | decided hm => exact h.decideFlush hi hm
  | haltQ hm => exact h.resetCursors hi hm
  | clock p hp =>
    have hq : s.mpc ≠ .mHaltQ := fun hm => by simp [hm, Mpc.clkPhase] at hp
    have hcrit : s.mpc.inCritical = false := by cases hm : s.mpc <;> simp_all [Mpc.clkPhase, Mpc.inCritical]
    obtain ⟨hclause, hopen⟩ := phaseClause_ofClk (clkStepM p s) (clkNext s.cntHi s.m.clk p)
    exact h.toPhase rfl rfl rfl rfl hi (hmask.trans (hcrit.trans hopen.symm)) (fun _ => hstop hq) hclause
  | tested hm =>
    rw [hm] at hmask hstop
    refine h.toPhase rfl rfl rfl rfl hi ?_ (fun _ => hstop nofun) ?_ <;> rw [rangeTest_mpc] <;> split
    · exact hmask
    · exact hmask
    · trivial
    · trivial
  | haltCnt hm =>
    rw [hm] at hmask hstop
    exact h.toPhase rfl rfl rfl rfl hi hmask (fun _ he => ⟨rfl, (hstop nofun he).2⟩) rfl
  | haltIrq hm =>
    rw [hm] at hmask
    exact h.toPhase rfl rfl rfl rfl hi hmask (fun hq => absurd rfl hq) ⟨h.haltStops (.inl hm), rfl⟩
  | snapEnter hm => exact h.toPhase rfl rfl rfl rfl hi rfl (fun _ => hstop (by simp [hm])) trivial
  | snapW hm =>
    rw [hm] at hmask hstop
    exact h.toPhase rfl rfl rfl rfl hi hmask (fun _ => hstop nofun) rfl
  | snapR hm =>
    rw [hm] at hmask hstop
    exact h.toPhase rfl rfl rfl rfl hi hmask (fun _ => hstop nofun) ⟨h.snapWrite (.inl hm), rfl⟩
  | snapExit hm =>
    have havail : s.m.w - s.m.r = s.occupancy := by rw [h.snapWrite (.inr hm), h.snapRead hm]; rfl
    exact h.toPhase rfl rfl rfl rfl hi rfl (fun _ => hstop (by simp [hm])) (congrArg BitVec.toNat havail).le
  | idled hm =>
    rw [hm] at hmask hstop
    exact h.toPhase rfl rfl rfl rfl hi hmask (fun _ => hstop nofun) trivial

/-- Settles O53: after reset nothing is stored, no run is in progress and no packet is begun. -/
theorem resetMeetsInvariant : Obligations.ResetMeetsInvariant :=
  .of_phaseClause Memory.wf_reset (by decide) (by decide) rfl (absurd rfl) nofun nofun trivial

/-- Settles O54: each kind of step keeps the invariant, the main loop's by its phases. -/
theorem stepKeepsInvariant : Obligations.StepKeepsInvariant := by
  intro s t hs ht
  have hu : Inv (afterMove s) := by rw [afterMove_eq]; exact hs.setEnv _
  have hstep := step_next ht
  generalize nextMove s = mv at hstep
  cases hstep with
  | tick => exact hu.tickCounters
  | irq p he => exact hu.enterIrq p (by simpa [mayEnter_iff] using he)
  | istep t hr hx => exact hu.irqStep (by simpa using hr) hx
  | mstep t hi hx => exact hu.mainStepped (by simpa using hi) hx
  | reset => exact resetMeetsInvariant.setEnv _
  | host => exact hu.setHost _
  | transition p q => exact hu.setEnv _
  | serve p rest _ he => exact (hu.setEnv _).enterIrq p (by simpa [mayEnter_iff] using he)

end Sys2Proof.Machine
end

section
/-! What an enabled move runs (R35, R95), one equation for each move. -/

namespace Sys2Proof.Machine

/-- What a move does in a state with the move taken: its operation, or its effect outside the block. -/
def runMove (mv : Move) (s : State) : Result :=
  match operationOf mv s with
  | some (i, t) => exec i t
  | none => outsideMove mv s

theorem step_eq_runMove {s : State} (h : enabled (nextMove s) s = true) :
    step s = runMove (nextMove s) (afterMove s) := by
  rw [step, enabled_afterMove, if_pos h]
  rfl

theorem runMove_tick {s : State} (h : s.cntRun = true) : runMove .tick s = .next (tickCounters s) :=
  exec_cntTick h

theorem runMove_irq {s : State} (p : Pin) (h : s.mayEnter = true) : runMove (.irq p) s = .next (enterIrq p s) :=
  exec_edgeIrq_enter p h

theorem runMove_istep {s : State} (h : s.ipc ≠ .iIdle) : runMove .istep s = irqStep s :=
  exec_ipc_operation h

theorem runMove_mstep {s : State} (h : s.ipc = .iIdle) : runMove .mstep s = mainStep s :=
  exec_mpc_operation h

theorem runMove_reset (s : State) :
    runMove .reset s = .next { State.reset with env := { s.env with pendq := [] } } := rfl

theorem runMove_transition (p : Pin) (s : State) :
    runMove (.transition p) s =
      .next { s with env := { s.env with pendq := if s.irqSrcEn then s.env.pendq ++ [p] else s.env.pendq } } := by
  simp only [runMove, operationOf, outsideMove]
  split <;> rfl

theorem runMove_serve {s : State} {p : Pin} {rest : List Pin} (hq : s.env.pendq = p :: rest)
    (h : s.mayEnter = true) :
    runMove .serve s = .next (enterIrq p { s with env := { s.env with pendq := rest } }) := by
  simp only [runMove, operationOf, hq]
  exact exec_edgeIrq_enter p h

/-! ### No move is stuck -/

/-- R169, R194: the invariant gives the main loop what its step reads. -/
theorem Inv.mainReady {s : State} (h : Inv s) : s.mainReady := by
  refine ⟨fun hm => ?_, fun hm => ?_⟩
  · obtain ⟨hkn, hn, hstored, -⟩ := h.drainCount hm
    have hfirst := h.committed 0 (by omega)
    rw [slotAt_zero] at hfirst
    exact ⟨hfirst, Nat.lt_of_lt_of_le hkn hn⟩
  · exact (packet_isSome_iff s).mpr (h.packetWritten (.inr hm))

/-- R94, R97 (b): 1 to 16 whole words are decoded as a packet. -/
theorem decodePacket_isOk {bs : List Byte} {k : Nat} (h1 : 1 ≤ k) (h16 : k ≤ Config.chunkSize)
    (hlen : bs.length = 4 * k) : ∃ i, decodePacket bs = .ok i := by
  obtain ⟨ws, hws⟩ := Option.isSome_iff_exists.mp (cutWords_isSome bs k hlen)
  refine ⟨.pkt ws, ?_⟩
  have h0 : bs.length ≠ 0 := by omega
  have hmax : ¬ Config.pktMaxBytes < bs.length := by
    simp only [Config.chunkSize, Config.pktMaxBytes] at *; omega
  rw [decodePacket, if_neg h0, if_neg hmax, hws]

/-- Under the invariant the receiver can read whatever there is to read. -/
theorem Inv.hostFetch_isSome {s : State} (h : Inv s) (he : enabled .host s = true) : ∃ f, hostFetch s = some f := by
  unfold hostFetch
  cases hin : s.host.inbox with
  | cons w rest =>
    have hd := decodeEvent_leBytes w []
    rw [List.append_nil] at hd
    simp [hd]
  | nil =>
    have htaken : s.host.taken < s.wire.length := by simpa [enabled, hin] using he
    obtain ⟨k, h1, h16, hlen⟩ := h.wirePackets _ (List.getElem_mem htaken)
    obtain ⟨i, hi⟩ := decodePacket_isOk h1 h16 hlen
    simp [List.getElem?_eq_getElem htaken, hi]

/-- Under the invariant every enabled move answers a next state. -/
theorem Inv.runMove_isNext {s : State} (h : Inv s) {mv : Move} (he : enabled mv s = true) :
    ∃ t, runMove mv s = .next t := by
  cases mv with
  | tick => exact ⟨_, runMove_tick he⟩
  | irq p => exact ⟨_, runMove_irq p he⟩
  | istep =>
    have hr : s.ipc ≠ .iIdle := by simpa [enabled] using he
    rw [runMove_istep hr]
    exact irqStep_isNext hr
  | mstep =>
    rw [runMove_mstep (by simpa [enabled] using he)]
    exact mainStep_isNext h.mainReady
  | reset => exact ⟨_, runMove_reset s⟩
  | host =>
    obtain ⟨⟨i, u⟩, hf⟩ := h.hostFetch_isSome he
    obtain ⟨hs, hx⟩ := hostFetch_exec hf
    exact ⟨_, by simp only [runMove, operationOf, hf]; exact hx⟩
  | transition p => exact ⟨_, runMove_transition p s⟩
  | serve =>
    obtain ⟨hne, hm⟩ : s.env.pendq ≠ [] ∧ s.mayEnter = true := by simpa [enabled] using he
    obtain ⟨p, rest, hq⟩ := List.exists_cons_of_ne_nil hne
    exact ⟨_, runMove_serve hq hm⟩

/-- Settles O56: the move chosen is enabled, as a choice that is not gives way to the context whose turn it is, and an
enabled move answers a next state. -/
theorem freeChoiceAlwaysSteps : Obligations.FreeChoiceAlwaysSteps := by
  intro s h hfree
  have hen : enabled (nextMove s) s = true := by
    simp only [nextMove, hfree]
    exact legalChoice_enabled _ s
  refine ⟨hen, ?_⟩
  have hu : Inv (afterMove s) := by rw [afterMove_eq]; exact h.setEnv _
  rw [step_eq_runMove hen]
  exact hu.runMove_isNext (by rwa [enabled_afterMove])

/-- Settles O41: the main loop's step needs `IPC = I_IDLE`, the interrupt context's needs the opposite, and an entry
needs what the main loop's needs. -/
theorem exactlyOneContextMayStep : Obligations.ExactlyOneContextMayStep := by
  intro s
  refine ⟨?_, fun hm p => ?_, fun hi p => ?_⟩
  · simp [enabled]
  · have hidle : s.ipc = .iIdle := by simpa [enabled] using hm
    simp [enabled, State.mayEnter, hidle]
  · have hbusy : s.ipc ≠ .iIdle := by simpa [enabled] using hi
    simp [enabled, State.mayEnter, hbusy]

end Sys2Proof.Machine
end

section
/-! Working registers that are written before they are read (R30, R33, R34): forgetting them before a step is forgetting
them after it. -/

namespace Sys2Proof.Machine

/-! ### What is still to be read -/

@[simp] theorem MainRegs.live_idem (m : MainRegs) (p : Mpc) : (m.live p).live p = m.live p := by
  cases p <;> rfl

@[simp] theorem IrqRegs.live_idem (i : IrqRegs) (p : Ipc) : (i.live p).live p = i.live p := by
  cases p <;> rfl

/-- At a phase of a clock read, or just after one, only the read's own registers are to be read (R33). -/
theorem MainRegs.live_ofClk (m : MainRegs) (q : Option ClkPhase) :
    m.live (Mpc.ofClk q) =
      { clk := liveClk q q.isNone m.clk, w := 0#32, r := 0#32, avail := 0#32, now := 0#32, n := 0#5, k := 0#5 } := by
  rcases q with _ | _ | _ | _ | _ <;> rfl

/-- The same in the interrupt context, beside the run's pin and channel (R34). -/
theorem IrqRegs.live_ofClk (i : IrqRegs) (q : Option ClkPhase) :
    i.live (Ipc.ofClk q) =
      { clk := liveClk q q.isNone i.clk, pin := i.pin, ch := i.ch, edge := 0#1, word := 0#32, next := 0#32, r := 0#32,
        ok := false } := by
  rcases q with _ | _ | _ | _ | _ <;> rfl

theorem Mpc.eq_ofClk {m : Mpc} {p : ClkPhase} (h : m.clkPhase = some p) : m = Mpc.ofClk (some p) := by
  cases m <;> cases h <;> rfl

theorem Ipc.eq_ofClk {i : Ipc} {p : ClkPhase} (h : i.clkPhase = some p) : i = Ipc.ofClk (some p) := by
  cases i <;> cases h <;> rfl

/-- R123: which step of a clock read follows depends on what is still to be read. -/
theorem clkNext_liveClk (hi : Half) (c : ClkRegs) (p : ClkPhase) :
    clkNext hi (liveClk (some p) false c) p = clkNext hi c p := by
  cases p <;> rfl

/-- R123: so does what is still to be read after the step. -/
theorem liveClk_clkStep (hi lo : Half) (c : ClkRegs) (p : ClkPhase) :
    liveClk (clkNext hi c p) (clkNext hi c p).isNone (clkStep hi lo (liveClk (some p) false c) p) =
      liveClk (clkNext hi c p) (clkNext hi c p).isNone (clkStep hi lo c p) := by
  cases p with
  | r1 | r2 | r4 => rfl
  | r3 => by_cases h : sameEpoch c.h1 hi = true <;> simp [clkNext, clkStep, liveClk, h]

/-! ### Forgetting -/

@[simp] theorem forgetDead_cntLo (s : State) : s.forgetDead.cntLo = s.cntLo := rfl
@[simp] theorem forgetDead_cntHi (s : State) : s.forgetDead.cntHi = s.cntHi := rfl
@[simp] theorem forgetDead_cntRun (s : State) : s.forgetDead.cntRun = s.cntRun := rfl
@[simp] theorem forgetDead_mem (s : State) : s.forgetDead.mem = s.mem := rfl
@[simp] theorem forgetDead_writeIndex (s : State) : s.forgetDead.writeIndex = s.writeIndex := rfl
@[simp] theorem forgetDead_readIndex (s : State) : s.forgetDead.readIndex = s.readIndex := rfl
@[simp] theorem forgetDead_irqSrcEn (s : State) : s.forgetDead.irqSrcEn = s.irqSrcEn := rfl
@[simp] theorem forgetDead_irqMask (s : State) : s.forgetDead.irqMask = s.irqMask := rfl
@[simp] theorem forgetDead_lastSent (s : State) : s.forgetDead.lastSent = s.lastSent := rfl
@[simp] theorem forgetDead_pktLen (s : State) : s.forgetDead.pktLen = s.pktLen := rfl
@[simp] theorem forgetDead_mpc (s : State) : s.forgetDead.mpc = s.mpc := rfl
@[simp] theorem forgetDead_ipc (s : State) : s.forgetDead.ipc = s.ipc := rfl
@[simp] theorem forgetDead_wire (s : State) : s.forgetDead.wire = s.wire := rfl
@[simp] theorem forgetDead_env (s : State) : s.forgetDead.env = s.env := rfl
@[simp] theorem forgetDead_host (s : State) : s.forgetDead.host = s.host := rfl
@[simp] theorem forgetDead_m (s : State) : s.forgetDead.m = s.m.live s.mpc := rfl
@[simp] theorem forgetDead_i (s : State) : s.forgetDead.i = s.i.live s.ipc := rfl

/-- The state without its working registers. -/
def State.noRegs (s : State) : State :=
  { s with m := MainRegs.reset, i := IrqRegs.reset }

/-- States that agree outside the working registers and in what is still to be read. -/
theorem forgetDead_eq_of {s t : State} (h : t.noRegs = s.noRegs) (hm : t.m.live s.mpc = s.m.live s.mpc)
    (hi : t.i.live s.ipc = s.i.live s.ipc) : t.forgetDead = s.forgetDead := by
  have hmpc : t.mpc = s.mpc := show t.noRegs.mpc = s.noRegs.mpc by rw [h]
  have hipc : t.ipc = s.ipc := show t.noRegs.ipc = s.noRegs.ipc by rw [h]
  calc t.forgetDead = { t.noRegs with m := t.m.live t.mpc, i := t.i.live t.ipc } := rfl
    _ = { s.noRegs with m := s.m.live s.mpc, i := s.i.live s.ipc } := by rw [h, hmpc, hipc, hm, hi]
    _ = s.forgetDead := rfl

/-! ### Steps of the interrupt context and ticks -/

theorem tickCounters_forgetDead (s : State) : (tickCounters s.forgetDead).forgetDead = (tickCounters s).forgetDead := by
  refine forgetDead_eq_of ?_ ?_ ?_
  · by_cases hlo : s.cntLo = 0xFFFF#16 <;> simp [State.noRegs, hlo]
  · simp
  · simp

theorem clkStepI_forgetDead {s : State} {p : ClkPhase} (h : s.ipc.clkPhase = some p) :
    (clkStepI p s.forgetDead).forgetDead = (clkStepI p s).forgetDead := by
  have hlive := s.i.live_ofClk (some p)
  rw [← Ipc.eq_ofClk h] at hlive
  have hnext := clkNext_liveClk s.cntHi s.i.clk p
  refine forgetDead_eq_of ?_ (MainRegs.live_idem _ _) ?_
  · simp [State.noRegs, hlive, hnext]
  · rw [clkStepI_ipc, IrqRegs.live_ofClk, IrqRegs.live_ofClk]
    simpa [hlive] using liveClk_clkStep s.cntHi s.cntLo s.i.clk p

theorem edgeFinish_forgetDead {s : State} (h : s.ipc = .iFinish) :
    (edgeFinish s.forgetDead).forgetDead = (edgeFinish s).forgetDead := by
  have hword : edgeWord s.forgetDead = edgeWord s := by
    simp [edgeWord, h, IrqRegs.live, liveClk]
  refine forgetDead_eq_of ?_ ?_ ?_
  · by_cases hfit : pushFits (s.writeIndex + 1#32) s.readIndex = true <;> simp [State.noRegs, hword, hfit]
  · simp
  · simp [IrqRegs.live, liveClk, Ipc.clkPhase]

theorem enterIrq_forgetDead (p : Pin) (s : State) :
    (enterIrq p s.forgetDead).forgetDead = (enterIrq p s).forgetDead := by
  refine forgetDead_eq_of ?_ (by simp) ?_
  · unfold enterIrq
    rw [forgetDead_env]
    split <;> rfl
  · unfold enterIrq
    rw [forgetDead_env]
    split
    · exact IrqRegs.live_idem _ _
    · rfl

theorem irqStep_forgetDead (s : State) :
    viewResult State.forgetDead (irqStep s.forgetDead) = viewResult State.forgetDead (irqStep s) := by
  cases h : s.ipc with
  | iIdle => simp only [irqStep, forgetDead_ipc, h, viewResult]
  | iR1 | iR2 | iR3 | iR4 =>
    rw [irqStep_of_clkPhase (by rw [forgetDead_ipc, h]; rfl), irqStep_of_clkPhase (by rw [h]; rfl)]
    exact congrArg Host.Outcome.next (clkStepI_forgetDead (by rw [h]; rfl))
  | iFinish =>
    rw [irqStep_of_finish h, irqStep_of_finish (by rw [forgetDead_ipc, h])]
    exact congrArg Host.Outcome.next (edgeFinish_forgetDead h)

/-! ### Steps of the main loop -/

theorem clkStepM_forgetDead {s : State} {p : ClkPhase} (h : s.mpc.clkPhase = some p) :
    (clkStepM p s.forgetDead).forgetDead = (clkStepM p s).forgetDead := by
  have hlive := s.m.live_ofClk (some p)
  rw [← Mpc.eq_ofClk h] at hlive
  have hnext := clkNext_liveClk s.cntHi s.m.clk p
  refine forgetDead_eq_of ?_ ?_ (IrqRegs.live_idem _ _)
  · simp [State.noRegs, hlive, hnext]
  · rw [clkStepM_mpc, MainRegs.live_ofClk, MainRegs.live_ofClk]
    simpa [hlive] using liveClk_clkStep s.cntHi s.cntLo s.m.clk p

theorem decideFlush_forgetDead {s : State} (h : s.mpc = .mDecide) :
    (decideFlush s.forgetDead).forgetDead = (decideFlush s).forgetDead := by
  have havail : (s.m.live s.mpc).avail = s.m.avail := if_pos h
  refine forgetDead_eq_of ?_ ?_ (IrqRegs.live_idem _ _)
  · simp only [State.noRegs, decideFlush, forgetDead_m, havail]
    rfl
  · simp only [decideFlush_m, decideFlush_mpc, forgetDead_m, havail]
    split <;> rfl

theorem rangeTest_forgetDead {s : State} (h : s.mpc = .mGTest) :
    (rangeTest s.forgetDead).forgetDead = (rangeTest s).forgetDead := by
  have ht : (s.m.live s.mpc).clk.t = s.m.clk.t := by rw [h]; rfl
  refine forgetDead_eq_of ?_ ?_ (IrqRegs.live_idem _ _)
  · simp only [State.noRegs, rangeTest, forgetDead_m, ht]
    rfl
  · simp only [rangeTest_mpc]
    split <;> rfl

theorem drainStep_forgetDead {s : State} (h : s.mpc = .mDrain) :
    viewResult State.forgetDead (drainStep s.forgetDead) = viewResult State.forgetDead (drainStep s) := by
  have hk : (s.m.live s.mpc).k = s.m.k := if_pos h
  have hn : (s.m.live s.mpc).n = s.m.n := if_pos h
  have hroom : s.forgetDead.packetRoom = s.packetRoom := by simp only [State.packetRoom, forgetDead_m, hk]
  have hdrained (w : Word) : (advanceDrain (serializeWord w s.forgetDead)).forgetDead =
      (advanceDrain (serializeWord w s)).forgetDead := by
    refine forgetDead_eq_of ?_ ?_ (IrqRegs.live_idem _ _)
    · simp only [State.noRegs, advanceDrain, serializeWord, forgetDead_m, hk, hn]
      rfl
    · by_cases hlast : s.m.k + 1#5 < s.m.n <;>
        simp only [advanceDrain_m, advanceDrain_mpc, serializeWord_m, forgetDead_m, h, hlast, if_true, if_false] <;> rfl
  unfold drainStep
  rw [forgetDead_mem, forgetDead_readIndex, forgetDead_m, hk, hroom]
  split
  · rfl
  · split
    · exact congrArg Host.Outcome.next (hdrained _)
    · rfl

theorem submitStep_forgetDead {s : State} (h : s.mpc = .mSubmit) :
    viewResult State.forgetDead (submitStep s.forgetDead) = viewResult State.forgetDead (submitStep s) := by
  have hanswer (bytes : List Byte) : (answerSend bytes s.forgetDead).forgetDead = (answerSend bytes s).forgetDead := by
    have hnow : (s.m.live s.mpc).now = s.m.now := if_pos (.inr h)
    refine forgetDead_eq_of ?_ ?_ (by simp)
    · by_cases ha : s.env.answer = .accepted <;> simp [State.noRegs, hnow, ha]
    · simp only [answerSend_m, answerSend_mpc, forgetDead_m, h]
      split <;> rfl
  unfold submitStep
  rw [show s.forgetDead.packet = s.packet from rfl]
  split
  · rfl
  · exact congrArg Host.Outcome.next (hanswer _)

theorem mainStep_forgetDead (s : State) :
    viewResult State.forgetDead (mainStep s.forgetDead) = viewResult State.forgetDead (mainStep s) := by
  have hnext {t u : State} (h : t.forgetDead = u.forgetDead) :
      viewResult State.forgetDead (.next t) = viewResult State.forgetDead (.next u) := congrArg Host.Outcome.next h
  cases h : s.mpc <;> simp only [mainStep, forgetDead_mpc, h]
  case mDecide => exact hnext (decideFlush_forgetDead h)
  case mDrain => exact drainStep_forgetDead h
  case mSubmit => exact submitStep_forgetDead h
  case mGTest => exact hnext (rangeTest_forgetDead h)
  case mGR1 | mGR2 | mGR3 | mGR4 => exact hnext (clkStepM_forgetDead (by rw [h]; rfl))
  case mSnapEnter | mSnapW | mHaltCnt | mHaltIrq | mHaltQ | mIdle =>
    exact hnext (forgetDead_eq_of rfl rfl (IrqRegs.live_idem _ _))
  case mSnapR | mSnapExit =>
    refine hnext (forgetDead_eq_of rfl ?_ (IrqRegs.live_idem _ _))
    simp [h, MainRegs.live, liveClk, Mpc.clkPhase]

/-! ### A whole step -/

theorem enabled_forgetDead (mv : Move) (s : State) : enabled mv s.forgetDead = enabled mv s := by
  cases mv <;> rfl

theorem nextMove_forgetDead (s : State) : nextMove s.forgetDead = nextMove s := by
  simp only [nextMove, legalChoice, enabled_forgetDead]
  rfl

theorem afterMove_forgetDead (s : State) : afterMove s.forgetDead = (afterMove s).forgetDead := by
  unfold afterMove
  rw [forgetDead_env]
  split <;> rfl

/-- What the receiver reads next is on the wire or in its own state (R92, R94). -/
theorem hostFetch_forgetDead (s : State) :
    hostFetch s.forgetDead = (hostFetch s).map (fun f => (f.1, f.2.forgetDead)) := by
  unfold hostFetch
  rw [forgetDead_host, forgetDead_wire]
  split
  · split <;> rfl
  · split
    · rfl
    · split <;> rfl

/-- What the receiver reads, run in any state, changes the receiver's state by its former value only (R266). -/
theorem exec_of_hostFetch {s u : State} {i : Instr} (h : hostFetch s = some (i, u)) :
    ∃ f : HostSide → HostSide, ∀ v : State, exec i v = .next { v with host := f v.host } := by
  unfold hostFetch at h
  split at h
  · split at h
    · rename_i hd
      obtain ⟨rfl, -⟩ := Prod.mk.inj (Option.some.inj h)
      obtain ⟨k, t, hk, rfl⟩ := decodeEvent_ok hd
      exact ⟨fun hs => { hs with events := hs.events ++ [_] }, fun v => exec_rowOfTag k t v hk⟩
    · cases h
  · split at h
    · cases h
    · split at h
      · rename_i hd
        obtain ⟨rfl, -⟩ := Prod.mk.inj (Option.some.inj h)
        obtain ⟨ws, rfl, -, hw⟩ := decodePacket_ok hd
        exact ⟨fun hs => { hs with inbox := hs.inbox ++ ws }, fun v => if_pos hw⟩
      · cases h

/-- The receiver reads no working register (R266). -/
theorem runMove_host_forgetDead (s : State) :
    viewResult State.forgetDead (runMove .host s.forgetDead) = viewResult State.forgetDead (runMove .host s) := by
  have hf := hostFetch_forgetDead s
  cases h : hostFetch s with
  | none =>
    rw [h] at hf
    simp only [runMove, operationOf, h, hf, Option.map_none]
    rfl
  | some r =>
    obtain ⟨i, u⟩ := r
    obtain ⟨f, he⟩ := exec_of_hostFetch h
    rw [h] at hf
    simp only [runMove, operationOf, h, hf, Option.map_some, he]
    exact congrArg Host.Outcome.next (forgetDead_eq_of rfl (MainRegs.live_idem _ _) (IrqRegs.live_idem _ _))

/-- An enabled move reads no working register that is written before it is read. -/
theorem runMove_forgetDead {mv : Move} {s : State} (he : enabled mv s = true) :
    viewResult State.forgetDead (runMove mv s.forgetDead) = viewResult State.forgetDead (runMove mv s) := by
  cases mv with
  | tick =>
    rw [runMove_tick he, runMove_tick (s := s.forgetDead) he]
    exact congrArg Host.Outcome.next (tickCounters_forgetDead s)
  | irq p =>
    rw [runMove_irq p he, runMove_irq (s := s.forgetDead) p he]
    exact congrArg Host.Outcome.next (enterIrq_forgetDead p s)
  | istep =>
    have hr : s.ipc ≠ .iIdle := by simpa [enabled] using he
    rw [runMove_istep hr, runMove_istep (s := s.forgetDead) hr]
    exact irqStep_forgetDead s
  | mstep =>
    have hi : s.ipc = .iIdle := by simpa [enabled] using he
    rw [runMove_mstep hi, runMove_mstep (s := s.forgetDead) hi]
    exact mainStep_forgetDead s
  | reset => rfl
  | host => exact runMove_host_forgetDead s
  | transition p =>
    rw [runMove_transition, runMove_transition]
    exact congrArg Host.Outcome.next (forgetDead_eq_of rfl (MainRegs.live_idem _ _) (IrqRegs.live_idem _ _))
  | serve =>
    obtain ⟨hne, hm⟩ : s.env.pendq ≠ [] ∧ s.mayEnter = true := by simpa [enabled] using he
    obtain ⟨p, rest, hq⟩ := List.exists_cons_of_ne_nil hne
    rw [runMove_serve hq hm, runMove_serve (s := s.forgetDead) hq hm]
    exact congrArg Host.Outcome.next (enterIrq_forgetDead p { s with env := { s.env with pendq := rest } })

/-- A step reads no working register that is written before it is read. -/
theorem step_forgetDead (s : State) :
    viewResult State.forgetDead (step s.forgetDead) = viewResult State.forgetDead (step s) := by
  have hen : enabled (nextMove s.forgetDead) s.forgetDead = enabled (nextMove s) s := by
    rw [nextMove_forgetDead, enabled_forgetDead]
  cases he : enabled (nextMove s) s with
  | true =>
    rw [step_eq_runMove he, step_eq_runMove (hen.trans he), nextMove_forgetDead, afterMove_forgetDead]
    exact runMove_forgetDead (by rwa [enabled_afterMove])
  | false => rw [step_eq_refused he, step_eq_refused (hen.trans he)]

/-- Settles O60: a step commutes with forgetting the registers that are written before they are read, so states that
agree but for those take steps to results that do. -/
theorem deadWorkingRegistersAreUnobservable : Obligations.DeadWorkingRegistersAreUnobservable := by
  intro s t h
  rw [← step_forgetDead s, ← step_forgetDead t, h]

end Sys2Proof.Machine
end

section
/-! Which operations write the counters, the control bits, the mask and `WIRE` (R20 to R22, R26 to R28, R37), and the main
loop's table (R33). -/

namespace Sys2Proof.Machine

/-! ### What a run in progress leaves alone -/

/-- A step of a run writes no counter, no control bit, no mask, and nothing of the transport (R34, R147). -/
theorem irqStep_frame {s t : State} (h : irqStep s = .next t) :
    (t.cntLo = s.cntLo ∧ t.cntHi = s.cntHi) ∧ t.cntRun = s.cntRun ∧ t.irqSrcEn = s.irqSrcEn ∧ t.irqMask = s.irqMask ∧
      t.wire = s.wire ∧ t.lastSent = s.lastSent := by
  rcases irqStep_next h with ⟨p, -, rfl⟩ | ⟨-, rfl⟩ <;> simp

/-- But for a reset, an operation is a step of the main loop, or it leaves the control bits, the mask, `WIRE` and
`LAST_SENT` alone. -/
theorem Effect.main_or_frame {i : Instr} {s t : State} (h : Effect i s t) (hi : i ≠ .sysReset) :
    (s.ipc = .iIdle ∧ MainStepped s t) ∨
    (t.cntRun = s.cntRun ∧ t.irqSrcEn = s.irqSrcEn ∧ t.irqMask = s.irqMask ∧ t.wire = s.wire ∧
      t.lastSent = s.lastSent) := by
  cases h with
  | main t hidle hx => exact .inl ⟨hidle, hx⟩
  | run t _ hx => exact .inr (irqStep_frame hx).2
  | reset hr => exact absurd hr hi
  | receive | tick | pack | enter | push | serialize => simp

/-! ### What the main loop writes, and where (R33) -/

/-- The two halt steps write the control bits, and clear them (R223, R224). -/
theorem MainStepped.controlBits_cases {s t : State} (h : MainStepped s t) :
    (t.cntRun = s.cntRun ∨ s.mpc = .mHaltCnt ∧ t.cntRun = false) ∧
    (t.irqSrcEn = s.irqSrcEn ∨ s.mpc = .mHaltIrq ∧ t.irqSrcEn = false) := by
  cases h <;> simp [*]

/-- The ends of the critical section write the mask (R162, R163). -/
theorem MainStepped.mask_cases {s t : State} (h : MainStepped s t) :
    t.irqMask = s.irqMask ∨ (s.mpc = .mSnapEnter ∧ t.irqMask = true) ∨ (s.mpc = .mSnapExit ∧ t.irqMask = false) := by
  cases h <;> simp [*]

/-- R196, R199: only an accepted send reaches the transport. -/
theorem MainStepped.wire_cases {s t : State} (h : MainStepped s t) :
    (t.wire = s.wire ∧ t.lastSent = s.lastSent) ∨
    (s.mpc = .mSubmit ∧ s.env.answer = .accepted ∧ t.lastSent = s.m.now ∧
      ∃ bytes, s.packet = some bytes ∧ t.wire = s.wire ++ [bytes]) := by
  cases h with
  | submitted bytes hm hb =>
    by_cases ha : s.env.answer = .accepted
    · exact .inr ⟨hm, ha, by simp [ha], bytes, hb, by simp [ha]⟩
    · exact .inl (by simp [ha])
  | drained | clock | decided | tested | haltCnt | haltIrq | haltQ | snapEnter | snapW | snapR | snapExit | idled =>
    exact .inl ⟨rfl, rfl⟩

/-- The next phase is the table's. -/
theorem MainStepped.mpc_eq_phaseAfter {s t : State} (h : MainStepped s t) : t.mpc = s.phaseAfter := by
  cases h with
  | submitted bytes hm => cases ha : s.env.answer <;> simp [State.phaseAfter, hm, ha]
  | clock p hp =>
    cases hm : s.mpc <;> rw [hm] at hp <;> cases hp
    case mGR3.refl => by_cases he : s.m.clk.h1 = s.cntHi <;> simp [State.phaseAfter, hm, clkNext, sameEpoch, he, Mpc.ofClk]
    case mGR1.refl | mGR2.refl | mGR4.refl => simp [State.phaseAfter, hm, clkNext, Mpc.ofClk]
  | tested hm => simp [State.phaseAfter, hm, rangeReached]
  | drained w hm => rw [State.phaseAfter, hm]; rfl
  | decided hm | haltCnt hm | haltIrq hm | haltQ hm | snapEnter hm | snapW hm | snapR hm | snapExit hm | idled hm =>
    simp [State.phaseAfter, hm]

/-! ### The obligations -/

/-- Settles O11: of the operations but reset, a tick alone writes a counter, and it needs running counters. -/
theorem onlyTickAndResetWriteTheCounters : Obligations.OnlyTickAndResetWriteTheCounters := by
  intro i s t h hreset htick
  cases exec_next h with
  | tick hi hrun => simp [hi, hrun] at htick
  | reset hi => exact absurd hi hreset
  | run t _ hx => exact (irqStep_frame hx).1
  | main t _ hx =>
    obtain ⟨-, -, hlo, hhi, -⟩ := hx.frame
    exact ⟨hlo, hhi⟩
  | receive | pack | enter | push | serialize => simp

/-- Settles O48: but for a reset only the main loop's accepted send writes `WIRE` or `LAST_SENT`. -/
theorem onlyAnAcceptedSendReachesTheWire : Obligations.OnlyAnAcceptedSendReachesTheWire := by
  intro i s t h hreset
  rcases (exec_next h).main_or_frame hreset with ⟨hidle, hx⟩ | ⟨-, -, -, hkept⟩
  · exact hx.wire_cases.imp_right fun hsent => ⟨hidle, hsent⟩
  · exact .inl hkept

/-- Settles O49: but for a reset only the main loop's two halt steps write a control bit, and they clear it. -/
theorem controlBitsOnlyFall : Obligations.ControlBitsOnlyFall := by
  intro i s t h hreset
  rcases (exec_next h).main_or_frame hreset with ⟨-, hx⟩ | ⟨hrun, hsrc, -⟩
  · obtain ⟨hrun, hsrc⟩ := hx.controlBits_cases
    exact ⟨fun h0 => hrun.elim (·.trans h0) (·.2), fun h0 => hsrc.elim (·.trans h0) (·.2), hrun.imp_right (·.1),
      hsrc.imp_right (·.1)⟩
  · simp [hrun, hsrc]

/-- Settles O50: but for a reset only the two ends of the critical section write the mask. -/
theorem maskFollowsTheCriticalSection : Obligations.MaskFollowsTheCriticalSection := by
  intro i s t h hreset hne
  rcases (exec_next h).main_or_frame hreset with ⟨hidle, hx⟩ | ⟨-, -, hmask, -⟩
  · exact ⟨hidle, hx.mask_cases.resolve_left hne⟩
  · exact absurd hmask hne

/-- Settles O34: what the step reads is there, so it is one of the main loop's steps, which goes where the table says. -/
theorem mainLoopFollowsItsTable : Obligations.MainLoopFollowsItsTable := by
  intro s hidle hready
  obtain ⟨t, ht⟩ := mainStep_isNext hready
  have hx := mainStep_next ht
  refine ⟨t, ?_, ?_, hx.mpc_eq_phaseAfter, hx.frame.1.trans hidle, fun hm => ?_⟩
  · exact (whenMain_open hidle rfl).trans ht
  · exact (exec_mpc_operation hidle).trans ht
  · rw [mainStep, hm] at ht
    exact (Host.Outcome.next.inj ht).symm

/-- Settles O38: the reset state is written with the table's values. -/
theorem resetStateHasTheStatedValues : Obligations.ResetStateHasTheStatedValues :=
  ⟨rfl, rfl, rfl, rfl, rfl, rfl, rfl, rfl, rfl, rfl, rfl, rfl⟩

end Sys2Proof.Machine
end

section
/-! Who writes the cursors, the two storage spaces and the working registers (R24, R25, R30, R69), and what the storage
spaces keep (R60, R61). -/

namespace Sys2Proof.Machine

/-! ### Storage -/

/-- The slots are all in `QMEM`, so memories that agree on it read the same (R60 (a)). -/
theorem Memory.readSlot_congr {m m' : Memory} (h : m.qmem = m'.qmem) (a : Nat) : m.readSlot a = m'.readSlot a :=
  congrArg (cellRead · a) h

/-- R160: a push, accepted or not, writes no byte of `PKT`. -/
theorem readByte_pushWord (w : Word) (s : State) (j : Nat) :
    (pushWord w s).mem.readByte j = s.mem.readByte j := by
  rw [pushWord_mem]
  split <;> rfl

/-- R161: a push writes inside `QMEM`. -/
theorem wf_pushWord {s : State} (w : Word) (h : s.mem.wf = true) : (pushWord w s).mem.wf = true := by
  rw [pushWord_mem]
  split
  · exact Memory.wf_writeSlot _ _ _ (slot_lt _) h
  · exact h

/-- The memory after `I_FINISH` is the memory after its push (R149). -/
theorem edgeFinish_mem_eq_pushWord (s : State) : (edgeFinish s).mem = (pushWord (edgeWord s) s).mem := by
  rw [edgeFinish_mem, pushWord_mem]

/-- R194: a serialization with room writes inside `PKT`. -/
theorem wf_serializeWord {s : State} (w : Word) (hroom : s.packetRoom = true) (h : s.mem.wf = true) :
    (serializeWord w s).mem.wf = true :=
  Memory.wf_writeBytes _ _ _ (of_decide_eq_true hroom) h

/-- Of the main loop's steps the drain alone writes storage (R33, R167). -/
theorem MainStepped.memWf {s t : State} (h : MainStepped s t) (hwf : s.mem.wf = true) : t.mem.wf = true := by
  cases h with
  | drained w _ _ hroom => exact wf_serializeWord w hroom hwf
  | submitted bytes => rwa [answerSend_mem]
  | clock | decided | tested | haltCnt | haltIrq | haltQ | snapEnter | snapW | snapR | snapExit | idled => exact hwf

/-- A step of a run writes storage by its push only (R34, R149). -/
theorem irqStep_memWf {s t : State} (h : irqStep s = .next t) (hwf : s.mem.wf = true) : t.mem.wf = true := by
  rcases irqStep_next h with ⟨p, -, rfl⟩ | ⟨-, rfl⟩
  · exact hwf
  · rw [edgeFinish_mem_eq_pushWord]
    exact wf_pushWord _ hwf

/-! ### Where storage stops (R60, R169, log 5) -/

theorem drainStep_of_unwritten {s : State} (h : s.mem.readSlot (slot s.readIndex) = none) :
    drainStep s = .fault (.slotUnwritten (slot s.readIndex)) := by
  simp [drainStep, h]

theorem drainStep_of_noRoom {s : State} (h : (s.mem.readSlot (slot s.readIndex)).isSome = true)
    (hroom : s.packetRoom = false) : drainStep s = .fault (.pktRange (4 * s.m.k.toNat)) := by
  obtain ⟨w, hw⟩ := Option.isSome_iff_exists.mp h
  simp [drainStep, hw, hroom]

theorem submitStep_of_unwritten {s : State} (h : s.packet = none) : submitStep s = .fault (.pktUnwritten s.pktLen) := by
  simp [submitStep, h]

/-! ### Ownership -/

/-- Of the main loop's steps the halt's joint reset alone writes `WRITE_INDEX`, and it and the drain `READ_INDEX`
(R24, R25, R166, R170). -/
theorem MainStepped.cursor_cases {s t : State} (h : MainStepped s t) :
    (t.writeIndex = s.writeIndex ∨ s.mpc = .mHaltQ ∧ t.writeIndex = 0#32 ∧ t.readIndex = 0#32) ∧
    (t.readIndex = s.readIndex ∨ s.mpc = .mDrain ∧ t.readIndex = s.readIndex + 1#32 ∨
      s.mpc = .mHaltQ ∧ t.readIndex = 0#32) := by
  cases h with
  | haltQ hm => exact ⟨.inr ⟨hm, rfl, rfl⟩, .inr (.inr ⟨hm, rfl⟩)⟩
  | drained w hm => exact ⟨.inl rfl, .inr (.inl ⟨hm, rfl⟩)⟩
  | submitted bytes => simp
  | clock | decided | tested | haltCnt | haltIrq | snapEnter | snapW | snapR | snapExit | idled =>
    exact ⟨.inl rfl, .inl rfl⟩

/-- A step of a run writes nothing of the main loop's (R34, R69); `irqStep_frame` has the rest of what it leaves. -/
theorem irqStep_mainFrame {s t : State} (h : irqStep s = .next t) :
    t.readIndex = s.readIndex ∧ t.pktLen = s.pktLen ∧ t.m = s.m ∧ t.mpc = s.mpc ∧
      ∀ j, t.mem.readByte j = s.mem.readByte j := by
  rcases irqStep_next h with ⟨p, -, rfl⟩ | ⟨-, rfl⟩
  · simp
  · refine ⟨by simp, by simp, by simp, by simp, fun j => ?_⟩
    rw [edgeFinish_mem_eq_pushWord, readByte_pushWord]

/-- R246: no entry while masked or disabled. -/
theorem not_mayEnter_of_closed {s : State} (h : s.irqMask = true ∨ s.irqSrcEn = false) : s.mayEnter ≠ true := by
  intro he
  obtain ⟨hsrc, hmask, -⟩ := (mayEnter_iff s).mp he
  rcases h with h | h
  · simp [hmask] at h
  · simp [hsrc] at h

/-! ### The obligations -/

/-- Settles O43: entries are not enabled and a run is not in progress; of the rest only a reset and the main loop's
halt write `WRITE_INDEX`. -/
theorem noRunStartsMaskedOrDisabled : Obligations.NoRunStartsMaskedOrDisabled := by
  intro s t hidle hclosed h
  have hno := not_mayEnter_of_closed hclosed
  have hstep := step_next h
  generalize nextMove s = mv at hstep
  cases hstep with
  | irq p he => exact absurd he hno
  | serve p rest _ he => exact absurd he hno
  | istep t hr => exact absurd hidle hr
  | mstep t _ hx =>
    have hipc := hx.frame.1
    have hwrite := hx.cursor_cases.1
    rw [afterMove_ipc] at hipc
    rw [afterMove_writeIndex, afterMove_mpc] at hwrite
    exact ⟨hipc.trans hidle, hwrite.imp_right fun hq => .inr hq.1⟩
  | reset => exact ⟨rfl, .inr (.inl rfl)⟩
  | tick | host | transition => simp [hidle]

/-- Settles O46: with a run in progress the main loop's steps are closed, and what is left writes the interrupt
context's or the receiver's. -/
theorem interruptContextWritesItsOwnState : Obligations.InterruptContextWritesItsOwnState := by
  intro i s t h hrun hreset htick
  cases exec_next h with
  | tick hi => exact absurd hi htick
  | reset hi => exact absurd hi hreset
  | main t hidle => exact absurd hidle hrun
  | serialize w _ hidle => exact absurd hidle hrun
  | run t _ hx =>
    obtain ⟨⟨hlo, hhi⟩, hcnt, hsrc, hmask, hwire, hsent⟩ := irqStep_frame hx
    obtain ⟨hread, hlen, hm, hmpc, hbyte⟩ := irqStep_mainFrame hx
    exact ⟨hread, hsrc, hmask, hcnt, hsent, hlen, hm, hmpc, hwire, hlo, hhi, hbyte⟩
  | push w => simpa using readByte_pushWord w s
  | receive | pack | enter => simp

/-- Settles O47: with no run in progress a push and a run's step are closed, and the main loop's steps write the cursors
where `MainStepped.cursor_cases` says. -/
theorem mainLoopWritesItsOwnState : Obligations.MainLoopWritesItsOwnState := by
  intro i s t h hidle hreset
  cases exec_next h with
  | reset hi => exact absurd hi hreset
  | run t hr => exact absurd hidle hr
  | push w _ hf => exact absurd (hidle.symm.trans hf) (by decide)
  | main t _ hx =>
    obtain ⟨hipc, hi, -, -, -, hqmem⟩ := hx.frame
    exact ⟨fun _ _ => ⟨hi, hipc.trans hidle⟩, Memory.readSlot_congr hqmem, hx.cursor_cases⟩
  | enter p hi => simp [hi]
  | pack e c v hi => simp [hi]
  | receive | tick | serialize => simp [hidle]

/-- Settles O52: only a push and a serialization write storage, and they write inside it. -/
theorem memoryStaysCanonical : Obligations.MemoryStaysCanonical := by
  intro i s t h hwf
  cases exec_next h with
  | push w => exact wf_pushWord w hwf
  | serialize w _ _ _ hroom => exact wf_serializeWord w hroom hwf
  | run t _ hx => exact irqStep_memWf hx hwf
  | main t _ hx => exact hx.memWf hwf
  | reset => exact Memory.wf_reset
  | tick => rwa [tickCounters_mem]
  | enter p => rwa [enterIrq_mem]
  | receive | pack => exact hwf

/-- Settles O20: the slot is defined as the AND, and its value and that of the ten low bits are the remainder. -/
theorem slotIsIndexModCapacity : Obligations.SlotIsIndexModCapacity := by
  intro i
  exact ⟨slot_eq_mod i, rfl, by simp [slot_eq_mod]⟩

/-- Settles O45: in their phases the drain and the submit are open, and stop where what they read or the place they
write is not there. -/
theorem storageStopsAreNamed : Obligations.StorageStopsAreNamed := by
  intro s hidle
  have hdrain (hm : s.mpc = .mDrain) : exec .qDrain s = drainStep s := whenMain_open hidle (decide_eq_true hm)
  refine ⟨fun hm hnone => ?_, fun hm hsome hk => ?_, fun hm hnone => ?_⟩
  · rw [hdrain hm, drainStep_of_unwritten hnone]
  · have hroom : s.packetRoom = false := by
      rw [← Bool.not_eq_true, packetRoom_iff]
      omega
    rw [hdrain hm, drainStep_of_noRoom hsome hroom]
  · exact (whenMain_open hidle (decide_eq_true hm)).trans (submitStep_of_unwritten hnone)

end Sys2Proof.Machine
end

section
/-! The encoding of 30_encoding.md read both ways: event words and packets as bytes (R90 to R99), and what the receiver
makes of them (log 4). -/

namespace Sys2Proof.Machine

/-! ### Event words -/

/-- R90, R99: a word is its three tag bits above its timestamp field. -/
theorem evwWord_of_fields (w : Word) :
    evwWord (BitVec.ofNat 32 (w.toNat / 2 ^ 29 * 2 ^ 29)) (w.extractLsb' 0 29) = w := by
  apply BitVec.eq_of_toNat_eq
  rw [evwWord_toNat _ _ (by omega), extract_toNat]
  omega

/-- R91, R99: packing a polarity, a channel and a clock value gives the word of the row that `4 * edge + channel`
numbers, with the clock value's 29 low bits. -/
theorem evwWord_eq_packEvent (e : Bit) (c : Channel) (t : Word) :
    evwWord (BitVec.ofNat 32 ((e.toNat * 4 + c.toNat) * 2 ^ 29)) (t.extractLsb' 0 29) = packEvent e c t := by
  apply BitVec.eq_of_toNat_eq
  rw [evwWord_toNat _ _ (by omega), extract_toNat, packEvent_toNat]
  omega

theorem decodeWord_packEvent (e : Bit) (c : Channel) (t : Word) :
    decodeWord (packEvent e c t) = some (rowOfTag (e.toNat * 4 + c.toNat) (t.extractLsb' 0 29)) := by
  rw [← evwWord_eq_packEvent, decodeWord_evwWord _ _ (by omega)]

/-- R92, R141: unpacking undoes packing, but for the timestamp's bits above its field. -/
theorem unpackEvent_packEvent (e : Bit) (c : Channel) (t : Word) :
    unpackEvent (packEvent e c t) = { edge := e, channel := c, timestamp := (t.extractLsb' 0 29).setWidth 32 } := by
  rw [unpackEvent, packEvent_edge, packEvent_channel, packEvent_stamp]

/-- R92, R99: the row that `4 * edge + channel` numbers unpacks to that polarity, that channel and its timestamp. -/
theorem unpackEvent_evwWord (e : Bit) (c : Channel) (t : Stamp) :
    unpackEvent (evwWord (BitVec.ofNat 32 ((e.toNat * 4 + c.toNat) * 2 ^ 29)) t) =
      { edge := e, channel := c, timestamp := t.setWidth 32 } := by
  have ht : (t.setWidth 32).extractLsb' 0 29 = t := by
    apply BitVec.eq_of_toNat_eq
    rw [extract_toNat, BitVec.toNat_setWidth]
    omega
  have h := unpackEvent_packEvent e c (t.setWidth 32)
  rwa [← evwWord_eq_packEvent, ht] at h

/-- R92, R99: the receiver, handed a row, notes the row's event. -/
theorem exec_rowOfTag_eq_hostEvent (e : Bit) (c : Channel) (t : Stamp) (s : State) :
    exec (rowOfTag (e.toNat * 4 + c.toNat) t) s =
      .next (hostEvent { edge := e, channel := c, timestamp := t.setWidth 32 } s) := by
  rw [exec_rowOfTag _ _ _ (by omega), unpackEvent_evwWord]

/-! ### Decoding what was encoded -/

/-- R95, R99: what has an encoding is a packet or one of the eight rows. -/
theorem encode_cases {i : Instr} {bytes : List Byte} (h : encode i = some bytes) :
    (∃ ws, i = .pkt ws) ∨ ∃ k t, k < 8 ∧ i = rowOfTag k t := by
  cases i with
  | pkt ws => exact .inl ⟨ws, rfl⟩
  | evwFall0 t => exact .inr ⟨0, t, by decide, rfl⟩
  | evwFall1 t => exact .inr ⟨1, t, by decide, rfl⟩
  | evwFall2 t => exact .inr ⟨2, t, by decide, rfl⟩
  | evwFall3 t => exact .inr ⟨3, t, by decide, rfl⟩
  | evwRise0 t => exact .inr ⟨4, t, by decide, rfl⟩
  | evwRise1 t => exact .inr ⟨5, t, by decide, rfl⟩
  | evwRise2 t => exact .inr ⟨6, t, by decide, rfl⟩
  | evwRise3 t => exact .inr ⟨7, t, by decide, rfl⟩
  | _ => cases h

/-- R99: the bytes of an event-word row are read back as the row, and the bytes after them are left. -/
theorem decodeEvent_of_encode {i : Instr} {bytes : List Byte} (hne : ∀ ws, i ≠ .pkt ws) (h : encode i = some bytes)
    (rest : List Byte) : decodeEvent (bytes ++ rest) = .ok (i, rest) := by
  obtain ⟨ws, rfl⟩ | ⟨k, t, hk, rfl⟩ := encode_cases h
  · exact absurd rfl (hne ws)
  · rw [encode_rowOfTag k t hk] at h
    cases h
    rw [decodeEvent_leBytes, Option.some.inj ((decodeWord_eq _).symm.trans (decodeWord_evwWord k t hk))]

theorem packetWf_iff (ws : List Word) : packetWf ws = true ↔ 1 ≤ ws.length ∧ ws.length ≤ 16 := by
  simp [packetWf]

/-- R94, R96: the bytes of 1 to 16 words are read back as their packet. -/
theorem decodePacket_packetBytes {ws : List Word} (h : packetWf ws = true) :
    decodePacket (packetBytes ws) = .ok (.pkt ws) := by
  obtain ⟨hmin, hmax⟩ := (packetWf_iff ws).mp h
  have hlen := packetBytes_length ws
  have hne : (packetBytes ws).length ≠ 0 := by omega
  have hfits : ¬ Config.pktMaxBytes < (packetBytes ws).length := by
    simp only [Config.pktMaxBytes]
    omega
  rw [decodePacket, if_neg hne, if_neg hfits, cutWords_packetBytes]

/-- Settles O6: what has an encoding is a packet, cut into its words again, or a row, found again by its tag. -/
theorem decodeOfEncodeIsIdentity : Obligations.DecodeOfEncodeIsIdentity := by
  intro i bytes rest hwf h
  split
  case h_1 ws =>
    cases h
    exact decodePacket_packetBytes hwf
  case h_2 hne => exact decodeEvent_of_encode hne h rest

/-- Settles O7: the row is the one the tag bits number, and any other row's bytes would decode to two rows. -/
theorem everyWordIsOneEvent : Obligations.EveryWordIsOneEvent := by
  intro w
  refine ⟨_, decodeWord_eq w, ?_, fun j hne hj => ?_⟩
  · rw [encode_rowOfTag _ _ (by omega), evwWord_of_fields]
  · have h := (decodeEvent_of_encode hne hj []).symm.trans (decodeEvent_leBytes w [])
    exact (Prod.mk.inj (Except.ok.inj h)).1

/-! ### Packets -/

/-- R94: byte `b` of word `j` is byte `4 * j + b` of the packet. -/
theorem packetBytes_getElem? {ws : List Word} {j : Nat} {w : Word} (h : ws[j]? = some w) {b : Nat} (hb : b < 4) :
    (packetBytes ws)[4 * j + b]? = (leBytes w)[b]? := by
  induction ws generalizing j with
  | nil => simp at h
  | cons v ws ih =>
    rw [packetBytes_cons]
    cases j with
    | zero =>
      cases h
      rw [List.getElem?_append_left (by rw [leBytes_length]; omega), Nat.mul_zero, Nat.zero_add]
    | succ j =>
      rw [List.getElem?_append_right (by rw [leBytes_length]; omega), leBytes_length,
        show 4 * (j + 1) + b - 4 = 4 * j + b by omega]
      exact ih h

/-- Settles O9: four bytes a word, and the bytes of word `j` stand after those of the `j` words before it. -/
theorem packetLayoutIsLittleEndian : Obligations.PacketLayoutIsLittleEndian := by
  intro ws hwf
  obtain ⟨hmin, hmax⟩ := (packetWf_iff ws).mp hwf
  have hlen := packetBytes_length ws
  refine ⟨_, rfl, hlen, by omega, by omega, fun j w hj => ?_⟩
  exact ⟨packetBytes_getElem? hj (b := 0) (by decide), packetBytes_getElem? hj (b := 1) (by decide),
    packetBytes_getElem? hj (b := 2) (by decide), packetBytes_getElem? hj (b := 3) (by decide)⟩

/-- Settles O4: `PKT` takes the words where both checks on a packet hold, and is refused where one fails. -/
theorem packetReachesTheReceiver : Obligations.PacketReachesTheReceiver := by
  intro s ws
  refine ⟨fun hlen => if_pos ((packetWf_iff ws).mpr hlen), fun hlen => if_neg ?_⟩
  rw [packetWf_iff]
  omega

/-! ### Rows, fields and vectors -/

/-- Settles O3: each row is the one its polarity and channel number. -/
theorem eventRowsUnpackForTheReceiver : Obligations.EventRowsUnpackForTheReceiver := by
  intro s t
  have row (e : Bit) (c : Channel) := exec_rowOfTag_eq_hostEvent e c t s
  exact ⟨row 0 0, row 0 1, row 0 2, row 0 3, row 1 0, row 1 1, row 1 2, row 1 3⟩

/-- Settles O5: each row is the one its polarity and channel number. -/
theorem packedWordBelongsToItsRow : Obligations.PackedWordBelongsToItsRow := by
  intro t
  have row (e : Bit) (c : Channel) := decodeWord_packEvent e c t
  exact ⟨row 0 0, row 0 1, row 0 2, row 0 3, row 1 0, row 1 1, row 1 2, row 1 3⟩

/-- Settles O1: the word is the assembled one, and its fields are the operands. -/
theorem packBuildsTheEventWord : Obligations.PackBuildsTheEventWord := by
  intro s e c t
  exact ⟨packEvent e c t, rfl, rfl, packEvent_edge e c t, packEvent_channel e c t, packEvent_stamp e c t⟩

/-- Settles O8: the words' tags number their rows, the bytes are those of the words and the packet, and the refusals
are evaluated. -/
theorem specWordsDecode : Obligations.SpecWordsDecode :=
  ⟨decodeWord_eq _, decodeWord_eq _, decodeWord_eq _, decodeEvent_leBytes 0xC00003E8#32 [],
    decodePacket_packetBytes (ws := [0xC00003E8#32, 0x400007D0#32]) rfl, rfl, rfl⟩

end Sys2Proof.Machine
end

section
/-! The operations of several phases, each the main loop's step in its own phases (R95, R190, R220, R222, R164, log 8),
and the receiver's step (R92, R94, log 4). -/

namespace Sys2Proof.Machine

/-- R95: in its own phases a composite operation takes the step of the operation the phase selects. -/
theorem whenMain_mainStep_isNext {sel : Mpc → Bool} {s : State} (hidle : s.ipc = .iIdle) (hready : s.mainReady)
    (hsel : sel s.mpc = true) :
    ∃ t, whenMain sel s (mainStep s) = .next t ∧ exec s.mpc.operation s = .next t := by
  obtain ⟨t, ht⟩ := mainStep_isNext hready
  exact ⟨t, (whenMain_open hidle hsel).trans ht, (exec_mpc_operation hidle).trans ht⟩

/-- Settles O35: each of the four is the main loop's step behind the gate of its phases. -/
theorem compositeOperationsTakeTheirPhases : Obligations.CompositeOperationsTakeTheirPhases := by
  intro s hidle hready
  have own {sel : Mpc → Bool} := whenMain_mainStep_isNext (sel := sel) hidle hready
  exact ⟨own, own, own, own, whenMain_closed, whenMain_closed, whenMain_closed, whenMain_closed⟩

/-- R92: with a word in its inbox the receiver reads the word's row. -/
theorem hostFetch_of_word {s : State} {w : Word} {ws : List Word} {i : Instr} {rest : List Byte}
    (hin : s.host.inbox = w :: ws) (hdec : decodeEvent (leBytes w) = .ok (i, rest)) :
    hostFetch s = some (i, { s with host := { s.host with inbox := ws } }) := by
  simp only [hostFetch, hin, hdec]

/-- R94: with its inbox empty the receiver reads the next packet of `WIRE`. -/
theorem hostFetch_of_packet {s : State} {bytes : List Byte} {i : Instr} (hin : s.host.inbox = [])
    (hwire : s.wire[s.host.taken]? = some bytes) (hdec : decodePacket bytes = .ok i) :
    hostFetch s = some (i, { s with host := { s.host with taken := s.host.taken + 1 } }) := by
  simp only [hostFetch, hin, hwire, hdec]

/-- The receiver has a move where there is something for it to read (log 4). -/
theorem enabled_host_of_hostFetch {s : State} {f : Instr × State} (h : hostFetch s = some f) :
    enabled .host s = true := by
  cases hin : s.host.inbox with
  | cons w ws => simp [enabled, hin]
  | nil =>
    cases hwire : s.wire[s.host.taken]? with
    | none => simp [hostFetch, hin, hwire] at h
    | some bytes => simp [enabled, (List.getElem?_eq_some_iff.mp hwire).1]

/-- A listed move of the receiver runs what it reads. -/
theorem step_host_of_hostFetch {s t : State} {rest : List Move} {i : Instr} (hmoves : s.env.moves = .host :: rest)
    (h : hostFetch { s with env := { s.env with moves := rest } } = some (i, t)) : step s = exec i t := by
  have hnext := nextMove_of_listed hmoves
  have hafter := afterMove_of_listed hmoves
  refine step_eq_exec ?_ (by rwa [hnext, hafter])
  rw [hnext, ← enabled_afterMove, hafter]
  exact enabled_host_of_hostFetch h

/-- Settles O40: what the receiver reads with the move taken is the decoded word or packet. -/
theorem stepRunsTheDecodedInstruction : Obligations.StepRunsTheDecodedInstruction := by
  intro s rest i hmoves
  refine ⟨fun w ws hin hdec => ?_, fun bytes hin hwire hdec => ?_⟩
  · exact step_host_of_hostFetch hmoves (hostFetch_of_word hin hdec)
  · exact step_host_of_hostFetch hmoves (hostFetch_of_packet hin hwire hdec)

end Sys2Proof.Machine
end

section
/-! The clock of 40_clock.md: ticks (R120, R121), the steps of `CLK.READ` in either context (R123, R124), and what its
result says of the clock (R125, R126). -/

namespace Sys2Proof.Machine

/-! ### Ticks -/

/-- R121: stopped counters have no tick. -/
theorem exec_cntTick_of_stopped {s : State} (h : s.cntRun = false) : exec .cntTick s = .refused .notEnabled := by
  simp [exec, execCntTick, h]

/-- Settles O10: the state after a tick differs in the two counters only, and `clock_tickCounters` says what they make. -/
theorem tickAdvancesTheExtendedClock : Obligations.TickAdvancesTheExtendedClock := by
  intro s
  refine ⟨fun hrun => ⟨_, exec_cntTick hrun, ?_, clock_tickCounters s⟩, exec_cntTick_of_stopped⟩
  simpa only [tickCounters_cntLo, tickCounters_cntHi] using tickCounters_eq s

/-! ### The steps of a read -/

/-- R123: in branch A the third step ends the read with the low counter it has read. -/
theorem exec_clkRead_branchA {x : Ctx} {s : State} (hp : s.clkPhase x = some .r3) (h : (s.clkRegs x).h1 = s.cntHi) :
    exec (.clkRead x) s = .next (setClk x s
      { s.clkRegs x with h2 := s.cntHi, t := ext (s.clkRegs x).h1 (s.clkRegs x).l } none) := by
  rw [exec_clkRead x s .r3 hp]
  simp [clkStep, clkNext, sameEpoch, h]

/-- R123: in branch B the third step is followed by a second read of the low counter. -/
theorem exec_clkRead_branchB {x : Ctx} {s : State} (hp : s.clkPhase x = some .r3) (h : (s.clkRegs x).h1 ≠ s.cntHi) :
    exec (.clkRead x) s = .next (setClk x s { s.clkRegs x with h2 := s.cntHi } (some .r4)) := by
  rw [exec_clkRead x s .r3 hp]
  simp [clkStep, clkNext, sameEpoch, h]

/-- R35, R95: a context that is at no step of a read takes none. -/
theorem exec_clkRead_of_none {x : Ctx} {s : State} (h : s.clkPhase x = none) :
    exec (.clkRead x) s = .refused .notEnabled := by
  cases x <;> simp only [exec, execClkRead, h]

/-- R35: the main loop reads the clock in its phases of a read alone, and while no run is in progress. -/
theorem clkPhase_main_eq_none {s : State}
    (h : s.ipc ≠ .iIdle ∨ (s.mpc ≠ .mGR1 ∧ s.mpc ≠ .mGR2 ∧ s.mpc ≠ .mGR3 ∧ s.mpc ≠ .mGR4)) :
    s.clkPhase .M = none := by
  rcases h with hrun | ⟨h1, h2, h3, h4⟩
  · exact if_neg hrun
  · have hnone : s.mpc.clkPhase = none := by
      cases hp : s.mpc.clkPhase with
      | none => rfl
      | some p =>
        have hm := Mpc.eq_ofClk hp
        cases p with
        | r1 => exact absurd hm h1
        | r2 => exact absurd hm h2
        | r3 => exact absurd hm h3
        | r4 => exact absurd hm h4
    simp [State.clkPhase, hnone]

/-- Settles O12: at each of the four phases the interrupt context is at that step of the read, elsewhere at none. -/
theorem clockReadInTheInterruptContext : Obligations.ClockReadInTheInterruptContext := by
  intro s
  have hphase {q : Ipc} (h : s.ipc = q) : s.clkPhase .I = q.clkPhase := congrArg Ipc.clkPhase h
  refine ⟨fun h => exec_clkRead .I s .r1 (hphase h), fun h => exec_clkRead .I s .r2 (hphase h),
    fun h => exec_clkRead_branchA (hphase h), fun h => exec_clkRead_branchB (hphase h),
    fun h => exec_clkRead .I s .r4 (hphase h), ?_⟩
  rintro (h | h)
  · exact exec_clkRead_of_none (hphase h)
  · exact exec_clkRead_of_none (hphase h)

/-- Settles O13: with no run in progress the main loop is at the step of the read its phase names. -/
theorem clockReadInTheMainLoop : Obligations.ClockReadInTheMainLoop := by
  intro s
  have hphase {q : Mpc} (hidle : s.ipc = .iIdle) (h : s.mpc = q) : s.clkPhase .M = q.clkPhase :=
    (if_pos hidle).trans (congrArg Mpc.clkPhase h)
  exact ⟨fun hidle h => exec_clkRead .M s .r1 (hphase hidle h), fun hidle h => exec_clkRead .M s .r2 (hphase hidle h),
    fun hidle h => exec_clkRead_branchA (hphase hidle h), fun hidle h => exec_clkRead_branchB (hphase hidle h),
    fun hidle h => exec_clkRead .M s .r4 (hphase hidle h), fun h => exec_clkRead_of_none (clkPhase_main_eq_none h)⟩

/-! ### What the reads of the counters say of the clock -/

theorem cntHi_toNat (s : State) : s.cntHi.toNat = s.clock.toNat / 65536 := by
  rw [clock_toNat]
  omega

theorem cntLo_toNat (s : State) : s.cntLo.toNat = s.clock.toNat % 65536 := by
  rw [clock_toNat]
  omega

/-- R126, branch A: where the high counter is the same before and after, it was so when the low one was read. -/
theorem ext_toNat_of_sameEpoch {r s t : State} (hrs : r.clock.toNat ≤ s.clock.toNat)
    (hst : s.clock.toNat ≤ t.clock.toNat) (h : r.cntHi = t.cntHi) :
    (ext r.cntHi s.cntLo).toNat = s.clock.toNat := by
  have hsame := congrArg BitVec.toNat h
  rw [cntHi_toNat, cntHi_toNat] at hsame
  rw [ext_toNat, cntHi_toNat, cntLo_toNat]
  omega

/-- R126, branch B: a high counter that has moved on puts the result above the clock before it did, and the low
counter, read after it, keeps the result at or below the clock. -/
theorem ext_toNat_between {r s t : State} (hrs : r.clock.toNat ≤ s.clock.toNat) (hst : s.clock.toNat ≤ t.clock.toNat)
    (h : r.cntHi ≠ s.cntHi) :
    r.clock.toNat < (ext s.cntHi t.cntLo).toNat ∧ (ext s.cntHi t.cntLo).toNat ≤ t.clock.toNat := by
  have hmoved : r.cntHi.toNat ≠ s.cntHi.toNat := fun he => h (BitVec.eq_of_toNat_eq he)
  rw [cntHi_toNat, cntHi_toNat] at hmoved
  rw [ext_toNat, cntHi_toNat, cntLo_toNat]
  omega

/-! ### A read with ticks between its steps -/

theorem runOps_append_of_eq {is js : List Instr} {s t u : State} (h : runOps is s = some t)
    (h' : runOps js t = some u) : runOps (is ++ js) s = some u := by
  rw [runOps_append, h, Option.bind_some, h']

/-- Where a context stands in a clock read: the step it is at, its registers, whether the counters run, and the clock. -/
structure ReadsAt (x : Ctx) (run : Bool) (s : State) (p : Option ClkPhase) (c : ClkRegs) (time : Nat) : Prop where
  phase : s.clkPhase x = p
  regs : s.clkRegs x = c
  run : s.cntRun = run
  time : s.clock.toNat = time

section
variable {x : Ctx} {run : Bool} {s : State} {c : ClkRegs} {time : Nat}

/-- R124: a step of a read changes neither the clock nor whether it runs. -/
theorem ReadsAt.setClk {p : ClkPhase} (h : ReadsAt x run s (some p) c time) (c' : ClkRegs) (q : Option ClkPhase) :
    ReadsAt x run (setClk x s c' q) q c' time where
  phase := clkPhase_setClk x s c' q p h.phase
  regs := clkRegs_setClk x s c' q
  run := by rw [← h.run]; cases x <;> rfl
  time := by rw [clock_setClk, h.time]

theorem ReadsAt.clkRead {p : ClkPhase} (h : ReadsAt x run s (some p) c time) :
    ∃ t, runOps [.clkRead x] s = some t ∧
      ReadsAt x run t (clkNext s.cntHi c p) (clkStep s.cntHi s.cntLo c p) time := by
  obtain rfl := h.regs
  exact ⟨_, runOps_cons_of_next (exec_clkRead x s p h.phase), h.setClk _ _⟩

/-- R120, R126: without a wrap ticks advance the clock by their number; where the counters are stopped there are none. -/
theorem ReadsAt.afterTicks {p : Option ClkPhase} (h : ReadsAt x run s p c time) {n : Nat} (hn : run = true ∨ n = 0)
    (hwrap : time + n < 2 ^ 32) : ∃ t, runOps (ticks n) s = some t ∧ ReadsAt x run t p c (time + n) := by
  obtain ⟨rfl, rfl, rfl, rfl⟩ := h
  rcases hn with hrun | rfl
  · obtain ⟨t, hticks, hframe, hclock⟩ := runOps_ticks n s hrun
    refine ⟨t, hticks, ?_, ?_, ?_, ?_⟩
    · rw [hframe]; cases x <;> rfl
    · rw [hframe]; cases x <;> rfl
    · rw [hframe]
    · rw [hclock, BitVec.toNat_add, BitVec.toNat_ofNat]
      omega
  · exact ⟨s, rfl, rfl, rfl, rfl, rfl⟩

/-- The third step of a read whose first was taken in `r` and whose second in `u` (R123, R126): branch A ends it with
the clock at `u`, and in branch B the high counter has moved on since `r`. -/
theorem ReadsAt.thirdStep {r u : State} (h : ReadsAt x run s (some .r3) { c with h1 := r.cntHi, l := u.cntLo } time)
    (hru : r.clock.toNat ≤ u.clock.toNat) (hus : u.clock.toNat ≤ time) :
    ∃ t c', runOps [.clkRead x] s = some t ∧
      (ReadsAt x run t none c' time ∧ c'.t.toNat = u.clock.toNat ∨
       ReadsAt x run t (some .r4) c' time ∧ c'.h2 = s.cntHi ∧ r.cntHi ≠ s.cntHi) := by
  have hh1 : (s.clkRegs x).h1 = r.cntHi := by rw [h.regs]
  have hl : (s.clkRegs x).l = u.cntLo := by rw [h.regs]
  by_cases heq : r.cntHi = s.cntHi
  · refine ⟨_, _, runOps_cons_of_next (exec_clkRead_branchA h.phase (hh1.trans heq)), .inl ⟨h.setClk _ _, ?_⟩⟩
    rw [hh1, hl]
    exact ext_toNat_of_sameEpoch hru (hus.trans_eq h.time.symm) heq
  · exact ⟨_, _, runOps_cons_of_next (exec_clkRead_branchB h.phase (hh1 ▸ heq)), .inr ⟨h.setClk _ _, rfl, heq⟩⟩

/-- The first three steps of a read that starts in `s`, with ticks between them; `u` is the state before the third. -/
theorem ReadsAt.threeSteps (h : ReadsAt x run s (some .r1) c time) {a b : Nat} (hab : run = true ∨ a = 0 ∧ b = 0)
    (hwrap : time + a + b < 2 ^ 32) :
    ∃ (u v : State) (c' : ClkRegs),
      runOps ([.clkRead x] ++ ticks a ++ [.clkRead x] ++ ticks b ++ [.clkRead x]) s = some v ∧
      u.clock.toNat = time + a + b ∧
      (ReadsAt x run v none c' (time + a + b) ∧ c'.t.toNat = time + a ∨
       ReadsAt x run v (some .r4) c' (time + a + b) ∧ c'.h2 = u.cntHi ∧ s.cntHi ≠ u.cntHi) := by
  obtain ⟨s₁, hr₁, h₁⟩ := h.clkRead
  obtain ⟨s₂, ha, h₂⟩ := h₁.afterTicks (n := a) (hab.imp_right And.left) (by omega)
  obtain ⟨s₃, hr₂, h₃⟩ := h₂.clkRead
  obtain ⟨s₄, hb, h₄⟩ := h₃.afterTicks (n := b) (hab.imp_right And.right) hwrap
  have hs := h.time
  have hs₂ := h₂.time
  obtain ⟨v, c', hr₃, hv⟩ := h₄.thirdStep (r := s) (u := s₂) (by omega) (by omega)
  rw [hs₂] at hv
  exact ⟨s₄, v, c', runOps_append_of_eq (runOps_append_of_eq (runOps_append_of_eq (runOps_append_of_eq hr₁ ha) hr₂) hb)
    hr₃, h₄.time, hv⟩

end

/-- Settles O14: of the first three steps branch A gives the clock at the second, and branch B's fourth step gives a
value that `ext_toNat_between` brackets; stopped counters cannot have moved on, as branch B needs. -/
theorem clockReadIsBracketed : Obligations.ClockReadIsBracketed := by
  intro x s hstart
  have h : ReadsAt x s.cntRun s (some .r1) (s.clkRegs x) s.clock.toNat := ⟨hstart, rfl, rfl, rfl⟩
  refine ⟨fun a b c hrun hwrap => ?running, fun hstopped => ?stopped⟩
  case running =>
    obtain ⟨u, v, c', hops, hu, ⟨hv, ht⟩ | ⟨hv, hh2, hmoved⟩⟩ := h.threeSteps (.inl hrun) (a := a) (b := b) (by omega)
    · exact ⟨v, hops, hv.time, .inl ⟨hv.phase, by rw [hv.regs, ht]⟩⟩
    · obtain ⟨s₁, hc, h₁⟩ := hv.afterTicks (n := c) (.inl hrun) hwrap
      obtain ⟨t, hread, h₂⟩ := h₁.clkRead
      have hs₁ := h₁.time
      have hbetween := ext_toNat_between (s := u) (t := s₁) (by omega) (by omega) hmoved
      rw [← hh2] at hbetween
      refine ⟨v, hops, hv.time, .inr ⟨hv.phase, t, runOps_append_of_eq hc hread, h₂.phase, h₂.time, ?_⟩⟩
      rw [h₂.regs, h₂.time, ← hs₁]
      exact hbetween
  case stopped =>
    obtain ⟨u, v, c', hops, hu, ⟨hv, ht⟩ | ⟨hv, hh2, hmoved⟩⟩ :=
      h.threeSteps (a := 0) (b := 0) (.inr ⟨rfl, rfl⟩) (by simpa using s.clock.isLt)
    · exact ⟨v, hops, hv.phase, hv.run.trans hstopped, BitVec.eq_of_toNat_eq hv.time,
        BitVec.eq_of_toNat_eq (by rw [hv.regs, ht, Nat.add_zero])⟩
    · have hbetween := ext_toNat_between (s := u) (t := u) (by omega) le_rfl hmoved
      omega

end Sys2Proof.Machine
end

section
/-! The stream of accepted events under the steps that write it (R41, R168, R197): a drain and an accepted send move the
oldest word along, a push appends one, the halt's joint reset discards the queue. -/

namespace Sys2Proof.Machine

/-! ### Words and bytes -/

/-- R94: the bytes that are cut into words are those words' packet. -/
theorem packetBytes_of_cutWords (bs : List Byte) : ∀ ws, cutWords bs = some ws → packetBytes ws = bs := by
  induction bs using cutWords.induct with
  | case1 => intro ws h; cases h; rfl
  | case2 b0 b1 b2 b3 rest ih =>
    intro ws h
    obtain ⟨vs, hvs, rfl⟩ := Option.map_eq_some_iff.mp h
    rw [packetBytes_cons, leBytes_ofLeBytes, ih vs hvs]
    rfl
  | case3 | case4 | case5 => intro ws h; cases h

/-- R94, R194: whole words with one more word after them. -/
theorem wordsOf_append_leBytes {bs : List Byte} {k : Nat} (hlen : bs.length = 4 * k) (w : Word) :
    wordsOf (bs ++ leBytes w) = wordsOf bs ++ [w] := by
  obtain ⟨ws, hws⟩ := Option.isSome_iff_exists.mp (cutWords_isSome bs k hlen)
  have happend : bs ++ leBytes w = packetBytes (ws ++ [w]) := by
    rw [← packetBytes_of_cutWords bs ws hws]
    simp [packetBytes]
  rw [wordsOf, happend, cutWords_packetBytes, wordsOf, hws]
  rfl

/-! ### The queue -/

/-- R61: positions less than 1024 apart have slots of their own. -/
theorem slotAt_ne (s : State) {i j : Nat} (hij : i < j) (hj : j < i + 1024) : s.slotAt i ≠ s.slotAt j := by
  unfold State.slotAt
  rw [slot_eq_mod, slot_eq_mod, BitVec.toNat_add, BitVec.toNat_add, BitVec.toNat_ofNat, BitVec.toNat_ofNat]
  omega

/-- R160: an accepted push stores its word behind the others. -/
theorem queued_push {s t : State} {w : Word} (ho : s.occupancy.toNat < 1024)
    (hmem : t.mem = s.mem.writeSlot (slot s.writeIndex) w) (hw : t.writeIndex = s.writeIndex + 1#32)
    (hr : t.readIndex = s.readIndex) : t.queued = s.queued ++ [w] := by
  have hslot : t.slotAt = s.slotAt := by funext j; rw [State.slotAt, State.slotAt, hr]
  have hkept (j : Nat) (hj : j < s.occupancy.toNat) : t.mem.readSlot (t.slotAt j) = s.mem.readSlot (s.slotAt j) := by
    rw [hmem, hslot, Memory.readSlot_writeSlot, ← slotAt_occupancy, if_neg (slotAt_ne s hj (by omega))]
  have hnew : t.mem.readSlot (t.slotAt s.occupancy.toNat) = some w := by
    rw [hmem, hslot, Memory.readSlot_writeSlot, slotAt_occupancy, if_pos rfl]
  rw [State.queued, occupancy_push ho hw hr, List.range_succ, List.map_append]
  congr 1
  · exact List.map_congr_left fun j hj => by rw [hkept j (List.mem_range.mp hj)]
  · rw [List.map_singleton, hnew]
    rfl

/-- R167: a drain takes the oldest word. -/
theorem queued_eq_cons_of_drain {s t : State} {w : Word} (hw : s.mem.readSlot (slot s.readIndex) = some w)
    (ho : t.occupancy.toNat + 1 = s.occupancy.toNat) (hr : t.readIndex = s.readIndex + 1#32)
    (hmem : t.mem.qmem = s.mem.qmem) : s.queued = w :: t.queued := by
  have hkept (j : Nat) : s.mem.readSlot (s.slotAt (j + 1)) = t.mem.readSlot (t.slotAt j) := by
    rw [slotAt_succ hr, Memory.readSlot_congr hmem]
  rw [State.queued, ← ho, List.range_succ_eq_map, List.map_cons, slotAt_zero, hw, List.map_map]
  simp only [Function.comp_def, Nat.succ_eq_add_one, hkept]
  rfl

/-! ### The packet -/

theorem inFlight_of_noPacket {s : State} (h : ¬ (s.mpc = .mDrain ∨ s.mpc = .mSubmit)) : s.inFlight = [] :=
  if_neg h

theorem inFlight_of_packet {s : State} {bytes : List Byte} (h : s.mpc = .mDrain ∨ s.mpc = .mSubmit)
    (hb : s.packet = some bytes) : s.inFlight = wordsOf bytes := by
  rw [State.inFlight, if_pos h, hb]
  rfl

/-- R191: a decision starts an empty packet, or none. -/
theorem inFlight_decideFlush (s : State) : (decideFlush s).inFlight = [] := by
  unfold State.inFlight
  split <;> rfl

/-- R194: a serialization appends the word's four bytes to the packet. -/
theorem packet_serializeWord {s : State} (w : Word) {bytes : List Byte} (hk : s.m.k.toNat < 16)
    (hlen : s.pktLen = 4 * s.m.k.toNat) (hb : s.packet = some bytes) :
    (serializeWord w s).packet = some (bytes ++ leBytes w) := by
  have hold : (serializeWord w s).mem.readBytes 0 s.pktLen = some bytes := by
    rw [← hb]
    refine Memory.readBytes_congr _ _ _ _ fun x _ hx => ?_
    rw [readByte_serializeWord w s hk, if_neg (by omega)]
  have hnew : (serializeWord w s).mem.readBytes (0 + s.pktLen) 4 = some (leBytes w) := by
    refine Memory.readBytes_of_getElem? _ (leBytes w) _ fun x hx => ?_
    rw [leBytes_length] at hx
    rw [readByte_serializeWord w s hk, if_pos (by omega)]
    congr 1
    omega
  exact Memory.readBytes_add _ _ _ _ _ _ hold hnew

/-- In a packet's phases its bytes are written (R194). -/
theorem Inv.packet_isSome {s : State} (h : Inv s) (hm : s.mpc = .mDrain ∨ s.mpc = .mSubmit) :
    ∃ bytes, s.packet = some bytes ∧ bytes.length = s.pktLen := by
  obtain ⟨bytes, hb⟩ := Option.isSome_iff_exists.mp ((packet_isSome_iff s).mpr (h.packetWritten hm))
  exact ⟨bytes, hb, Memory.readBytes_length _ _ _ _ hb⟩

/-! ### The stream -/

/-- Where there is no packet, and neither the queue nor `WIRE` is written, the stream stays. -/
theorem stream_eq_of_noPacket {s t : State} (hs : s.inFlight = []) (ht : t.inFlight = []) (hmem : t.mem = s.mem)
    (hw : t.writeIndex = s.writeIndex) (hr : t.readIndex = s.readIndex) (hwire : t.wire = s.wire) :
    t.stream = s.stream := by
  simp only [State.stream, State.sent, State.queued, State.occupancy, State.slotAt, hs, ht, hmem, hw, hr, hwire]

/-- R149, R160: a run's end appends the word it packed, if the push fits. -/
theorem stream_edgeFinish {s : State} (ho : s.occupancy.toNat ≤ 1024) :
    (edgeFinish s).stream =
      s.stream ++ if pushFits (s.writeIndex + 1#32) s.readIndex then [edgeWord s] else [] := by
  have hsent : (edgeFinish s).sent = s.sent := by rw [State.sent, edgeFinish_wire]; rfl
  have hpacket : (edgeFinish s).packet = s.packet := by
    rw [State.packet, edgeFinish_pktLen, edgeFinish_mem_eq_pushWord]
    exact Memory.readBytes_congr _ _ _ _ fun x _ _ => readByte_pushWord _ _ _
  have hflight : (edgeFinish s).inFlight = s.inFlight := by
    rw [State.inFlight, hpacket, edgeFinish_mpc]
    rfl
  rw [State.stream, hsent, hflight, State.stream]
  split
  · rename_i hfit
    rw [queued_push (s := s) (w := edgeWord s) ((pushFits_iff s ho).mp hfit) (by rw [edgeFinish_mem, if_pos hfit])
      (by rw [edgeFinish_writeIndex, if_pos hfit]) (edgeFinish_readIndex s), List.append_assoc _ s.queued]
  · rename_i hfull
    simp only [State.queued, State.occupancy, State.slotAt, edgeFinish_mem, edgeFinish_writeIndex,
      edgeFinish_readIndex, if_neg hfull, List.append_nil]

/-- R167, R194: a drained word goes from the front of the queue to the end of the packet. -/
theorem Inv.stream_drained {s : State} (h : Inv s) (hm : s.mpc = .mDrain) {w : Word}
    (hw : s.mem.readSlot (slot s.readIndex) = some w) : (advanceDrain (serializeWord w s)).stream = s.stream := by
  obtain ⟨hkn, hn, hstored, hlen⟩ := h.drainCount hm
  simp only [Config.chunkSize] at hn
  have hocc := occupancy_drain (t := advanceDrain (serializeWord w s)) (s := s) (by omega) rfl rfl
  have hqueue := queued_eq_cons_of_drain hw hocc rfl (Memory.qmem_writeBytes _ _ _)
  obtain ⟨bytes, hb, hbytes⟩ := h.packet_isSome (.inl hm)
  have hpacket : (advanceDrain (serializeWord w s)).packet = some (bytes ++ leBytes w) :=
    packet_serializeWord w (by omega) hlen hb
  have hphase : (advanceDrain (serializeWord w s)).mpc = .mDrain ∨ (advanceDrain (serializeWord w s)).mpc = .mSubmit := by
    rw [advanceDrain_mpc]
    split
    · exact .inl rfl
    · exact .inr rfl
  rw [State.stream, State.stream, inFlight_of_packet hphase hpacket, wordsOf_append_leBytes (hbytes.trans hlen),
    inFlight_of_packet (.inl hm) hb, hqueue]
  simp [State.sent]

/-- R196, R197: an accepted packet goes to the end of `WIRE`, and a busy answer leaves it. -/
theorem stream_answerSend {s : State} (hm : s.mpc = .mSubmit) {bytes : List Byte} (hb : s.packet = some bytes) :
    (answerSend bytes s).stream = s.stream := by
  unfold answerSend
  split
  · rw [State.stream, State.stream, inFlight_of_noPacket (by simp), inFlight_of_packet (.inr hm) hb]
    show (s.wire ++ [bytes]).flatMap wordsOf ++ [] ++ s.queued = s.wire.flatMap wordsOf ++ wordsOf bytes ++ s.queued
    simp
  · rw [← hm]
    rfl

/-- R168, R170: the main loop keeps the stream, but for the halt's joint reset, which discards the queue. -/
theorem MainStepped.stream_eq {s t : State} (hi : Inv s) (h : MainStepped s t) :
    t.stream = if s.mpc = .mHaltQ then s.sent else s.stream := by
  cases h with
  | drained w hm hw => rw [if_neg (by simp [hm]), hi.stream_drained hm hw]
  | submitted bytes hm hb => rw [if_neg (by simp [hm]), stream_answerSend hm hb]
  | decided hm =>
    rw [if_neg (by simp [hm])]
    exact stream_eq_of_noPacket (inFlight_of_noPacket (by simp [hm])) (inFlight_decideFlush s) rfl rfl rfl rfl
  | haltQ hm =>
    rw [if_pos hm, State.stream, inFlight_of_noPacket (by simp)]
    simp [State.queued, State.occupancy, State.sent]
  | clock p hp =>
    have hs : ¬ (s.mpc = .mDrain ∨ s.mpc = .mSubmit) ∧ s.mpc ≠ .mHaltQ := by
      rw [Mpc.eq_ofClk hp]
      cases p <;> simp [Mpc.ofClk]
    have ht : ¬ ((clkStepM p s).mpc = .mDrain ∨ (clkStepM p s).mpc = .mSubmit) := by
      rw [clkStepM_mpc]
      rcases clkNext s.cntHi s.m.clk p with _ | _ | _ | _ | _ <;> simp [Mpc.ofClk]
    rw [if_neg hs.2]
    exact stream_eq_of_noPacket (inFlight_of_noPacket hs.1) (inFlight_of_noPacket ht) rfl rfl rfl rfl
  | tested hm =>
    have ht : ¬ ((rangeTest s).mpc = .mDrain ∨ (rangeTest s).mpc = .mSubmit) := by
      rw [rangeTest_mpc]
      split <;> simp
    rw [if_neg (by simp [hm])]
    exact stream_eq_of_noPacket (inFlight_of_noPacket (by simp [hm])) (inFlight_of_noPacket ht) rfl rfl rfl rfl
  | haltCnt hm | haltIrq hm | snapEnter hm | snapW hm | snapR hm | snapExit hm | idled hm =>
    rw [if_neg (by simp [hm])]
    exact stream_eq_of_noPacket (inFlight_of_noPacket (by simp [hm])) (inFlight_of_noPacket (by simp)) rfl rfl rfl rfl

end Sys2Proof.Machine
end

section
/-! Timestamps in queue order (R126, R151): the clock read of a run never falls behind the stream, so the word its end
appends is not below any other, and no other step of the machine puts a word in front. -/

namespace Sys2Proof.Machine

/-- R92, R141: the timestamp of a packed word. -/
theorem stampOf_packEvent (e : Bit) (c : Channel) (t : Word) : stampOf (packEvent e c t) = t.toNat % 2 ^ 29 := by
  rw [stampOf, unpackEvent_packEvent, BitVec.toNat_setWidth_of_le (by decide), extract_toNat]
  omega

theorem clock_eq_of_counters {s t : State} (hlo : t.cntLo = s.cntLo) (hhi : t.cntHi = s.cntHi) : t.clock = s.clock := by
  rw [State.clock, State.clock, hlo, hhi]

/-! ### Steps that leave the clock read and the stream alone -/

/-- The order speaks of the stream, the clock and the clock read of a run only. -/
theorem StampsInOrder.congr {s t : State} (h : StampsInOrder s) (hstream : t.stream = s.stream)
    (hlo : t.cntLo = s.cntLo) (hhi : t.cntHi = s.cntHi) (hipc : t.ipc = s.ipc) (hclk : t.i.clk = s.i.clk) :
    StampsInOrder t := by
  have hclock := clock_eq_of_counters hlo hhi
  constructor <;> simp only [hstream, hclock, hhi, hipc, hclk]
  exacts [h.ordered, h.pastClock, h.atR2, h.atR3, h.atR4, h.atFinish]

theorem StampsInOrder.setEnv {s : State} (h : StampsInOrder s) (e : Env) : StampsInOrder { s with env := e } :=
  h.congr rfl rfl rfl rfl rfl

theorem StampsInOrder.setHost {s : State} (h : StampsInOrder s) (hs : HostSide) : StampsInOrder { s with host := hs } :=
  h.congr rfl rfl rfl rfl rfl

/-- With no clock read begun it speaks of the stream and the clock only. -/
theorem StampsInOrder.of_noRead {s : State} (hipc : s.ipc = .iIdle ∨ s.ipc = .iR1)
    (hord : s.stream.Pairwise (fun a b => stampOf a ≤ stampOf b)) (hclock : ∀ w, w ∈ s.stream → stampOf w ≤ s.clock.toNat) :
    StampsInOrder s where
  ordered := hord
  pastClock := hclock
  atR2 hp := by simp [hp] at hipc
  atR3 hp := by simp [hp] at hipc
  atR4 hp := by simp [hp] at hipc
  atFinish hp := by simp [hp] at hipc

/-- An entry begins no clock read yet (R143). -/
theorem StampsInOrder.enterIrq {s : State} (h : StampsInOrder s) (p : Pin) : StampsInOrder (enterIrq p s) := by
  unfold Machine.enterIrq
  split
  · exact h
  · exact .of_noRead (.inr rfl) h.ordered h.pastClock

/-! ### The clock goes on -/

/-- A tick that does not wrap the clock (R120, R126): a read that finds the high counter as it was finds the clock of its
second step behind it. -/
theorem StampsInOrder.tickCounters {s : State} (h : StampsInOrder s) (hc : s.clock.toNat < 2 ^ 29) :
    StampsInOrder (tickCounters s) := by
  have hclock : (Machine.tickCounters s).clock.toNat = s.clock.toNat + 1 := by
    rw [clock_tickCounters, BitVec.toNat_add, BitVec.toNat_ofNat]
    omega
  have hhi : s.cntHi.toNat ≤ (Machine.tickCounters s).cntHi.toNat := by
    rw [cntHi_toNat, cntHi_toNat, hclock]
    omega
  have hstream : (Machine.tickCounters s).stream = s.stream := by rw [tickCounters_eq]; rfl
  constructor <;> simp only [hstream, tickCounters_ipc, tickCounters_i]
  · exact h.ordered
  · exact fun w hw => (h.pastClock w hw).trans (by omega)
  · intro hp
    obtain ⟨hh1, hbelow⟩ := h.atR2 hp
    exact ⟨hh1.trans hhi, hbelow⟩
  · intro hp
    obtain ⟨hh1, hbelow, hsame⟩ := h.atR3 hp
    refine ⟨hh1.trans hhi, hbelow, fun heq => ?_⟩
    obtain ⟨hread, hstamps⟩ := hsame (BitVec.eq_of_toNat_eq (hh1.antisymm (heq ▸ hhi)))
    exact ⟨hread.trans (by omega), hstamps⟩
  · intro hp
    obtain ⟨hh2, hbelow⟩ := h.atR4 hp
    exact ⟨hh2.trans hhi, hbelow⟩
  · intro hp
    obtain ⟨hread, hbelow⟩ := h.atFinish hp
    exact ⟨hread.trans (by omega), hbelow⟩

/-! ### The run's clock read -/

/-- R123, branch A: the high counter is as it was. -/
theorem clkStepI_branchA {s : State} (h : s.i.clk.h1 = s.cntHi) :
    clkStepI .r3 s = { s with
      i := { s.i with clk := { s.i.clk with h2 := s.cntHi, t := ext s.i.clk.h1 s.i.clk.l } }, ipc := .iFinish } := by
  simp [clkStepI, clkStep, clkNext, sameEpoch, h, Ipc.ofClk]

/-- R123, branch B: the high counter has moved, and the low one is read again. -/
theorem clkStepI_branchB {s : State} (h : s.i.clk.h1 ≠ s.cntHi) :
    clkStepI .r3 s = { s with i := { s.i with clk := { s.i.clk with h2 := s.cntHi } }, ipc := .iR4 } := by
  simp [clkStepI, clkStep, clkNext, sameEpoch, h, Ipc.ofClk]

/-- The four steps of a run's clock read (R123): what it reads is not behind the stream (R126). -/
theorem StampsInOrder.clkStepI {s : State} {p : ClkPhase} (h : StampsInOrder s) (hp : s.ipc.clkPhase = some p) :
    StampsInOrder (clkStepI p s) := by
  have hclock := clock_toNat s
  have hlo := s.cntLo.isLt
  have hphase := Ipc.eq_ofClk hp
  cases p with
  | r1 =>
    have hbelow (w : Word) (hw : w ∈ s.stream) : stampOf w < (s.cntHi.toNat + 1) * 65536 := by
      have := h.pastClock w hw
      omega
    exact { h with atR2 := fun _ => ⟨le_rfl, hbelow⟩, atR3 := nofun, atR4 := nofun, atFinish := nofun }
  | r2 =>
    obtain ⟨hh1, hbelow⟩ := h.atR2 hphase
    have hread (heq : s.i.clk.h1 = s.cntHi) : (ext s.i.clk.h1 s.cntLo).toNat = s.clock.toNat := by
      rw [heq]
      rfl
    exact { h with
      atR2 := nofun
      atR3 := fun _ => ⟨hh1, hbelow, fun heq => ⟨(hread heq).le, fun w hw => (h.pastClock w hw).trans_eq (hread heq).symm⟩⟩
      atR4 := nofun
      atFinish := nofun }
  | r3 =>
    obtain ⟨hh1, hbelow, hsame⟩ := h.atR3 hphase
    by_cases heq : s.i.clk.h1 = s.cntHi
    · rw [clkStepI_branchA heq]
      exact { h with atR2 := nofun, atR3 := nofun, atR4 := nofun, atFinish := fun _ => hsame heq }
    · have hmoved : s.i.clk.h1.toNat ≠ s.cntHi.toNat := fun he => heq (BitVec.eq_of_toNat_eq he)
      have hpast (w : Word) (hw : w ∈ s.stream) : stampOf w ≤ s.cntHi.toNat * 65536 := by
        have := hbelow w hw
        omega
      rw [clkStepI_branchB heq]
      exact { h with atR2 := nofun, atR3 := nofun, atR4 := fun _ => ⟨le_rfl, hpast⟩, atFinish := nofun }
  | r4 =>
    obtain ⟨hh2, hbelow⟩ := h.atR4 hphase
    have hread := ext_toNat s.i.clk.h2 s.cntLo
    have hle : (ext s.i.clk.h2 s.cntLo).toNat ≤ s.clock.toNat := by omega
    have hpast (w : Word) (hw : w ∈ s.stream) : stampOf w ≤ (ext s.i.clk.h2 s.cntLo).toNat := by
      have := hbelow w hw
      omega
    exact { h with atR2 := nofun, atR3 := nofun, atR4 := nofun, atFinish := fun _ => ⟨hle, hpast⟩ }

/-- A run's end (R149) appends, if anything, a word whose timestamp is what the run read. -/
theorem StampsInOrder.edgeFinish {s : State} (h : StampsInOrder s) (hi : Inv s) (hc : s.clock.toNat < 2 ^ 29)
    (hf : s.ipc = .iFinish) : StampsInOrder (edgeFinish s) := by
  obtain ⟨hread, hbelow⟩ := h.atFinish hf
  have hstamp : stampOf (edgeWord s) = s.i.clk.t.toNat := by
    rw [edgeWord, stampOf_packEvent, Nat.mod_eq_of_lt (by omega)]
  have hclock := clock_eq_of_counters (edgeFinish_cntLo s) (edgeFinish_cntHi s)
  have hstream := stream_edgeFinish hi.occupancyBound
  split at hstream
  · refine .of_noRead (.inl rfl) ?_ ?_ <;> rw [hstream]
    · refine List.pairwise_append.mpr ⟨h.ordered, List.pairwise_singleton _ _, fun a ha b hb => ?_⟩
      rw [List.mem_singleton.mp hb, hstamp]
      exact hbelow a ha
    · intro w hw
      rw [hclock]
      rcases List.mem_append.mp hw with hw | hw
      · exact h.pastClock w hw
      · rw [List.mem_singleton.mp hw, hstamp]
        exact hread
  · rw [List.append_nil] at hstream
    exact .of_noRead (.inl rfl) (hstream ▸ h.ordered) (by rw [hstream, hclock]; exact h.pastClock)

/-! ### Every step -/

/-- R280: after a reset nothing is accepted yet. -/
theorem stream_reset (e : Env) : State.stream { State.reset with env := e } = [] := by
  simp [State.stream, State.sent, State.inFlight, State.queued, State.occupancy, State.reset]

/-- The main loop keeps the stream or a front part of it. -/
theorem MainStepped.stream_sublist {s t : State} (hi : Inv s) (h : MainStepped s t) : t.stream.Sublist s.stream := by
  rw [h.stream_eq hi]
  split
  · rw [State.stream, List.append_assoc]
    exact List.sublist_append_left _ _
  · exact List.Sublist.refl _

/-- The main loop moves while no run is in progress (R35), and writes no counter. -/
theorem StampsInOrder.mainStepped {s t : State} (h : StampsInOrder s) (hi : Inv s) (hidle : s.ipc = .iIdle)
    (hx : MainStepped s t) : StampsInOrder t := by
  obtain ⟨hipc, -, hlo, hhi, -⟩ := hx.frame
  have hclock := clock_eq_of_counters hlo hhi
  have hsub := hx.stream_sublist hi
  exact .of_noRead (.inl (hipc.trans hidle)) (h.ordered.sublist hsub)
    fun w hw => (h.pastClock w (hsub.subset hw)).trans_eq (congrArg BitVec.toNat hclock.symm)

/-- Settles O59: each kind of step keeps the order, a run's end because the clock read before it kept up with the stream. -/
theorem timestampsStayInOrder : Obligations.TimestampsStayInOrder := by
  intro s t hi h hc ht
  have hiu : Inv (afterMove s) := by rw [afterMove_eq]; exact hi.setEnv _
  have hu : StampsInOrder (afterMove s) := by rw [afterMove_eq]; exact h.setEnv _
  have hcu : (afterMove s).clock.toNat < 2 ^ 29 := by
    rwa [clock_eq_of_counters (afterMove_cntLo s) (afterMove_cntHi s)]
  have hstep := step_next ht
  generalize nextMove s = mv at hstep
  cases hstep with
  | tick => exact hu.tickCounters hcu
  | irq p => exact hu.enterIrq p
  | serve p rest => exact (hu.setEnv _).enterIrq p
  | istep t _ hx =>
    rcases irqStep_next hx with ⟨p, hp, rfl⟩ | ⟨hf, rfl⟩
    · exact hu.clkStepI hp
    · exact hu.edgeFinish hiu hcu hf
  | mstep t hidle hx => exact hu.mainStepped hiu (by simpa using hidle) hx
  | reset => exact .of_noRead (.inl rfl) (by rw [stream_reset]; exact .nil) (by rw [stream_reset]; nofun)
  | host hs => exact hu.setHost hs
  | transition p q => exact hu.setEnv _

end Sys2Proof.Machine
end

section
/-! `EV.UNPACK` and `EDGE.IRQ` (R142, R140 to R149): entry, the steps of a run, and the two outcomes of its end. -/

namespace Sys2Proof.Machine

/-! ### Unpacking -/

/-- R142: the fields of a word assemble to the word. -/
theorem packEvent_unpackEvent (w : Word) :
    packEvent (unpackEvent w).edge (unpackEvent w).channel (unpackEvent w).timestamp = w := by
  apply BitVec.eq_of_toNat_eq
  simp only [unpackEvent, packEvent_toNat, BitVec.toNat_setWidth, extract_toNat]
  omega

/-- R90: a timestamp's field is its value modulo 2^29. -/
theorem stampField_eq_ofNat (t : Word) : (t.extractLsb' 0 29).setWidth 32 = BitVec.ofNat 32 (t.toNat % 2 ^ 29) := by
  apply BitVec.eq_of_toNat_eq
  simp only [BitVec.toNat_setWidth, extract_toNat, BitVec.toNat_ofNat]
  omega

/-- Settles O2: unpacking gives the fields that packing assembled, and the timestamp's field is all of one below 2^29. -/
theorem unpackInvertsPack : Obligations.UnpackInvertsPack := by
  intro s e c t w
  have hunpack := unpackEvent_packEvent e c t
  rw [stampField_eq_ofNat] at hunpack
  refine ⟨rfl, hunpack, fun ht => ?_, packEvent_unpackEvent w⟩
  rw [hunpack, Nat.mod_eq_of_lt ht, BitVec.ofNat_toNat, BitVec.setWidth_eq]

/-! ### `EDGE.IRQ` by the state it finds -/

theorem enterIrq_of_monitored {s : State} {p : Pin} {c : Channel} (h : chanOfPin s.env.pinMap p = some c) :
    enterIrq p s = { s with i := { s.i with pin := p, ch := c }, ipc := .iR1 } := by
  simp [enterIrq, h]

theorem enterIrq_of_unmonitored {s : State} {p : Pin} (h : chanOfPin s.env.pinMap p = none) : enterIrq p s = s := by
  simp [enterIrq, h]

/-- R246: masked or disabled there is no entry. -/
theorem exec_edgeIrq_of_closed {s : State} (p : Pin) (hidle : s.ipc = .iIdle) (h : s.mayEnter ≠ true) :
    exec (.edgeIrq p) s = .refused .notEnabled := by
  simp [exec, execEdgeIrq, hidle, h]

/-- R34: for the pin of the run in progress, the run's step (log 8). -/
theorem exec_edgeIrq_own {s : State} (h : s.ipc ≠ .iIdle) : exec (.edgeIrq s.i.pin) s = irqStep s := by
  simp [exec, execEdgeIrq, h]

/-- R35: for another pin a run in progress is not re-entered (log 8). -/
theorem exec_edgeIrq_other {s : State} {p : Pin} (h : s.ipc ≠ .iIdle) (hp : p ≠ s.i.pin) :
    exec (.edgeIrq p) s = .refused .notEnabled := by
  simp [exec, execEdgeIrq, h, hp.symm]

/-- Settles O15: the entry is enabled, or `EDGE.IRQ` is refused, and the map says what an entry does. -/
theorem edgeEntryMapsThePin : Obligations.EdgeEntryMapsThePin := by
  intro s p hidle
  have henter (hsrc : s.irqSrcEn = true) (hmask : s.irqMask = false) :=
    exec_edgeIrq_enter p ((mayEnter_iff s).mpr ⟨hsrc, hmask, hidle⟩)
  refine ⟨fun hsrc hmask c hc => ?_, fun hsrc hmask hc => ?_, fun hclosed => ?_⟩
  · rw [henter hsrc hmask, enterIrq_of_monitored hc]
  · rw [henter hsrc hmask, enterIrq_of_unmonitored hc]
  · exact exec_edgeIrq_of_closed p hidle (not_mayEnter_of_closed hclosed.symm)

/-! ### The steps of a run -/

/-- R148: a step of a run's clock read brings the run nearer to its end. -/
theorem runStepsLeft_clkStepI {s : State} {p : ClkPhase} (hp : s.ipc.clkPhase = some p) :
    runStepsLeft (clkStepI p s).ipc < runStepsLeft s.ipc := by
  rw [clkStepI_ipc, Ipc.eq_ofClk hp]
  cases p with
  | r1 | r2 | r4 => exact Nat.lt_succ_self _
  | r3 =>
    simp only [clkNext]
    split <;> decide

/-- Settles O16: a run's step is one of its clock read, which `CLK.READ` takes too, or its end. -/
theorem edgeRunTakesBoundedSteps : Obligations.EdgeRunTakesBoundedSteps := by
  intro s hrun
  refine ⟨?_, fun p hp => exec_edgeIrq_other hrun hp⟩
  obtain ⟨t, ht⟩ := irqStep_isNext hrun
  refine ⟨t, (exec_edgeIrq_own hrun).trans ht, ?_⟩
  rcases irqStep_next ht with ⟨p, hp, rfl⟩ | ⟨hf, rfl⟩
  · exact ⟨runStepsLeft_clkStepI hp, by rw [clkStepI_i], fun _ => exec_clkRead .I s p hp⟩
  · exact ⟨by rw [edgeFinish_ipc, hf]; decide, by rw [edgeFinish_i], fun hne => absurd hf hne⟩

/-! ### The end of a run -/

theorem exec_edgeIrq_finish {s : State} (hf : s.ipc = .iFinish) :
    exec (.edgeIrq s.i.pin) s = .next (edgeFinish s) :=
  (exec_edgeIrq_own (by simp [hf])).trans (irqStep_of_finish hf)

/-- R160: a push with room. -/
theorem pushWord_of_room {s : State} (w : Word) (h : (s.writeIndex + 1#32 - s.readIndex).toNat ≤ 1024) :
    pushWord w s = { s with
      mem := s.mem.writeSlot (slot s.writeIndex) w
      writeIndex := s.writeIndex + 1#32
      i := { s.i with next := s.writeIndex + 1#32, r := s.readIndex, ok := true } } :=
  if_pos (decide_eq_true h)

/-- R160, R172: a push into a full queue. -/
theorem pushWord_of_full {s : State} (w : Word) (h : 1024 < (s.writeIndex + 1#32 - s.readIndex).toNat) :
    pushWord w s = { s with i := { s.i with next := s.writeIndex + 1#32, r := s.readIndex, ok := false } } :=
  if_neg (by simpa [pushFits] using h)

/-- Settles O17: sampling and packing leave the queue alone, so the push has room, and it writes one slot. -/
theorem edgeFinishStoresTheEvent : Obligations.EdgeFinishStoresTheEvent := by
  intro s hf hroom
  have hpush := pushWord_of_room (s := samplePack s) (edgeWord s) hroom
  have hmem : (edgeFinish s).mem = s.mem.writeSlot (slot s.writeIndex) (edgeWord s) := by
    rw [edgeFinish, returnIrq_mem, hpush, samplePack_mem, samplePack_writeIndex]
  refine ⟨_, exec_edgeIrq_finish hf, ?_, ?_, fun a ha => ?_, fun j => ?_⟩
  · rw [edgeFinish, hpush]
    rfl
  · rw [hmem, Memory.readSlot_writeSlot, if_pos rfl]
    rfl
  · rw [hmem, Memory.readSlot_writeSlot, if_neg ha]
  · rw [hmem, Memory.readByte_writeSlot]

/-- Settles O18: sampling and packing leave the queue alone, so the push is rejected. -/
theorem edgeFinishDropsWhenFull : Obligations.EdgeFinishDropsWhenFull := by
  intro s hf hfull
  rw [exec_edgeIrq_finish hf, edgeFinish, pushWord_of_full (s := samplePack s) (edgeWord s) hfull]
  rfl

end Sys2Proof.Machine
end

section
/-! The event queue under the block's invariant (R168, R169, R197): no step reads what is not written, and every step
keeps the stream of accepted events or appends to it, but for the halt's joint reset and a reset. -/

namespace Sys2Proof.Machine

/-- The invariant does not mention the moves still to come. -/
theorem Inv.afterMove {s : State} (h : Inv s) : Inv (afterMove s) := by
  rw [afterMove_eq]
  exact h.setEnv _

/-- Settles O55: an enabled move answers a next state, and one that is not enabled is refused. -/
theorem stepNeverFaults : Obligations.StepNeverFaults := by
  intro s h f hfault
  by_cases hen : enabled (nextMove s) s = true
  · obtain ⟨t, ht⟩ := h.afterMove.runMove_isNext ((enabled_afterMove _ s).trans hen)
    rw [step_eq_runMove hen, ht] at hfault
    cases hfault
  · rw [step_eq_refused (by simpa using hen)] at hfault
    cases hfault

theorem stream_afterMove (s : State) : (afterMove s).stream = s.stream := by
  rw [afterMove_eq]
  rfl

theorem stream_tickCounters (s : State) : (tickCounters s).stream = s.stream := by
  rw [tickCounters_eq]
  rfl

/-- R143: an entry accepts no event yet. -/
theorem stream_enterIrq (p : Pin) (s : State) : (enterIrq p s).stream = s.stream := by
  unfold enterIrq
  split <;> rfl

/-- R147, R160: of a run's steps its end alone writes the stream, and `I.ok` and `I.word` say what it appends. -/
theorem stream_irqStep {s t : State} (ho : s.occupancy.toNat ≤ 1024) (h : irqStep s = .next t) :
    t.stream = s.stream ++ if s.ipc = .iFinish ∧ t.i.ok = true then [t.i.word] else [] := by
  rcases irqStep_next h with ⟨p, hp, rfl⟩ | ⟨hf, rfl⟩
  · have hread : s.ipc ≠ .iFinish := fun hf => by simp [hf, Ipc.clkPhase] at hp
    rw [if_neg (fun hpush => hread hpush.1), List.append_nil]
    rfl
  · simp only [stream_edgeFinish ho, edgeFinish_i, hf, true_and]

/-- Settles O58: taking a move leaves the stream, and each kind of step has its own equation. -/
theorem acceptedEventsStreamInOrder : Obligations.AcceptedEventsStreamInOrder := by
  intro s t h ht
  have hu := h.afterMove
  have hstream := stream_afterMove s
  have hstep := step_next ht
  generalize nextMove s = mv at hstep
  cases hstep with
  | tick => exact (stream_tickCounters _).trans hstream
  | irq p => exact (stream_enterIrq p _).trans hstream
  | serve p rest => exact (stream_enterIrq p _).trans hstream
  | istep t _ hx => simpa only [afterMove_ipc, hstream] using stream_irqStep hu.occupancyBound hx
  | mstep t _ hx =>
    have hsent : (afterMove s).sent = s.sent := congrArg (List.flatMap wordsOf) (afterMove_wire s)
    simpa only [afterMove_mpc, hstream, hsent] using hx.stream_eq hu
  | reset => exact stream_reset _
  | host | transition => exact hstream

end Sys2Proof.Machine
end

section
/-! The operations of 42_event_queue.md: the push (R160), the critical section and the snapshot in it (R162 to R164,
R175), the drain (R167), and the joint reset of the cursors (R170). -/

namespace Sys2Proof.Machine

/-! ### The push -/

/-- R160, R174: the push runs inside a run's end. -/
theorem exec_qPush {s : State} (w : Word) (hf : s.ipc = .iFinish) : exec (.qPush w) s = .next (pushWord w s) :=
  if_pos hf

/-- Settles O19: `pushWord` with room and without, and the bounds check is one more than the occupancy. -/
theorem pushStoresOrRejects : Obligations.PushStoresOrRejects := by
  intro s w hf
  refine ⟨fun hroom => ?stored, fun hfull => ?rejected, fun ho => ?bound⟩
  case stored =>
    have hpush := pushWord_of_room (s := s) w hroom
    have hmem : (pushWord w s).mem = s.mem.writeSlot (slot s.writeIndex) w := by rw [hpush]
    refine ⟨_, exec_qPush w hf, by rw [hpush], ?_, fun a ha => ?_, readByte_pushWord w s⟩
    · rw [hmem, Memory.readSlot_writeSlot, if_pos rfl]
    · rw [hmem, Memory.readSlot_writeSlot, if_neg ha]
  case rejected => rw [exec_qPush w hf, pushWord_of_full w hfull]
  case bound =>
    rw [next_sub_readIndex s ho]
    exact Nat.succ_le_iff

/-! ### The snapshot -/

/-- R95: in its own phases an operation of several phases takes the main loop's step. -/
theorem whenMain_of_mainStepped {sel : Mpc → Bool} {s t : State} (hidle : s.ipc = .iIdle) (hsel : sel s.mpc = true)
    (h : MainStepped s t) : whenMain sel s (mainStep s) = .next t :=
  (whenMain_open hidle hsel).trans h.mainStep_eq

/-- R164: the snapshot's next step. -/
theorem exec_qSnapshot_of_mainStepped {s t : State} (hidle : s.ipc = .iIdle) (hsnap : s.mpc.inSnapshot = true)
    (h : MainStepped s t) : exec .qSnapshot s = .next t :=
  whenMain_of_mainStepped hidle hsnap h

/-- Settles O21: at `M_SNAP_ENTER` both operations are open, and both enter the critical section. -/
theorem critEnterSetsTheMask : Obligations.CritEnterSetsTheMask := by
  intro s hidle hm
  have henter : exec .critEnter s = .next (enterCritical s) := whenMain_open hidle (decide_eq_true hm)
  exact ⟨henter, (exec_qSnapshot_of_mainStepped hidle (by rw [hm]; rfl) (.snapEnter hm)).trans henter.symm⟩

/-- Settles O22: at `M_SNAP_EXIT` both operations are open, and both leave the critical section. -/
theorem critExitClearsTheMask : Obligations.CritExitClearsTheMask := by
  intro s hidle hm
  have hexit : exec .critExit s = .next (exitCritical s) := whenMain_open hidle (decide_eq_true hm)
  exact ⟨hexit, (exec_qSnapshot_of_mainStepped hidle (by rw [hm]; rfl) (.snapExit hm)).trans hexit.symm⟩

/-- Settles O23: the snapshot's second and third steps. -/
theorem snapshotReadsTheCursors : Obligations.SnapshotReadsTheCursors :=
  fun _ hidle => ⟨fun hm => exec_qSnapshot_of_mainStepped hidle (by rw [hm]; rfl) (.snapW hm),
    fun hm => exec_qSnapshot_of_mainStepped hidle (by rw [hm]; rfl) (.snapR hm)⟩

/-- R120: ticks after an operation that leaves the clock as it was, and running. -/
theorem runOps_append_ticks {i : Instr} {s u : State} (h : exec i s = .next u) (hrun : u.cntRun = true)
    (hclock : u.clock = s.clock) (n : Nat) :
    ∃ t, runOps ([i] ++ ticks n) s = some t ∧ t = { u with cntLo := t.cntLo, cntHi := t.cntHi } ∧
      t.clock = s.clock + BitVec.ofNat 32 n := by
  obtain ⟨t, hticks, hframe, htime⟩ := runOps_ticks n u hrun
  exact ⟨t, (runOps_cons_of_next h).trans hticks, hframe, by rw [htime, hclock]⟩

/-- Settles O24: ticks change nothing that the four steps read or write, and the steps do not change the clock. -/
theorem snapshotEqualsOneAtomicRead : Obligations.SnapshotEqualsOneAtomicRead := by
  intro s a b c hidle hm hrun
  have henter := exec_qSnapshot_of_mainStepped hidle (by rw [hm]; rfl) (.snapEnter hm)
  obtain ⟨s₁, h₁, hs₁, ht₁⟩ := runOps_append_ticks henter hrun rfl a
  have hidle₁ : s₁.ipc = .iIdle := by rw [hs₁]; exact hidle
  have hm₁ : s₁.mpc = .mSnapW := by rw [hs₁]; rfl
  have hwrite := exec_qSnapshot_of_mainStepped hidle₁ (by rw [hm₁]; rfl) (.snapW hm₁)
  obtain ⟨s₂, h₂, hs₂, ht₂⟩ := runOps_append_ticks hwrite (by rw [hs₁]; exact hrun) rfl b
  have hidle₂ : s₂.ipc = .iIdle := by rw [hs₂]; exact hidle₁
  have hm₂ : s₂.mpc = .mSnapR := by rw [hs₂]; rfl
  have hread := exec_qSnapshot_of_mainStepped hidle₂ (by rw [hm₂]; rfl) (.snapR hm₂)
  obtain ⟨s₃, h₃, hs₃, ht₃⟩ := runOps_append_ticks hread (by rw [hs₂, hs₁]; exact hrun) rfl c
  have hidle₃ : s₃.ipc = .iIdle := by rw [hs₃]; exact hidle₂
  have hm₃ : s₃.mpc = .mSnapExit := by rw [hs₃]; rfl
  have hexit := exec_qSnapshot_of_mainStepped hidle₃ (by rw [hm₃]; rfl) (.snapExit hm₃)
  refine ⟨exitCritical s₃, ?_, ?_, ?_⟩
  · have hops := runOps_append_of_eq (runOps_append_of_eq (runOps_append_of_eq h₁ h₂) h₃)
      (runOps_cons_of_next (is := []) hexit)
    simpa only [List.append_assoc] using hops
  · show s₃.clock = _
    rw [ht₃, ht₂, ht₁, BitVec.ofNat_add, BitVec.ofNat_add, BitVec.add_assoc, BitVec.add_assoc, BitVec.add_assoc]
  · rw [hs₃, hs₂, hs₁]
    rfl

/-! ### The drain -/

theorem exec_qDrain_of_readSlot {s : State} {w : Word} (hidle : s.ipc = .iIdle) (hm : s.mpc = .mDrain)
    (hw : s.mem.readSlot (slot s.readIndex) = some w) (hk : s.m.k.toNat < 16) :
    exec .qDrain s = .next (advanceDrain (serializeWord w s)) :=
  (whenMain_open hidle (decide_eq_true hm)).trans (drainStep_of_readSlot hw hk)

/-- R194: the bytes a serialization writes. -/
theorem readByte_serializeWord_written (w : Word) {s : State} (hk : s.m.k.toNat < 16) {b : Nat} (hb : b < 4) :
    (serializeWord w s).mem.readByte (4 * s.m.k.toNat + b) = (leBytes w)[b]? := by
  rw [readByte_serializeWord w s hk, if_pos (by omega), Nat.add_sub_cancel_left]

/-- R194: the bytes a serialization leaves. -/
theorem readByte_serializeWord_kept (w : Word) {s : State} (hk : s.m.k.toNat < 16) {j : Nat}
    (hj : j < 4 * s.m.k.toNat ∨ 4 * s.m.k.toNat + 4 ≤ j) : (serializeWord w s).mem.readByte j = s.mem.readByte j := by
  rw [readByte_serializeWord w s hk, if_neg (by omega)]

theorem readSlot_serializeWord (w : Word) (s : State) (a : Nat) :
    (serializeWord w s).mem.readSlot a = s.mem.readSlot a := by
  rw [serializeWord_mem, Memory.readSlot_writeBytes]

/-- Settles O25: the step serializes the word, which writes its four bytes, and advances. -/
theorem drainConsumesTheOldestWord : Obligations.DrainConsumesTheOldestWord := by
  intro s w hidle hm hk hw
  have hwritten {b : Nat} (hb : b < 4) := readByte_serializeWord_written w hk hb
  exact ⟨_, exec_qDrain_of_readSlot hidle hm hw hk, rfl, hwritten (b := 0) (by decide), hwritten (b := 1) (by decide),
    hwritten (b := 2) (by decide), hwritten (b := 3) (by decide), fun j => readByte_serializeWord_kept w hk,
    readSlot_serializeWord w s⟩

theorem packetBytes_concat (ws : List Word) (w : Word) : packetBytes (ws ++ [w]) = packetBytes ws ++ leBytes w := by
  simp [packetBytes]

/-- R194: a serialization lengthens the bytes that end where it writes by its word's. -/
theorem readBytes_append_serializeWord (w : Word) {s : State} (hk : s.m.k.toNat < 16) {j n : Nat}
    (hend : j + n = 4 * s.m.k.toNat) {bytes : List Byte} (hb : s.mem.readBytes j n = some bytes) :
    (serializeWord w s).mem.readBytes j (n + 4) = some (bytes ++ leBytes w) := by
  refine Memory.readBytes_add _ _ _ _ _ _ ?_ (Memory.readBytes_of_getElem? _ (leBytes w) _ fun x hx => ?_)
  · rw [← hb]
    exact Memory.readBytes_congr _ _ _ _ fun x _ hx => readByte_serializeWord_kept w hk (.inl (by omega))
  · rw [hend]
    exact readByte_serializeWord_written w hk hx

/-- R167: the words of the `n` oldest slots, oldest first. -/
def State.oldest (s : State) (n : Nat) : List Word :=
  (List.range n).map fun j => (s.mem.readSlot (s.slotAt j)).getD 0#32

theorem oldest_succ {s : State} {n : Nat} {w : Word} (hw : s.mem.readSlot (s.slotAt n) = some w) :
    s.oldest (n + 1) = s.oldest n ++ [w] := by
  simp [State.oldest, List.range_succ, hw]

/-- `t` is where `n` drain steps from `s` lead (R167, R194). -/
structure Drained (s : State) (n : Nat) (t : State) : Prop where
  idle : t.ipc = .iIdle
  count : t.m.n = s.m.n
  position : t.m.k.toNat = s.m.k.toNat + n
  phase : t.mpc = if s.m.k.toNat + n < s.m.n.toNat then .mDrain else .mSubmit
  cursor : t.readIndex = s.readIndex + BitVec.ofNat 32 n
  length : t.pktLen = s.pktLen + 4 * n
  bytes : t.mem.readBytes (4 * s.m.k.toNat) (4 * n) = some (packetBytes (s.oldest n))
  slots : ∀ a, t.mem.readSlot a = s.mem.readSlot a

theorem Drained.zero {s : State} (hidle : s.ipc = .iIdle) (hm : s.mpc = .mDrain) (hk : s.m.k.toNat < s.m.n.toNat) :
    Drained s 0 s where
  idle := hidle
  count := rfl
  position := rfl
  phase := by rw [hm, Nat.add_zero, if_pos hk]
  cursor := (BitVec.add_zero _).symm
  length := rfl
  bytes := rfl
  slots _ := rfl

/-- One drain step more: it takes the word of the slot after those drained (R61, R167), and its bytes go behind
theirs. -/
theorem Drained.step {s t : State} {n : Nat} (h : Drained s n t) {w : Word} (hw : s.mem.readSlot (s.slotAt n) = some w)
    (hk : s.m.k.toNat + n < s.m.n.toNat) (hn : s.m.n.toNat ≤ 16) :
    ∃ u, exec .qDrain t = .next u ∧ Drained s (n + 1) u := by
  have hroom : t.m.k.toNat < 16 := by rw [h.position]; omega
  have hword : t.mem.readSlot (slot t.readIndex) = some w := by rw [h.slots, h.cursor]; exact hw
  have hnext : (t.m.k + 1#5).toNat = s.m.k.toNat + (n + 1) := by
    rw [BitVec.toNat_add, h.position, BitVec.toNat_ofNat]
    omega
  refine ⟨_, exec_qDrain_of_readSlot h.idle (h.phase.trans (if_pos hk)) hword hroom, h.idle, h.count, hnext, ?_, ?_, ?_,
    ?_, fun a => (readSlot_serializeWord w t a).trans (h.slots a)⟩
  · simp only [advanceDrain_mpc, serializeWord_m, BitVec.lt_def, hnext, h.count]
  · rw [advanceDrain_readIndex, serializeWord_readIndex, h.cursor, BitVec.ofNat_add, BitVec.add_assoc]
  · rw [advanceDrain_pktLen, serializeWord_pktLen, h.length, Nat.mul_succ, Nat.add_assoc]
  · rw [oldest_succ hw, packetBytes_concat]
    exact readBytes_append_serializeWord w hroom (n := 4 * n) (by rw [h.position]; omega) h.bytes

/-- R167: `n` drain steps in a row, where the `n` oldest slots are written and the count allows them. -/
theorem runOps_replicate_qDrain {s : State} (hidle : s.ipc = .iIdle) (hm : s.mpc = .mDrain)
    (hk : s.m.k.toNat < s.m.n.toNat) (hn : s.m.n.toNat ≤ 16) :
    ∀ n, s.m.k.toNat + n ≤ s.m.n.toNat → (∀ j, j < n → (s.mem.readSlot (s.slotAt j)).isSome = true) →
      ∃ t, runOps (List.replicate n .qDrain) s = some t ∧ Drained s n t := by
  intro n
  induction n with
  | zero => exact fun _ _ => ⟨s, rfl, .zero hidle hm hk⟩
  | succ n ih =>
    intro hle hstored
    obtain ⟨t, hops, ht⟩ := ih (by omega) fun j hj => hstored j (by omega)
    obtain ⟨w, hw⟩ := Option.isSome_iff_exists.mp (hstored n (by omega))
    obtain ⟨u, hexec, hu⟩ := ht.step hw (by omega) hn
    refine ⟨u, ?_, hu⟩
    rw [List.replicate_succ']
    exact runOps_append_of_eq hops (runOps_cons_of_next hexec)

/-- R61: the slot after the last is the first, also where the cursor wraps. -/
theorem slot_succ (i : Word) : slot (i + 1#32) = (slot i + 1) % 1024 := by
  rw [slot_eq_mod, slot_eq_mod, BitVec.toNat_add, BitVec.toNat_ofNat]
  omega

/-- Settles O26: `Drained` says where the steps lead, and the phase is `M_SUBMIT` when it is no longer `M_DRAIN`. -/
theorem drainsReadInQueueOrder : Obligations.DrainsReadInQueueOrder := by
  refine ⟨slot_succ, fun n s hidle hm hpos hle hn hstored => ?_⟩
  obtain ⟨t, hops, h⟩ := runOps_replicate_qDrain hidle hm (by omega) hn n hle hstored
  refine ⟨t, hops, h.cursor, h.position, h.length, ?_, h.bytes, h.slots⟩
  rw [h.phase]
  split
  · exact iff_of_false nofun (by omega)
  · exact iff_of_true rfl (by omega)

/-! ### The joint reset -/

/-- Settles O28: at `M_HALT_Q` both operations are open, and both reset the cursors. -/
theorem cursorResetIsJoint : Obligations.CursorResetIsJoint := by
  intro s hidle hm
  have hreset : exec .qReset s = .next (resetCursors s) := whenMain_open hidle (decide_eq_true hm)
  have hhalt : exec .guardHalt s = .next (resetCursors s) := whenMain_of_mainStepped hidle (by rw [hm]; rfl) (.haltQ hm)
  exact ⟨hreset, hhalt.trans hreset.symm⟩

end Sys2Proof.Machine
end

section
/-! The operations of 43_batch_transmitter.md: the decision (R191, R192), the serialization (R194), and the submission with
its retries (R196, R242). -/

namespace Sys2Proof.Machine

/-! ### The decision -/

/-- R191: the count fits its five bits. -/
theorem decideFlush_n_toNat (s : State) : (decideFlush s).m.n.toNat = toSend s.m.avail s.env.wall s.lastSent := by
  have hcap := toSend_le s.m.avail s.env.wall s.lastSent
  rw [decideFlush_m, BitVec.toNat_ofNat]
  exact Nat.mod_eq_of_lt (by omega)

/-- R191: either trigger sends what there is, a packet at most. -/
theorem toSend_of_trigger {avail now lastSent : Word} (h : 16 ≤ avail.toNat ∨ 2 ≤ (now - lastSent).toNat) :
    toSend avail now lastSent = min 16 avail.toNat := by
  rw [toSend_eq, if_pos h]

/-- R191: without a trigger nothing is sent. -/
theorem toSend_of_noTrigger {avail now lastSent : Word} (havail : avail.toNat < 16) (htime : (now - lastSent).toNat < 2) :
    toSend avail now lastSent = 0 := by
  rw [toSend_eq, if_neg (not_or.mpr ⟨Nat.not_le.mpr havail, Nat.not_le.mpr htime⟩)]

/-- Settles O29: the decision is `decideFlush`, whose count is `toSend`. -/
theorem decideFollowsTheDualTrigger : Obligations.DecideFollowsTheDualTrigger := by
  intro s hidle hm
  refine ⟨decideFlush s, whenMain_open hidle (decide_eq_true hm), rfl, fun htrigger => ?_, fun havail htime => ?_, ?_⟩
  · rw [decideFlush_n_toNat, toSend_of_trigger htrigger]
  · rw [decideFlush_n_toNat, toSend_of_noTrigger havail htime]
  · rw [decideFlush_n_toNat, decideFlush_mpc]
    simp only [Nat.pos_iff_ne_zero, ite_not]

/-! ### The serialization -/

theorem exec_txSerialize_of_room {s : State} (w : Word) (hidle : s.ipc = .iIdle) (hm : s.mpc = .mDrain)
    (hk : s.m.k.toNat < 16) : exec (.txSerialize w) s = .next (serializeWord w s) :=
  (whenMain_open hidle (decide_eq_true hm)).trans (if_pos ((packetRoom_iff s).mpr hk))

/-- R60: past the last position `PKT` has no bytes. -/
theorem exec_txSerialize_of_noRoom {s : State} (w : Word) (hidle : s.ipc = .iIdle) (hm : s.mpc = .mDrain)
    (hk : 16 ≤ s.m.k.toNat) : exec (.txSerialize w) s = .fault (.pktRange (4 * s.m.k.toNat)) :=
  (whenMain_open hidle (decide_eq_true hm)).trans
    (if_neg fun hroom => Nat.not_lt.mpr hk ((packetRoom_iff s).mp hroom))

/-- Settles O27: with room the step is `serializeWord`, which writes the word's four bytes; without it faults. -/
theorem serializeWritesFourBytes : Obligations.SerializeWritesFourBytes := by
  intro s w hidle hm
  refine ⟨fun hk => ?_, exec_txSerialize_of_noRoom w hidle hm⟩
  have hwritten {b : Nat} (hb : b < 4) := readByte_serializeWord_written w hk hb
  exact ⟨_, exec_txSerialize_of_room w hidle hm hk, rfl, hwritten (b := 0) (by decide), hwritten (b := 1) (by decide),
    hwritten (b := 2) (by decide), hwritten (b := 3) (by decide), fun j => readByte_serializeWord_kept w hk,
    readSlot_serializeWord w s⟩

/-! ### The submission -/

theorem exec_txSubmit_of_packet {s : State} {bytes : List Byte} (hidle : s.ipc = .iIdle) (hm : s.mpc = .mSubmit)
    (hb : s.packet = some bytes) : exec .txSubmit s = .next (answerSend bytes s) :=
  (whenMain_open hidle (decide_eq_true hm)).trans (submitStep_of_packet hb)

/-- R196, R199: an accepted packet is on `WIRE`, and the decision's sample is the time of the last send. -/
theorem answerSend_of_accepted {s : State} (bytes : List Byte) (h : s.env.answer = .accepted) :
    answerSend bytes s = { s with
      wire := s.wire ++ [bytes], lastSent := s.m.now, mpc := .mGR1, env := s.env.afterAnswer } := by
  rw [answerSend, h]

/-- R196: a busy answer leaves the phase at `M_SUBMIT`, and all else but the draw. -/
theorem answerSend_of_busy {s : State} (bytes : List Byte) (hm : s.mpc = .mSubmit) (h : s.env.answer = .busy) :
    answerSend bytes s = { s with env := s.env.afterAnswer } := by
  rw [answerSend, h, ← hm]

/-- Settles O30: the step is `answerSend`, by the answer drawn. -/
theorem submitSendsOrRetries : Obligations.SubmitSendsOrRetries := by
  intro s bytes hidle hm hb
  have hexec := exec_txSubmit_of_packet hidle hm hb
  exact ⟨fun h => hexec.trans (congrArg _ (answerSend_of_accepted bytes h)),
    fun h => hexec.trans (congrArg _ (answerSend_of_busy bytes hm h))⟩

theorem answer_of_cons {e : Env} {a : Answer} {rest : List Answer} (h : e.answers = a :: rest) : e.answer = a := by
  rw [Env.answer, h]

theorem afterAnswer_of_cons {e : Env} {a : Answer} {rest : List Answer} (h : e.answers = a :: rest) :
    e.afterAnswer = { e with answers := rest } := by
  rw [Env.afterAnswer, h]

/-- Settles O31, by induction on the busy answers to come: a busy answer draws the first of them, and the state it leaves
is at `M_SUBMIT` with the same packet and one busy answer fewer. -/
theorem busyTransportStallsTheMainLoop : Obligations.BusyTransportStallsTheMainLoop := by
  intro n
  induction n with
  | zero =>
    intro s bytes later _ _ _ hanswers
    obtain rfl : s.env.answers = later := hanswers
    rfl
  | succ n ih =>
    intro s bytes later hidle hm hb hanswers
    have hcons : s.env.answers = .busy :: (List.replicate n .busy ++ later) := hanswers
    have hbusy : exec .txSubmit s = .next { s with env := s.env.afterAnswer } :=
      (submitSendsOrRetries s bytes hidle hm hb).2 (answer_of_cons hcons)
    rw [List.replicate_succ, runOps_cons_of_next hbusy, afterAnswer_of_cons hcons]
    exact ih _ bytes later hidle hm hb rfl

end Sys2Proof.Machine
end

section
/-! The Range Guard (44_range_guard.md): the range test (R221), the halt's steps (R222 to R225), the guard's pass once
halted (R228), and that nothing but a reset ends the halt (R229, R232, R296). -/

namespace Sys2Proof.Machine

/-! ### The halted state -/

/-- R32: what halted means. -/
theorem halted_iff (s : State) :
    s.halted = true ↔ s.cntRun = false ∧ s.irqSrcEn = false ∧ s.writeIndex = 0#32 ∧ s.readIndex = 0#32 := by
  simp [State.halted, and_assoc]

/-- R71, R224: with the sources disabled no run is in progress. -/
theorem Inv.idle_of_disabled {s : State} (h : Inv s) (hsrc : s.irqSrcEn = false) : s.ipc = .iIdle := by
  by_contra hrun
  obtain ⟨-, hen⟩ := h.runUnmasked hrun
  exact absurd (hsrc.symm.trans hen) (by decide)

/-- R228: halted, the main loop is outside the packet's phases, so it sends and drains nothing, and the halt, made again,
writes the control bits and the cursors to what they are. -/
theorem MainStepped.staysHalted {s t : State} (h : MainStepped s t) (hinv : Inv s) (hs : s.halted = true) :
    t.halted = true ∧ t.ipc = .iIdle ∧ t.wire = s.wire ∧ t.lastSent = s.lastSent ∧ t.cntLo = s.cntLo ∧
      t.cntHi = s.cntHi ∧ t.mem.qmem = s.mem.qmem := by
  obtain ⟨hrun, hsrc, hw, hr⟩ := (halted_iff s).mp hs
  obtain ⟨-, hdrain, hsubmit, -⟩ := hinv.disabledHalts hsrc
  obtain ⟨hipc, -, hlo, hhi, -, hqmem⟩ := h.frame
  obtain ⟨hrun', hsrc'⟩ := h.controlBits_cases
  obtain ⟨hw', hr'⟩ := h.cursor_cases
  obtain ⟨hwire, hsent⟩ := h.wire_cases.resolve_right fun hsend => hsubmit hsend.1
  refine ⟨(halted_iff t).mpr ⟨?_, ?_, ?_, ?_⟩, hipc.trans (hinv.idle_of_disabled hsrc), hwire, hsent, hlo, hhi, hqmem⟩
  · exact hrun'.elim (·.trans hrun) (·.2)
  · exact hsrc'.elim (·.trans hsrc) (·.2)
  · exact hw'.elim (·.trans hw) (·.2.1)
  · exact hr'.elim (·.trans hr) (·.elim (fun hd => absurd hd.1 hdrain) (·.2))

/-- Settles O57: a halted clock does not tick and disabled sources start no run, so the step is the main loop's, or it
writes nothing of the block. -/
theorem haltIsIrreversible : Obligations.HaltIsIrreversible := by
  intro s t hinv hs ht hreset
  obtain ⟨hrun, hsrc, -⟩ := (halted_iff s).mp hs
  have hidle := hinv.idle_of_disabled hsrc
  have hclosed := not_mayEnter_of_closed (.inr hsrc)
  have hmoved : (afterMove s).halted = true := by rw [afterMove_eq]; exact hs
  have hstep := step_next ht
  generalize nextMove s = mv at hstep hreset
  cases hstep with
  | tick htick => exact absurd (hrun.symm.trans htick) (by decide)
  | irq p he => exact absurd he hclosed
  | serve p rest _ he => exact absurd he hclosed
  | istep t hbusy => exact absurd hidle hbusy
  | reset => exact absurd rfl hreset
  | mstep t _ hx => simpa using hx.staysHalted hinv.afterMove hmoved
  | host | transition => exact ⟨hmoved, by simpa using hidle, by simp⟩

/-! ### The steps of the guard -/

/-- R220: in its own phases the guard takes the main loop's step. -/
theorem exec_guardStep_of_mainStepped {s t : State} (hidle : s.ipc = .iIdle) (hguard : s.mpc.inGuard = true)
    (h : MainStepped s t) : exec .guardStep s = .next t :=
  whenMain_of_mainStepped hidle hguard h

/-- R222: in its own phases the halt takes the main loop's step. -/
theorem exec_guardHalt_of_mainStepped {s t : State} (hidle : s.ipc = .iIdle) (hhalt : s.mpc.inHalt = true)
    (h : MainStepped s t) : exec .guardHalt s = .next t :=
  whenMain_of_mainStepped hidle hhalt h

theorem rangeTest_of_below {s : State} (h : s.m.clk.t.toNat < 0x20000000) : rangeTest s = { s with mpc := .mIdle } := by
  have hreached : rangeReached s.m.clk.t = false := decide_eq_false (Nat.not_le.mpr h)
  rw [rangeTest, hreached]
  rfl

theorem rangeTest_of_reached {s : State} (h : 0x20000000 ≤ s.m.clk.t.toNat) :
    rangeTest s = { s with mpc := .mHaltCnt } := by
  have hreached : rangeReached s.m.clk.t = true := decide_eq_true h
  rw [rangeTest, hreached]
  rfl

/-- Settles O32: the step is `rangeTest`, on either side of the limit. -/
theorem rangeTestComparesWithTheLimit : Obligations.RangeTestComparesWithTheLimit := by
  intro s hidle hm
  have hexec := exec_guardStep_of_mainStepped hidle (by rw [hm]; rfl) (.tested hm)
  exact ⟨fun h => hexec.trans (congrArg _ (rangeTest_of_below h)),
    fun h => hexec.trans (congrArg _ (rangeTest_of_reached h))⟩

/-- Settles O33: the halt's first two steps are `haltCounters` and `haltInterrupts`. -/
theorem haltStopsThenDisables : Obligations.HaltStopsThenDisables :=
  fun _ hidle => ⟨fun hm => exec_guardHalt_of_mainStepped hidle (by rw [hm]; rfl) (.haltCnt hm),
    fun hm => exec_guardHalt_of_mainStepped hidle (by rw [hm]; rfl) (.haltIrq hm)⟩

/-! ### A pass of the guard -/

theorem runOps_guardStep_cons {is : List Instr} {s t : State} (hidle : s.ipc = .iIdle) (hguard : s.mpc.inGuard = true)
    (h : MainStepped s t) : runOps (.guardStep :: is) s = runOps is t :=
  runOps_cons_of_next (exec_guardStep_of_mainStepped hidle hguard h)

/-- The state after the guard's clock read with no tick inside it (R123): branch A, and the result is the clock. -/
def State.clockRead (s : State) : State :=
  { s with m := { s.m with clk := { h1 := s.cntHi, l := s.cntLo, h2 := s.cntHi, t := s.clock } }, mpc := .mGTest }

theorem clkSteps_eq_clockRead (s : State) : clkStepM .r3 (clkStepM .r2 (clkStepM .r1 s)) = s.clockRead := by
  simp [clkStepM, clkStep, clkNext, sameEpoch, Mpc.ofClk, State.clockRead, State.clock]

/-- R123, R220: three steps of the guard read the clock. -/
theorem runOps_guardStep_read {s : State} (hidle : s.ipc = .iIdle) (hm : s.mpc = .mGR1) :
    runOps [.guardStep, .guardStep, .guardStep] s = some s.clockRead :=
  calc runOps [.guardStep, .guardStep, .guardStep] s
    _ = runOps [.guardStep, .guardStep] (clkStepM .r1 s) :=
      runOps_guardStep_cons hidle (by rw [hm]; rfl) (.clock .r1 (by rw [hm]; rfl))
    _ = runOps [.guardStep] (clkStepM .r2 (clkStepM .r1 s)) := runOps_guardStep_cons hidle rfl (.clock .r2 rfl)
    _ = runOps [] (clkStepM .r3 (clkStepM .r2 (clkStepM .r1 s))) := runOps_guardStep_cons hidle rfl (.clock .r3 rfl)
    _ = some s.clockRead := congrArg some (clkSteps_eq_clockRead s)

/-- R228: in the halted state, with nothing pending, the halt's three steps write what is there already. -/
theorem haltSteps_of_halted {s : State} (hs : s.halted = true) (hq : s.env.pendq = []) :
    resetCursors (haltInterrupts (haltCounters s)) = { s with mpc := .mIdle } := by
  obtain ⟨hrun, hsrc, hw, hr⟩ := (halted_iff s).mp hs
  calc resetCursors (haltInterrupts (haltCounters s))
    _ = { s with
          cntRun := s.cntRun, irqSrcEn := s.irqSrcEn, writeIndex := s.writeIndex, readIndex := s.readIndex
          env := { s.env with pendq := s.env.pendq }, mpc := .mIdle } := by rw [hrun, hsrc, hw, hr, hq]; rfl

/-- R228: in the halted state, with nothing pending, the halt changes the phase only. -/
theorem runOps_guardStep_halt {s : State} (hidle : s.ipc = .iIdle) (hm : s.mpc = .mHaltCnt) (hs : s.halted = true)
    (hq : s.env.pendq = []) :
    runOps [.guardStep, .guardStep, .guardStep] s = some { s with mpc := .mIdle } :=
  calc runOps [.guardStep, .guardStep, .guardStep] s
    _ = runOps [.guardStep, .guardStep] (haltCounters s) := runOps_guardStep_cons hidle (by rw [hm]; rfl) (.haltCnt hm)
    _ = runOps [.guardStep] (haltInterrupts (haltCounters s)) := runOps_guardStep_cons hidle rfl (.haltIrq rfl)
    _ = runOps [] (resetCursors (haltInterrupts (haltCounters s))) := runOps_guardStep_cons hidle rfl (.haltQ rfl)
    _ = some { s with mpc := .mIdle } := congrArg some (haltSteps_of_halted hs hq)

/-- Settles O36: the guard reads the stopped clock, finds it at the limit, and halts again. -/
theorem guardAfterHaltChangesNothing : Obligations.GuardAfterHaltChangesNothing := by
  intro s hidle hm hs hlimit hq
  have htest : runOps [.guardStep] s.clockRead = some { s.clockRead with mpc := .mHaltCnt } :=
    calc runOps [.guardStep] s.clockRead
      _ = runOps [] (rangeTest s.clockRead) := runOps_guardStep_cons hidle rfl (.tested rfl)
      _ = some { s.clockRead with mpc := .mHaltCnt } := congrArg some (rangeTest_of_reached hlimit)
  have hhalt := runOps_guardStep_halt (s := { s.clockRead with mpc := .mHaltCnt }) hidle rfl hs hq
  exact ⟨_, runOps_append_of_eq (runOps_append_of_eq (runOps_guardStep_read hidle hm) htest) hhalt, rfl, rfl⟩

end Sys2Proof.Machine
end

section
/-! What stands outside the block: the receiver of `WIRE`, which can do nothing to it (R92, R94, R266), and the reference
interrupt source, which names the pins to enter (R249). -/

namespace Sys2Proof.Machine

/-! ### Forgetting the receiver before a step of the block is forgetting it after the step -/

@[simp] theorem forgetHost_cntLo (s : State) : s.forgetHost.cntLo = s.cntLo := rfl
@[simp] theorem forgetHost_mem (s : State) : s.forgetHost.mem = s.mem := rfl
@[simp] theorem forgetHost_writeIndex (s : State) : s.forgetHost.writeIndex = s.writeIndex := rfl
@[simp] theorem forgetHost_readIndex (s : State) : s.forgetHost.readIndex = s.readIndex := rfl
@[simp] theorem forgetHost_mpc (s : State) : s.forgetHost.mpc = s.mpc := rfl
@[simp] theorem forgetHost_ipc (s : State) : s.forgetHost.ipc = s.ipc := rfl
@[simp] theorem forgetHost_env (s : State) : s.forgetHost.env = s.env := rfl
@[simp] theorem forgetHost_packet (s : State) : s.forgetHost.packet = s.packet := rfl
@[simp] theorem forgetHost_packetRoom (s : State) : s.forgetHost.packetRoom = s.packetRoom := rfl
@[simp] theorem forgetHost_mainAt (s : State) (sel : Mpc → Bool) : s.forgetHost.mainAt sel = s.mainAt sel := rfl
@[simp] theorem forgetHost_clkPhase (s : State) (x : Ctx) : s.forgetHost.clkPhase x = s.clkPhase x := by
  cases x <;> rfl

theorem viewResult_ite (f : State → State) (c : Prop) [Decidable c] (a b : Result) :
    viewResult f (if c then a else b) = if c then viewResult f a else viewResult f b :=
  apply_ite (viewResult f) c a b

theorem tickCounters_forgetHost (s : State) : tickCounters s.forgetHost = (tickCounters s).forgetHost := by
  unfold tickCounters
  rw [forgetHost_cntLo]
  split <;> rfl

theorem enterIrq_forgetHost (p : Pin) (s : State) : enterIrq p s.forgetHost = (enterIrq p s).forgetHost := by
  cases h : chanOfPin s.env.pinMap p with
  | none => rw [enterIrq_of_unmonitored h, enterIrq_of_unmonitored (s := s.forgetHost) h]
  | some c => rw [enterIrq_of_monitored h, enterIrq_of_monitored (s := s.forgetHost) h]; rfl

theorem pushWord_forgetHost (w : Word) (s : State) : pushWord w s.forgetHost = (pushWord w s).forgetHost := by
  unfold pushWord
  rw [forgetHost_writeIndex, forgetHost_readIndex]
  split <;> rfl

theorem edgeFinish_forgetHost (s : State) : edgeFinish s.forgetHost = (edgeFinish s).forgetHost :=
  congrArg returnIrq (pushWord_forgetHost (edgeWord s) (samplePack s))

theorem irqStep_forgetHost (s : State) : irqStep s.forgetHost = viewResult State.forgetHost (irqStep s) := by
  unfold irqStep
  rw [forgetHost_ipc]
  cases s.ipc with
  | iIdle | iR1 | iR2 | iR3 | iR4 => rfl
  | iFinish => exact congrArg Host.Outcome.next (edgeFinish_forgetHost s)

theorem drainStep_forgetHost (s : State) : drainStep s.forgetHost = viewResult State.forgetHost (drainStep s) := by
  unfold drainStep
  rw [forgetHost_mem, forgetHost_readIndex, forgetHost_packetRoom]
  split
  · rfl
  · split <;> rfl

theorem answerSend_forgetHost (bytes : List Byte) (s : State) :
    answerSend bytes s.forgetHost = (answerSend bytes s).forgetHost := by
  unfold answerSend
  rw [forgetHost_env]
  split <;> rfl

theorem submitStep_forgetHost (s : State) : submitStep s.forgetHost = viewResult State.forgetHost (submitStep s) := by
  unfold submitStep
  rw [forgetHost_packet]
  cases s.packet with
  | none => rfl
  | some bytes => exact congrArg Host.Outcome.next (answerSend_forgetHost bytes s)

theorem mainStep_forgetHost (s : State) : mainStep s.forgetHost = viewResult State.forgetHost (mainStep s) := by
  unfold mainStep
  rw [forgetHost_mpc]
  cases s.mpc with
  | mDrain => exact drainStep_forgetHost s
  | mSubmit => exact submitStep_forgetHost s
  | _ => rfl

/-- R35, R95: whether the main loop's gate is open does not depend on the receiver. -/
theorem whenMain_forgetHost {sel : Mpc → Bool} {s : State} {act act' : Result}
    (h : act' = viewResult State.forgetHost act) :
    whenMain sel s.forgetHost act' = viewResult State.forgetHost (whenMain sel s act) := by
  unfold whenMain
  rw [h, forgetHost_mainAt, viewResult_ite]
  rfl

theorem execClkRead_forgetHost (x : Ctx) (s : State) :
    execClkRead x s.forgetHost = viewResult State.forgetHost (execClkRead x s) := by
  unfold execClkRead
  rw [forgetHost_clkPhase]
  split <;> rfl

theorem execEdgeIrq_forgetHost (p : Pin) (s : State) :
    execEdgeIrq p s.forgetHost = viewResult State.forgetHost (execEdgeIrq p s) := by
  unfold execEdgeIrq
  rw [irqStep_forgetHost, enterIrq_forgetHost, viewResult_ite, viewResult_ite, viewResult_ite]
  rfl

/-! ### The receiver's operations, and the block's -/

/-- The formats and `EV.UNPACK`, which the receiver performs (log 4). -/
def IsReceiverOp (i : Instr) : Prop :=
  (encode i).isSome = true ∨ ∃ w, i = .evUnpack w

/-- R92, R94, R266: the receiver's operations write the receiver's state only, or are refused in every state. -/
theorem exec_of_isReceiverOp {i : Instr} (h : IsReceiverOp i) :
    (∃ r, ∀ s, exec i s = .refused r) ∨ ∃ f : HostSide → HostSide, ∀ s, exec i s = .next { s with host := f s.host } := by
  obtain hsome | ⟨w, rfl⟩ := h
  · obtain ⟨bytes, hbytes⟩ := Option.isSome_iff_exists.mp hsome
    obtain ⟨ws, rfl⟩ | ⟨k, t, hk, rfl⟩ := encode_cases hbytes
    · cases hwf : packetWf ws with
      | true => exact .inr ⟨fun h => { h with inbox := h.inbox ++ ws }, fun s => by simp [exec, execPkt, hwf]⟩
      | false => exact .inl ⟨.notAPacket, fun s => by simp [exec, execPkt, hwf]⟩
    · exact .inr ⟨fun h => { h with events := h.events ++ [_] }, fun s => exec_rowOfTag k t s hk⟩
  · exact .inr ⟨fun h => { h with events := h.events ++ [unpackEvent w] }, fun _ => rfl⟩

/-- R266: no operation of the block reads the receiver's state. -/
theorem exec_forgetHost {i : Instr} (h : ¬ IsReceiverOp i) (s : State) :
    exec i s.forgetHost = viewResult State.forgetHost (exec i s) := by
  cases i with
  | evwFall0 | evwFall1 | evwFall2 | evwFall3 | evwRise0 | evwRise1 | evwRise2 | evwRise3 | pkt =>
    exact absurd (.inl rfl) h
  | evUnpack w => exact absurd (.inr ⟨w, rfl⟩) h
  | cntTick =>
    simp only [exec, execCntTick, tickCounters_forgetHost, viewResult_ite]
    rfl
  | clkRead x => exact execClkRead_forgetHost x s
  | edgeIrq p => exact execEdgeIrq_forgetHost p s
  | qPush w =>
    simp only [exec, execQPush, pushWord_forgetHost, viewResult_ite]
    rfl
  | evPack | sysReset => rfl
  | critEnter | critExit | qReset | txDecide => exact whenMain_forgetHost rfl
  | txSerialize w => exact whenMain_forgetHost (by rw [forgetHost_packetRoom, viewResult_ite]; rfl)
  | qDrain => exact whenMain_forgetHost (drainStep_forgetHost s)
  | txSubmit => exact whenMain_forgetHost (submitStep_forgetHost s)
  | qSnapshot | txStep | guardStep | guardHalt | mainIter => exact whenMain_forgetHost (mainStep_forgetHost s)

/-- Settles O51: the receiver's operations write its state only, and the block's do not read it. -/
theorem receiverHasNoMoveOnTheBlock : Obligations.ReceiverHasNoMoveOnTheBlock := by
  intro i s h
  by_cases hi : IsReceiverOp i
  · obtain ⟨r, hr⟩ | ⟨f, hf⟩ := exec_of_isReceiverOp hi
    · exact ⟨by rw [hr, hr], fun _ t ht => by rw [hr] at ht; cases ht⟩
    · exact ⟨by rw [hf, hf]; rfl, fun _ t ht => by rw [hf] at ht; cases ht; rfl⟩
  · exact ⟨(exec_forgetHost hi { s with host := h }).symm.trans (exec_forgetHost hi s), fun hrec => absurd hrec hi⟩

/-! ### The reference interrupt source -/

/-- Settles O42: a listed transition runs outside the block, and a listed service runs the entry of the head. -/
theorem referenceSourceQueuesTransitions : Obligations.ReferenceSourceQueuesTransitions := by
  intro s rest p c
  refine ⟨fun hmoves hpin => ?transition, fun later hmoves hq henter => ?serve⟩
  case transition =>
    have hen : enabled (nextMove s) s = true := by
      rw [nextMove_of_listed hmoves]; exact Option.isSome_iff_exists.mpr ⟨c, hpin⟩
    rw [step_eq_runMove hen, nextMove_of_listed hmoves, afterMove_of_listed hmoves, runMove_transition]
  case serve =>
    have hen : enabled (nextMove s) s = true := by
      rw [nextMove_of_listed hmoves]; simp [enabled, hq, henter]
    refine step_eq_exec hen ?_
    rw [nextMove_of_listed hmoves, afterMove_of_listed hmoves]
    simp [operationOf, hq]

end Sys2Proof.Machine
end

section
/-! Reset and the discipline (R280, R40; R35, R95, R297, U20): what `SYS.RESET` leaves, and which operations are no steps of
the machine. -/

namespace Sys2Proof.Machine

/-! ### Operations refused outside their context or phase -/

/-- R174, R297: the producer's step alone pushes. -/
theorem exec_qPush_of_not_finish {s : State} (w : Word) (hf : s.ipc ≠ .iFinish) :
    exec (.qPush w) s = .refused .notEnabled :=
  if_neg hf

/-- R95: the gate of a single phase is closed in every other phase. -/
theorem whenMain_of_other_phase {p : Mpc} {s : State} {act : Result} (hm : s.mpc ≠ p) :
    whenMain (fun q => decide (q = p)) s act = .refused .notEnabled :=
  whenMain_closed (decide_eq_false hm)

/-- R35 (c): during a run the main loop's operations are all behind a closed gate, and its clock read is at no step. -/
theorem exec_mainOp_of_run {i : Instr} {s : State} (hrun : s.ipc ≠ .iIdle)
    (hi : i ∈ [Instr.critEnter, .critExit, .qSnapshot, .qDrain, .qReset, .txDecide, .txSubmit, .txStep,
      .guardStep, .guardHalt, .mainIter, .clkRead .M]) : exec i s = .refused .notEnabled := by
  cases i with
  | critEnter | critExit | qSnapshot | qDrain | qReset | txDecide | txSubmit | txStep | guardStep | guardHalt
  | mainIter => exact whenMain_busy hrun
  | clkRead x =>
    cases x with
    | M => exact exec_clkRead_of_none (clkPhase_main_eq_none (.inl hrun))
    | I => simp at hi
  | _ => simp at hi

/-- R194, R95: a serialization is a part of the main loop's drain step. -/
theorem exec_txSerialize_of_not_draining {s : State} (w : Word) (h : s.ipc ≠ .iIdle ∨ s.mpc ≠ .mDrain) :
    exec (.txSerialize w) s = .refused .notEnabled :=
  h.elim whenMain_busy whenMain_of_other_phase

/-! ### What `SYS.RESET` answers -/

/-- R280, R249: `SYS.RESET` answers the reset state, in the environment of the state before it with `PENDQ` emptied. -/
theorem exec_sysReset (s : State) :
    exec .sysReset s = .next { State.reset with env := { s.env with pendq := [] } } :=
  rfl

/-! ### The obligations -/

/-- Settles O44: a push is gated by the producer's phase, and the main loop's operations by the run and by their phases. -/
theorem disciplineIsEnforced : Obligations.DisciplineIsEnforced := by
  intro s
  exact ⟨fun hf w => exec_qPush_of_not_finish w hf, fun hrun _ hi => exec_mainOp_of_run hrun hi, whenMain_of_other_phase,
    whenMain_of_other_phase, whenMain_of_other_phase, whenMain_of_other_phase,
    fun h w => exec_txSerialize_of_not_draining w h, whenMain_of_other_phase, whenMain_of_other_phase⟩

/-- Settles O37: the state left differs from the reset state in its environment only, so it has the table's values. -/
theorem resetEstablishesTheStatedValues : Obligations.ResetEstablishesTheStatedValues := by
  intro s
  obtain ⟨hwrite, hread, hsrc, hmask, hrun, hlo, hhi, hsent, hlen, hmpc, hipc, hwire⟩ := resetStateHasTheStatedValues
  exact ⟨_, exec_sysReset s, hwrite, hread, hsrc, hmask, hrun, hlo, hhi, hsent, hlen, hmpc, hipc, hwire, rfl, rfl⟩

end Sys2Proof.Machine
end
